-- ==== Sys2Proof/Word.lean ====
section
/-! DEFINITION. The word type of the block. Every word of the command port, of the result registers
and of the delay RAM has 32 bits (`10_state.md` R20, R21; `20_memory.md` R60). -/

namespace Sys2Proof

/-- A 32-bit word; bit 0 is the least significant (`00_scope.md` R11). -/
abbrev Word := BitVec 32

end Sys2Proof
end

