-- ==== Sys2Proof/Syntax.lean ====
section
/-! DEFINITION. The commands of QSP-1: one constructor of `Instr` per row of `spec/opcode_table.json`,
each with the fields and operand words that its rule reads (`30_encoding.md` R97, R98). A field that a
command ignores (R101) is no argument of its constructor. -/

namespace Sys2Proof

/-- One command as the host presents it: the command word and the two operand words
(`10_state.md` R20, `30_encoding.md` R90). -/
structure Command where
  cmd : Word
  a : Word
  b : Word
deriving DecidableEq, Repr

/-- The 4-bit gate-flag field `gf` (`30_encoding.md` R94): HIGH is bit 0, RISING bit 1, FALLING bit 2,
ABSENT bit 3. All sixteen values have a meaning (`00_scope.md` R16). -/
abbrev GateFlags := BitVec 4

/-- The range selector of `PHA.RATE`, field `mod[1:0]` (`30_encoding.md` R95). -/
inductive RangeSel where
  | slow
  | default
  | fast
  | audio
deriving DecidableEq, Repr

/-- The 29 commands (`30_encoding.md` R98), in the order of the opcode table. The Boolean arguments are
the `mod` bits of R95: `bip` BIP, `loop` LOOP, `retrig` RETRIG, `hold` HOLD, `track` TRACK. `sr` is
`A[15:0]`, the half of `A` that `TM.LOAD` uses (R97). -/
inductive Instr where
  | sysNop
  | sysRst
  | sysRd (imm : BitVec 16)
  | qntCfg (imm : BitVec 16)
  | qntProc (a b : Word)
  | rngSeed (a : Word)
  | rngNext
  | rngGauss
  | rngWbnd (a b : Word)
  | rngWset (a : Word)
  | rngWalk (a : Word)
  | tmLoad (bip : Bool) (imm : BitVec 16) (sr : BitVec 16)
  | tmAdv (bip : Bool) (imm : BitVec 16) (a b : Word)
  | tmGet (imm : BitVec 16)
  | phaRst
  | phaStep (gf : GateFlags) (loop retrig hold : Bool) (a : Word)
  | phaRate (range : RangeSel) (a : Word)
  | phaSet (a : Word)
  | phaGet
  | rxRst
  | rxStep (gf : GateFlags) (a : Word)
  | oscSin (bip : Bool) (a : Word)
  | oscSaw (bip : Bool) (a : Word)
  | oscTri (bip : Bool) (a : Word)
  | snhRst
  | snhStep (gf : GateFlags) (track : Bool) (a : Word)
  | dlyRst
  | dlyStep (imm : BitVec 16) (a : Word)
  | dlyRd (imm : BitVec 16)
deriving DecidableEq, Repr

/-! The pseudo-instructions (`30_encoding.md` R105), by their expansions. -/

/-- `NOP`. -/
def Instr.nop : Instr := .sysNop
/-- `QNT.OFF`: unbind the scale. -/
def Instr.qntOff : Instr := .qntCfg 0
/-- `TM.CLR #s`: clear slot `s`. -/
def Instr.tmClr (s : BitVec 16) : Instr := .tmLoad false s 0
/-- `PHA.HOLD gf=g`: a step of a segment without `time`. -/
def Instr.phaHold (g : GateFlags) : Instr := .phaStep g false false true 0

end Sys2Proof
end

