-- ==== Sys2Proof/Decode.lean ====
section
/-! DEFINITION. The decoder and the encoder of format C (`30_encoding.md` R91 to R101). Decoding is total
and depends on no state (R99); a reserved (`unit`, `op`) pair is rejected by name in `decodeListed` and
then executes as `SYS.NOP` in `decode` (R100). -/

namespace Sys2Proof

/-! ## The fields of a command word (R91) -/

/-- Bits 31:24, `unit` and `op` together: what alone selects a command (R98). -/
def Command.opcode (c : Command) : BitVec 8 := c.cmd.extractLsb' 24 8
/-- Field `unit`, bits 31:28. -/
def Command.unit (c : Command) : BitVec 4 := c.cmd.extractLsb' 28 4
/-- Field `op`, bits 27:24. -/
def Command.op (c : Command) : BitVec 4 := c.cmd.extractLsb' 24 4
/-- Field `gf`, bits 23:20. -/
def Command.gf (c : Command) : GateFlags := c.cmd.extractLsb' 20 4
/-- Field `mod`, bits 19:16. -/
def Command.mod (c : Command) : BitVec 4 := c.cmd.extractLsb' 16 4
/-- Field `imm`, bits 15:0. -/
def Command.imm (c : Command) : BitVec 16 := c.cmd.extractLsb' 0 16
/-- Bit `i` of the field `mod`. -/
def Command.modBit (c : Command) (i : Nat) : Bool := c.mod.getLsbD i

/-- `RANGE` from `mod[1:0]` (R95). -/
def RangeSel.ofBits (w : BitVec 2) : RangeSel :=
  match w.toNat with
  | 0 => .slow
  | 1 => .default
  | 2 => .fast
  | _ => .audio

/-- The value of `mod[1:0]` that selects a range (R95). -/
def RangeSel.toBits : RangeSel → BitVec 2
  | .slow => 0
  | .default => 1
  | .fast => 2
  | .audio => 3

/-! ## Decoding (R99, R100) -/

/-- Why a command word is not one of the 29: the two ways a (`unit`, `op`) pair is reserved (R100). -/
inductive DecodeError where
  /-- `unit` is 9 to 15. -/
  | reservedUnit (unit : BitVec 4)
  /-- `unit` is 0 to 8 and has no such `op`. -/
  | reservedOp (unit op : BitVec 4)
deriving DecidableEq, Repr

/-- The command a word stands for, looked up in the list of R98 by its bits 31:24. -/
def decodeListed (c : Command) : Except DecodeError Instr :=
  match c.opcode.toNat with
  | 0x00 => .ok .sysNop
  | 0x01 => .ok .sysRst
  | 0x02 => .ok (.sysRd c.imm)
  | 0x10 => .ok (.qntCfg c.imm)
  | 0x11 => .ok (.qntProc c.a c.b)
  | 0x20 => .ok (.rngSeed c.a)
  | 0x21 => .ok .rngNext
  | 0x22 => .ok .rngGauss
  | 0x23 => .ok (.rngWbnd c.a c.b)
  | 0x24 => .ok (.rngWset c.a)
  | 0x25 => .ok (.rngWalk c.a)
  | 0x30 => .ok (.tmLoad (c.modBit 0) c.imm (c.a.extractLsb' 0 16))
  | 0x31 => .ok (.tmAdv (c.modBit 0) c.imm c.a c.b)
  | 0x32 => .ok (.tmGet c.imm)
  | 0x40 => .ok .phaRst
  | 0x41 => .ok (.phaStep c.gf (c.modBit 0) (c.modBit 1) (c.modBit 2) c.a)
  | 0x42 => .ok (.phaRate (.ofBits (c.mod.extractLsb' 0 2)) c.a)
  | 0x43 => .ok (.phaSet c.a)
  | 0x44 => .ok .phaGet
  | 0x50 => .ok .rxRst
  | 0x51 => .ok (.rxStep c.gf c.a)
  | 0x60 => .ok (.oscSin (c.modBit 0) c.a)
  | 0x61 => .ok (.oscSaw (c.modBit 0) c.a)
  | 0x62 => .ok (.oscTri (c.modBit 0) c.a)
  | 0x70 => .ok .snhRst
  | 0x71 => .ok (.snhStep c.gf (c.modBit 0) c.a)
  | 0x80 => .ok .dlyRst
  | 0x81 => .ok (.dlyStep c.imm c.a)
  | 0x82 => .ok (.dlyRd c.imm)
  | _ => .error (if c.unit.toNat ≤ 8 then .reservedOp c.unit c.op else .reservedUnit c.unit)

/-- The command that executes: a reserved word executes as `SYS.NOP` (R99, R100). -/
def decode (c : Command) : Instr :=
  match decodeListed c with
  | .ok i => i
  | .error _ => .sysNop

/-! ## Encoding -/

/-- A `mod` field from its bits 0, 1, 2 (no command uses bit 3, R95). -/
def modField (b0 b1 b2 : Bool) : BitVec 4 :=
  BitVec.ofNat 4 (b0.toNat + 2 * b1.toNat + 4 * b2.toNat)

/-- A command word from its fields (R91). -/
def cmdWord (opcode : BitVec 8) (gf : GateFlags) (mod : BitVec 4) (imm : BitVec 16) : Word :=
  opcode ++ gf ++ mod ++ imm

/-- The words of a command; an ignored field or operand is written zero (R101). -/
def encode : Instr → Command
  | .sysNop => ⟨cmdWord 0x00 0 0 0, 0, 0⟩
  | .sysRst => ⟨cmdWord 0x01 0 0 0, 0, 0⟩
  | .sysRd imm => ⟨cmdWord 0x02 0 0 imm, 0, 0⟩
  | .qntCfg imm => ⟨cmdWord 0x10 0 0 imm, 0, 0⟩
  | .qntProc a b => ⟨cmdWord 0x11 0 0 0, a, b⟩
  | .rngSeed a => ⟨cmdWord 0x20 0 0 0, a, 0⟩
  | .rngNext => ⟨cmdWord 0x21 0 0 0, 0, 0⟩
  | .rngGauss => ⟨cmdWord 0x22 0 0 0, 0, 0⟩
  | .rngWbnd a b => ⟨cmdWord 0x23 0 0 0, a, b⟩
  | .rngWset a => ⟨cmdWord 0x24 0 0 0, a, 0⟩
  | .rngWalk a => ⟨cmdWord 0x25 0 0 0, a, 0⟩
  | .tmLoad bip imm sr => ⟨cmdWord 0x30 0 (modField bip false false) imm, sr.setWidth 32, 0⟩
  | .tmAdv bip imm a b => ⟨cmdWord 0x31 0 (modField bip false false) imm, a, b⟩
  | .tmGet imm => ⟨cmdWord 0x32 0 0 imm, 0, 0⟩
  | .phaRst => ⟨cmdWord 0x40 0 0 0, 0, 0⟩
  | .phaStep gf loop retrig hold a => ⟨cmdWord 0x41 gf (modField loop retrig hold) 0, a, 0⟩
  | .phaRate range a => ⟨cmdWord 0x42 0 ((0 : BitVec 2) ++ range.toBits) 0, a, 0⟩
  | .phaSet a => ⟨cmdWord 0x43 0 0 0, a, 0⟩
  | .phaGet => ⟨cmdWord 0x44 0 0 0, 0, 0⟩
  | .rxRst => ⟨cmdWord 0x50 0 0 0, 0, 0⟩
  | .rxStep gf a => ⟨cmdWord 0x51 gf 0 0, a, 0⟩
  | .oscSin bip a => ⟨cmdWord 0x60 0 (modField bip false false) 0, a, 0⟩
  | .oscSaw bip a => ⟨cmdWord 0x61 0 (modField bip false false) 0, a, 0⟩
  | .oscTri bip a => ⟨cmdWord 0x62 0 (modField bip false false) 0, a, 0⟩
  | .snhRst => ⟨cmdWord 0x70 0 0 0, 0, 0⟩
  | .snhStep gf track a => ⟨cmdWord 0x71 gf (modField track false false) 0, a, 0⟩
  | .dlyRst => ⟨cmdWord 0x80 0 0 0, 0, 0⟩
  | .dlyStep imm a => ⟨cmdWord 0x81 0 0 imm, a, 0⟩
  | .dlyRd imm => ⟨cmdWord 0x82 0 0 imm, 0, 0⟩

/-! ## Which bits a command uses (R97, R98) -/

/-- The bits of the command word (below bit 24), of `A` and of `B` that a listed command uses, by its
bits 31:24; nothing for a reserved pair. -/
def usedBits (opcode : BitVec 8) : Option Command :=
  match opcode.toNat with
  | 0x00 => some ⟨0, 0, 0⟩
  | 0x01 => some ⟨0, 0, 0⟩
  | 0x02 => some ⟨0x0000FFFF, 0, 0⟩
  | 0x10 => some ⟨0x0000FFFF, 0, 0⟩
  | 0x11 => some ⟨0, 0xFFFFFFFF, 0xFFFFFFFF⟩
  | 0x20 => some ⟨0, 0xFFFFFFFF, 0⟩
  | 0x21 => some ⟨0, 0, 0⟩
  | 0x22 => some ⟨0, 0, 0⟩
  | 0x23 => some ⟨0, 0xFFFFFFFF, 0xFFFFFFFF⟩
  | 0x24 => some ⟨0, 0xFFFFFFFF, 0⟩
  | 0x25 => some ⟨0, 0xFFFFFFFF, 0⟩
  | 0x30 => some ⟨0x0001FFFF, 0x0000FFFF, 0⟩
  | 0x31 => some ⟨0x0001FFFF, 0xFFFFFFFF, 0xFFFFFFFF⟩
  | 0x32 => some ⟨0x0000FFFF, 0, 0⟩
  | 0x40 => some ⟨0, 0, 0⟩
  | 0x41 => some ⟨0x00F70000, 0xFFFFFFFF, 0⟩
  | 0x42 => some ⟨0x00030000, 0xFFFFFFFF, 0⟩
  | 0x43 => some ⟨0, 0xFFFFFFFF, 0⟩
  | 0x44 => some ⟨0, 0, 0⟩
  | 0x50 => some ⟨0, 0, 0⟩
  | 0x51 => some ⟨0x00F00000, 0xFFFFFFFF, 0⟩
  | 0x60 => some ⟨0x00010000, 0xFFFFFFFF, 0⟩
  | 0x61 => some ⟨0x00010000, 0xFFFFFFFF, 0⟩
  | 0x62 => some ⟨0x00010000, 0xFFFFFFFF, 0⟩
  | 0x70 => some ⟨0, 0, 0⟩
  | 0x71 => some ⟨0x00F10000, 0xFFFFFFFF, 0⟩
  | 0x80 => some ⟨0, 0, 0⟩
  | 0x81 => some ⟨0x0000FFFF, 0xFFFFFFFF, 0⟩
  | 0x82 => some ⟨0x0000FFFF, 0, 0⟩
  | _ => none

/-- The words of a command with every bit it ignores written zero; bits 31:24 are kept. -/
def Command.masked (c m : Command) : Command :=
  ⟨c.cmd &&& (m.cmd ||| 0xFF000000), c.a &&& m.a, c.b &&& m.b⟩

/-- The command is one of the 29 of R98. -/
def Command.listed (c : Command) : Bool := (usedBits c.opcode).isSome

/-- The command is listed and every field it ignores is zero (R101, R309). -/
def Command.ignoredZero (c : Command) : Bool :=
  match usedBits c.opcode with
  | some m => c.masked m == c
  | none => false

/-! ## The opcode table's numbering -/

/-- The command whose words, numbered as `spec/opcode_table.json` numbers bits (bit 0 is the least
significant bit of the command word; `A` is bits 63:32 and `B` bits 95:64), are the lowest `nbits` bits
of `w`; every further bit is 0. -/
def Command.ofTableBits (nbits w : Nat) : Command :=
  let v := w % 2 ^ nbits
  ⟨BitVec.ofNat 32 v, BitVec.ofNat 32 (v / 2 ^ 32), BitVec.ofNat 32 (v / 2 ^ 64)⟩

/-- What the decoder reads from an instruction whose bits are `w`. It refuses nothing (R99). -/
def decodeTableWord (nbits w : Nat) : Option Instr :=
  some (decode (Command.ofTableBits nbits w))

end Sys2Proof
end

