-- ==== Sys2Proof/Config.lean ====
section
/-! DEFINITION. What is fixed for the life of a QSP: the parameters of `00_scope.md` R6, R7, the open
parameters of R9, and the one free value, the power-on contents of the delay RAM (`20_memory.md` R66).
The sine table, fixed by R8, is in `Machine/Rom.lean`. -/

namespace Sys2Proof.Config

/-! Parameters the source fixes (`00_scope.md` R6). -/

/-- Slots of the TM bank. -/
abbrev NSLOT : Nat := 36
/-- Most notes a scale can have. -/
abbrev NNOTE : Nat := 16
/-- Width of a shift register. -/
abbrev TMW : Nat := 16
/-- Shortest sequence of a shift register. -/
abbrev STEPS_MIN : Int := 1
/-- Longest sequence of a shift register. -/
abbrev STEPS_MAX : Int := 16
/-- Uniform draws summed by the Gaussian generator. -/
abbrev NGAUSS : Nat := 4
/-- Values of the range selector: slow, default, fast, audio. -/
abbrev NRANGE : Nat := 4

/-! Parameters the spec fixes (`00_scope.md` R7). -/

/-- The value 1.0 in format Q16.16. -/
abbrev ONE : Int := 65536
/-- The phase 1.0 in a 33-bit phase register. -/
abbrev PH_ONE : Nat := 2 ^ 32
/-- Multiplier of the pseudo-random generator. -/
abbrev LCG_A : Nat := 1664525
/-- Increment of the pseudo-random generator. -/
abbrev LCG_C : Nat := 1013904223
/-- Reset value of the random state `RS`. -/
abbrev RNG_SEED0 : Word := 0x00000021
/-- Unit-variance scale of the Gaussian generator. -/
abbrev K_GAUSS : Int := 113512
/-- Shift of the probability rescale of `TM.ADV`. -/
abbrev TM_PSLOPE : Nat := 5
/-- Offset of the probability rescale of `TM.ADV`. -/
abbrev TM_POFF : Int := 1024
/-- Floor of an increment that `PHA.RATE` gives. -/
abbrev FREQ_MIN : Int := 1
/-- Ceiling of an increment that `PHA.RATE` gives. -/
abbrev FREQ_MAX : Int := 2 ^ 31
/-- `RANGE_SHIFT` of the range slow: bits by which the increment is shifted right. -/
abbrev RANGE_SHIFT_SLOW : Nat := 3
/-- `RANGE_SHIFT` of the range default: no shift. -/
abbrev RANGE_SHIFT_DEFAULT : Nat := 0
/-- `RANGE_SHIFT` of the range fast: bits by which the increment is shifted left. -/
abbrev RANGE_SHIFT_FAST : Nat := 3
/-- `RANGE_SHIFT` of the range audio: bits by which the increment is shifted left. -/
abbrev RANGE_SHIFT_AUDIO : Nat := 6
/-- Entries per cycle of `SINE_ROM` (one more entry guards its end). -/
abbrev NSINE : Nat := 256
/-- Intervals of `RATE_ROM` (one more entry ends it). -/
abbrev NRATE : Nat := 256
/-- Words of the delay RAM. -/
abbrev DLEN : Nat := 1024
/-- The value of register `ID`. -/
abbrev QSP_ID : Word := 0x51535031

/-! Parameters left open (`00_scope.md` R9; log 2). -/

/-- The open parameters as one value: the number of scales (0 to 65535, so 16 bits), the words of
`SCALE_ROM` by word index and the words of `RATE_ROM` by word index (`20_memory.md` R64, R65). -/
structure Roms where
  nscale : BitVec 16
  scaleWord : Nat → Word
  rateWord : Nat → Word

/-- `NSCALE`, left open. -/
opaque nscale : BitVec 16

/-- `SCALE_ROM`, left open: the word at an index. -/
opaque scaleRom : Nat → Word

/-- `RATE_ROM`, left open: the word at an index. -/
opaque rateRom : Nat → Word

/-- The parameters this QSP is built with. -/
def roms : Roms := ⟨nscale, scaleRom, rateRom⟩

/-- FREE VALUE (log 4): what a word of the delay RAM that nothing has written since the hardware reset
would read as (`20_memory.md` R66: unspecified). -/
opaque dlyPowerOn : Nat → Word

end Sys2Proof.Config
end

