-- ==== Sys2Proof/Machine/State.lean ====
section
/-! DEFINITION. The state of a QSP, its reset, and the reasons a step can stop (there are none). -/

namespace Sys2Proof.Machine

/-- Why the machine stops with a fault: nothing does. QSP raises no synchronous exception, it absorbs
every condition that raises one in a processor (`60_exceptions.md` R270, R271), and it has no trap and no
interrupt (R274, R276). The type is closed and empty, so no step can answer a fault. -/
inductive Fault
deriving DecidableEq, Repr

/-- Why the machine refuses an instruction. -/
inductive Refusal where
  /-- The instruction has no meaning in the model. Raised only by an arm of `exec` that has no meaning
  yet; every arm has one, so nothing raises it. Safe: the model says nothing where it would stand. -/
  | notModelled (mnemonic : String)
deriving DecidableEq, Repr

/-- What a step answers. -/
abbrev Result (σ : Type) := Host.Outcome σ Fault Refusal

/-- One record of the TM bank (`10_state.md` R29): the shift register `TMSR`, the derived value `TMV`
(signed, Q16.16) and the step-count `TMN`. -/
structure TmSlot where
  sr : BitVec 16
  v : BitVec 32
  n : BitVec 5
deriving DecidableEq, Repr

/-- The delay RAM (`20_memory.md` R66): the words that some `DLY.STEP` has written since the last
hardware reset, as pairs of index and word, the indices strictly rising. An index that is not listed
holds no value. The space is indexed by whole words and has no bytes (R61; log 3). -/
abbrev Memory := List (Nat × Word)

/-- The state: every register of `10_state.md` R22 and R27 to R34, the delay RAM of `20_memory.md` R66,
and the commands the host has issued and the block has not executed yet. -/
structure State where
  /-- `Y0`, first result (R22). -/
  y0 : Word
  /-- `Y1`, second result (R22). -/
  y1 : Word
  /-- `FL`, the flags (R25). -/
  fl : BitVec 8
  /-- `QEN`: a usable scale is bound (R27). -/
  qen : Bool
  /-- `QV`: the cell holds a searched codeword (R27). -/
  qv : Bool
  /-- `QSCL`, index of the bound scale (R27). -/
  qscl : BitVec 16
  /-- `QCW`, the codeword, signed (R27). -/
  qcw : BitVec 40
  /-- `QPB`, the lower boundary of the cell, signed (R27). -/
  qpb : BitVec 40
  /-- `QNB`, the upper boundary of the cell, signed (R27). -/
  qnb : BitVec 40
  /-- `QIX`, note index of the codeword (R27). -/
  qix : BitVec 4
  /-- `RS`, the random state (R28). -/
  rs : Word
  /-- `WX`, the random walk's value, signed (R28). -/
  wx : Word
  /-- `WLO`, the walk's lower bound, signed (R28). -/
  wlo : Word
  /-- `WHI`, the walk's upper bound, signed (R28). -/
  whi : Word
  /-- The TM bank (R29). -/
  tm : Vector TmSlot Config.NSLOT
  /-- `PH`, the phase, format PH33 (R30). -/
  ph : BitVec 33
  /-- `RXP`, the extracted ramp, format PH33 (R31). -/
  rxp : BitVec 33
  /-- `RXF`, the increment of the last tap period (R31). -/
  rxf : Word
  /-- `RXC`, steps since the last tap (R31). -/
  rxc : Word
  /-- `RXV`: a tap has been seen (R31). -/
  rxv : Bool
  /-- `SH`, the held sample (R33). -/
  sh : Word
  /-- `DWP`, the delay write pointer (R34). -/
  dwp : BitVec 10
  /-- `DFC`, the delay fill count (R34). -/
  dfc : BitVec 11
  /-- `DLY_RAM` (`20_memory.md` R66). -/
  ram : Memory
  /-- The MODEL's own field (log 1): the commands at the command port, the next one first. The spec
  makes them inputs of the step (R20), which `step : State → Result State` reads from here. -/
  port : List Command
deriving DecidableEq, Repr

/-- A TM record after reset (R29). -/
def TmSlot.reset : TmSlot := { sr := 0, v := 0, n := 0 }

/-- The machine right after the hardware reset (`10_state.md` R36): every register at its reset value,
no word of the delay RAM written, no command at the port. -/
def State.reset : State where
  y0 := 0
  y1 := 0
  fl := 0
  qen := false
  qv := false
  qscl := 0
  qcw := 0
  qpb := 0
  qnb := 0
  qix := 0
  rs := Config.RNG_SEED0
  wx := 0
  wlo := 0
  whi := 0x00010000
  tm := Vector.replicate Config.NSLOT TmSlot.reset
  ph := 0
  rxp := 0
  rxf := 0
  rxc := 0
  rxv := false
  sh := 0
  dwp := 0
  dfc := 0
  ram := []
  port := []

end Sys2Proof.Machine
end

