-- ==== Sys2Proof/Machine/Flags.lean ====
section
/-! DEFINITION. The flag byte `FL` (`10_state.md` R25). A command names the bits it sets; every other
bit of `FL`, the reserved bits 7:5 among them, is written 0 (R120). -/

namespace Sys2Proof.Machine

/-- The flag bits a command sets. -/
structure Flags where
  /-- Bit 0: a discrete-state change. -/
  chg : Bool := false
  /-- Bit 1: the phase register of the unit is exactly 1.0. -/
  done : Bool := false
  /-- Bit 2: the phase register wrapped past 1.0. -/
  wrap : Bool := false
  /-- Bit 3: the quantizer is enabled. -/
  qen : Bool := false
  /-- Bit 4: the delay line is full. -/
  dfull : Bool := false
deriving DecidableEq, Repr

/-- The byte written to `FL`. -/
def flByte (f : Flags) : BitVec 8 :=
  BitVec.ofNat 8 (f.chg.toNat + 2 * f.done.toNat + 4 * f.wrap.toNat + 8 * f.qen.toNat + 16 * f.dfull.toNat)

end Sys2Proof.Machine
end

