-- ==== Sys2Proof/Machine/Ops.lean ====
section
/-! DEFINITION. The arithmetic of the pseudocode (`00_scope.md` R14), and the named operations over the
registers and the delay RAM (R15). There is no taking of an exception and no return from one to write
here: QSP has no trap (`60_exceptions.md` R270, R276, R277). -/

namespace Sys2Proof.Machine

/-! ## Arithmetic (R14), over the integers -/

/-- `a >> n`: floor of `a / 2^n`, for negative `a` too. -/
def asr (a : Int) (n : Nat) : Int := a / 2 ^ n

/-- `fdiv(a, b)` for `b > 0`: floor of `a / b`. -/
def fdiv (a b : Int) : Int := a / b

/-- `fmod(a, b)` for `b > 0`, in `[0, b - 1]`. -/
def fmod (a b : Int) : Int := a % b

/-- `clamp(x, lo, hi)`, used with `lo ≤ hi`. -/
def clamp (x lo hi : Int) : Int := max lo (min hi x)

/-- `sat32(x)`: clamped to the signed 32-bit range. -/
def sat32 (x : Int) : Int := clamp x (-2 ^ 31) (2 ^ 31 - 1)

/-- `u32(x)`: the 32-bit two's complement word of an integer. -/
def u32 (x : Int) : Word := BitVec.ofInt 32 x

/-! ## Results (`40_system.md` R120) -/

/-- The common end of every command: write the three result registers. -/
def State.finish (s : State) (y0 y1 : Int) (fl : BitVec 8) : State :=
  { s with y0 := u32 y0, y1 := u32 y1, fl := fl }

/-! ## The TM bank (`10_state.md` R29) -/

/-- `TMSR[i]`, `TMV[i]` and `TMN[i]`. -/
def State.slot (s : State) (i : Fin Config.NSLOT) : TmSlot := s.tm[i]

/-- Write the record of slot `i`; no other slot is touched. -/
def State.setSlot (s : State) (i : Fin Config.NSLOT) (x : TmSlot) : State :=
  { s with tm := s.tm.set i x }

/-! ## The delay RAM (`20_memory.md` R66) -/

/-- The word at an index: none where nothing has written one. -/
def Memory.read? : Memory → Nat → Option Word
  | [], _ => none
  | (j, x) :: m, i => if i = j then some x else Memory.read? m i

/-- `MemWrite(DLY_RAM, i, w)`, keeping the indices strictly rising. -/
def Memory.write : Memory → Nat → Word → Memory
  | [], i, w => [(i, w)]
  | (j, x) :: m, i, w =>
    if i < j then (i, w) :: (j, x) :: m
    else if i = j then (i, w) :: m
    else (j, x) :: Memory.write m i w

/-- The indices of a list of cells rise strictly, all above `lo` where there is one. -/
def Memory.rising : Option Nat → Memory → Bool
  | _, [] => true
  | none, (j, _) :: m => Memory.rising (some j) m
  | some lo, (j, _) :: m => decide (lo < j) && Memory.rising (some j) m

/-- The canonical form: indices strictly rising, every index inside the RAM. An index that is not
listed holds no value, which no entry can equal, so equal memories are equal lists. -/
def Memory.wf (m : Memory) : Bool :=
  Memory.rising none m && m.all (fun c => decide (c.1 < Config.DLEN))

/-- `MemRead(DLY_RAM, i)`. A word that nothing has written gives the free value of log 4; no state that
commands reach reads one (`47_delay.md` R255). -/
def Memory.read (m : Memory) (i : Nat) : Word := (Memory.read? m i).getD (Config.dlyPowerOn i)

/-- The index `fmod(x, DLEN)` (`47_delay.md` R252, R253). -/
def dlyIndex (x : Int) : Nat := (fmod x Config.DLEN).toNat

/-! ## Reset (`70_reset_and_hazards.md` R300, R301) -/

/-- Every register at its reset value (`10_state.md` R36); the delay RAM and the port as they were. -/
def State.resetRegisters (s : State) : State := { State.reset with ram := s.ram, port := s.port }

/-- What asserting the hardware reset input leaves: every register at its reset value and no word of the
delay RAM holding a value (R300, R302). It is an input of the block and no command (log 7). -/
def State.hardwareReset (s : State) : State := { State.reset with port := s.port }

/-! ## The register space (`10_state.md` R26) -/

/-- A one-bit register extended by zero. -/
def bit64 (b : Bool) : BitVec 64 := if b then 1 else 0

/-- The value of the register numbered `num`, extended to 64 bits by sign where the register is marked
signed and by zero elsewhere; 0 where no register has the number (R22, R26 to R34). It is also what a
monitor reads (`60_exceptions.md` R279). -/
def State.readReg (s : State) (num : Nat) : BitVec 64 :=
  if num < 0x0300 then
    match num with
    | 0x0000 => Config.QSP_ID.zeroExtend 64
    | 0x0001 => s.y0.zeroExtend 64
    | 0x0002 => s.y1.zeroExtend 64
    | 0x0003 => s.fl.zeroExtend 64
    | 0x0010 => bit64 s.qen
    | 0x0011 => bit64 s.qv
    | 0x0012 => s.qscl.zeroExtend 64
    | 0x0013 => s.qcw.signExtend 64
    | 0x0014 => s.qpb.signExtend 64
    | 0x0015 => s.qnb.signExtend 64
    | 0x0016 => s.qix.zeroExtend 64
    | 0x0020 => s.rs.zeroExtend 64
    | 0x0021 => s.wx.signExtend 64
    | 0x0022 => s.wlo.signExtend 64
    | 0x0023 => s.whi.signExtend 64
    | 0x0040 => s.ph.zeroExtend 64
    | 0x0050 => s.rxp.zeroExtend 64
    | 0x0051 => s.rxf.zeroExtend 64
    | 0x0052 => s.rxc.zeroExtend 64
    | 0x0053 => bit64 s.rxv
    | 0x0070 => s.sh.zeroExtend 64
    | 0x0080 => s.dwp.zeroExtend 64
    | 0x0081 => s.dfc.zeroExtend 64
    | _ => 0
  else if h : 0x0300 ≤ num ∧ num < 0x0300 + Config.NSLOT then
    (s.slot ⟨num - 0x0300, by omega⟩).sr.zeroExtend 64
  else if h : 0x0340 ≤ num ∧ num < 0x0340 + Config.NSLOT then
    (s.slot ⟨num - 0x0340, by omega⟩).v.signExtend 64
  else if h : 0x0380 ≤ num ∧ num < 0x0380 + Config.NSLOT then
    (s.slot ⟨num - 0x0380, by omega⟩).n.zeroExtend 64
  else 0

end Sys2Proof.Machine
end

