-- ==== Sys2Proof/Machine/Operands.lean ====
section
/-! DEFINITION. The operand forms: the views of the operand words (`00_scope.md` R13), the clamped
indices an immediate stands for (`20_memory.md` R69), the clamped parameters (`60_exceptions.md` R271)
and the gate-flag predicates (`00_scope.md` R16). -/

namespace Sys2Proof.Machine

/-! ## Views of an operand word (R13) -/

/-- `uA`: the word as an unsigned integer. -/
def uview (w : Word) : Int := (w.toNat : Int)

/-- `sA`: the word as a two's complement integer. -/
def sview (w : Word) : Int := w.toInt

/-- A parameter operand in Q16.16, clamped to [0, 1.0] (R271). -/
def unitParam (w : Word) : Int := clamp (sview w) 0 Config.ONE

/-! ## Indices from the immediate (R69, R96) -/

/-- The scale index `min(imm, NSCALE)` of `QNT.CFG`. -/
def scaleIndex (rom : Config.Roms) (imm : BitVec 16) : Nat := min imm.toNat rom.nscale.toNat

/-- The slot `min(imm, 35)` of the TM commands (`43_turing.md` R174). -/
def slotIndex (imm : BitVec 16) : Fin Config.NSLOT :=
  ⟨min imm.toNat (Config.NSLOT - 1), Nat.lt_of_le_of_lt (Nat.min_le_right _ _) (by decide)⟩

/-- The delay `min(imm, 1023)` of the DLY commands (`47_delay.md` R254). -/
def delayOf (imm : BitVec 16) : Nat := min imm.toNat (Config.DLEN - 1)

/-! ## Gate-flag predicates (R16) -/

/-- `absent(gf)`. -/
def gfAbsent (gf : GateFlags) : Bool := gf.getLsbD 3

/-- `rising(gf)`: absent wins over it. -/
def gfRising (gf : GateFlags) : Bool := !gf.getLsbD 3 && gf.getLsbD 1

/-- `falling(gf)`: absent and rising win over it. -/
def gfFalling (gf : GateFlags) : Bool := !gf.getLsbD 3 && !gf.getLsbD 1 && gf.getLsbD 2

/-- `high(gf)`: absent wins over it. -/
def gfHigh (gf : GateFlags) : Bool := !gf.getLsbD 3 && gf.getLsbD 0

end Sys2Proof.Machine
end

