-- ==== Sys2Proof/Machine/Delay.lean ====
section
/-! DEFINITION. Unit DLY: the delay line (`47_delay.md`). -/

namespace Sys2Proof.Machine

/-- The sample `d` back from the index `i` where the fill count `dfc` says there is one, else 0
(R252, R253). -/
def delayed (m : Memory) (i : Int) (d dfc : Nat) : Word :=
  if d < dfc then Memory.read m (dlyIndex (i - d)) else 0

/-- The results of `DLY.STEP` and `DLY.RD`: the sample, the fill count, `DFULL` (R252, R253). -/
def State.finishDelay (s : State) (y : Word) (dfc : Nat) : State :=
  s.finish (uview y) dfc (flByte { dfull := decide (dfc = Config.DLEN) })

/-- `DLY.RST` (R251). -/
def execDlyRst (s : State) : Result State :=
  .next ({ s with dwp := 0, dfc := 0 }.finish 0 0 (flByte {}))

/-- `DLY.STEP` (R252): write, then count, then read, then advance the pointer. -/
def execDlyStep (imm : BitVec 16) (a : Word) (s : State) : Result State :=
  let ram := Memory.write s.ram s.dwp.toNat a
  let dfc := min (s.dfc.toNat + 1) Config.DLEN
  let y := delayed ram s.dwp.toNat (delayOf imm) dfc
  .next ({ s with
    ram := ram
    dfc := BitVec.ofNat 11 dfc
    dwp := BitVec.ofNat 10 (dlyIndex (s.dwp.toNat + 1)) }.finishDelay y dfc)

/-- `DLY.RD` (R253). -/
def execDlyRd (imm : BitVec 16) (s : State) : Result State :=
  .next (s.finishDelay (delayed s.ram (s.dwp.toNat - 1) (delayOf imm) s.dfc.toNat) s.dfc.toNat)

end Sys2Proof.Machine
end

