-- ==== Sys2Proof/Machine/Rom.lean ====
section
/-! DEFINITION. The three read-only tables (`20_memory.md` R60, R62 to R65). Their contents are no state
(`10_state.md` R38). A table word is read by `MemRead` at the table's width, signed or unsigned as the
table's rule says. -/

namespace Sys2Proof.Machine

/-- The contents of `SINE_ROM`, eight entries a row, as R63 lists them: one cycle of `Config.NSINE` entries
and the guard entry (R62). -/
def sineTable : List Int :=
  [0, 1608, 3216, 4821, 6424, 8022, 9616, 11204] ++
  [12785, 14359, 15924, 17479, 19024, 20557, 22078, 23586] ++
  [25080, 26558, 28020, 29466, 30893, 32303, 33692, 35062] ++
  [36410, 37736, 39040, 40320, 41576, 42806, 44011, 45190] ++
  [46341, 47464, 48559, 49624, 50660, 51665, 52639, 53581] ++
  [54491, 55368, 56212, 57022, 57798, 58538, 59244, 59914] ++
  [60547, 61145, 61705, 62228, 62714, 63162, 63572, 63944] ++
  [64277, 64571, 64827, 65043, 65220, 65358, 65457, 65516] ++
  [65536, 65516, 65457, 65358, 65220, 65043, 64827, 64571] ++
  [64277, 63944, 63572, 63162, 62714, 62228, 61705, 61145] ++
  [60547, 59914, 59244, 58538, 57798, 57022, 56212, 55368] ++
  [54491, 53581, 52639, 51665, 50660, 49624, 48559, 47464] ++
  [46341, 45190, 44011, 42806, 41576, 40320, 39040, 37736] ++
  [36410, 35062, 33692, 32303, 30893, 29466, 28020, 26558] ++
  [25080, 23586, 22078, 20557, 19024, 17479, 15924, 14359] ++
  [12785, 11204, 9616, 8022, 6424, 4821, 3216, 1608] ++
  [0, -1608, -3216, -4821, -6424, -8022, -9616, -11204] ++
  [-12785, -14359, -15924, -17479, -19024, -20557, -22078, -23586] ++
  [-25080, -26558, -28020, -29466, -30893, -32303, -33692, -35062] ++
  [-36410, -37736, -39040, -40320, -41576, -42806, -44011, -45190] ++
  [-46341, -47464, -48559, -49624, -50660, -51665, -52639, -53581] ++
  [-54491, -55368, -56212, -57022, -57798, -58538, -59244, -59914] ++
  [-60547, -61145, -61705, -62228, -62714, -63162, -63572, -63944] ++
  [-64277, -64571, -64827, -65043, -65220, -65358, -65457, -65516] ++
  [-65536, -65516, -65457, -65358, -65220, -65043, -64827, -64571] ++
  [-64277, -63944, -63572, -63162, -62714, -62228, -61705, -61145] ++
  [-60547, -59914, -59244, -58538, -57798, -57022, -56212, -55368] ++
  [-54491, -53581, -52639, -51665, -50660, -49624, -48559, -47464] ++
  [-46341, -45190, -44011, -42806, -41576, -40320, -39040, -37736] ++
  [-36410, -35062, -33692, -32303, -30893, -29466, -28020, -26558] ++
  [-25080, -23586, -22078, -20557, -19024, -17479, -15924, -14359] ++
  [-12785, -11204, -9616, -8022, -6424, -4821, -3216, -1608] ++
  [0]

/-- `MemRead(SINE_ROM, i)` (R62); `i` is at most `Config.NSINE` wherever a command reads it (R69). -/
def sineRom (i : Nat) : Int := sineTable.getD i 0

/-- `MemRead(RATE_ROM, i)`: an unsigned word (R64). -/
def rateRom (rom : Config.Roms) (i : Nat) : Int := ((rom.rateWord i).toNat : Int)

/-- The word index at which record `s` of `SCALE_ROM` begins (R65); records are numbered 1 to `NSCALE`.
DESIGN CHOICE (log 10): index 0, which has no record, gives the place of record 1, and an index above
`NSCALE` a place past the last record, whose words are those of the open table's function there. No command
reads at such an index in a state that commands reach. Unsafe in other states. -/
def scaleBase (s : Nat) : Nat := 18 * (s - 1)

/-- `SCALE_ROM[s].span`: word 0 of record `s`, signed (R65); an index without a record: log 10. -/
def scaleSpan (rom : Config.Roms) (s : Nat) : Int := (rom.scaleWord (scaleBase s)).toInt

/-- `SCALE_ROM[s].n`: word 1 of record `s`, unsigned, a value above 16 read as 16 (R65); an index
without a record: log 10. -/
def scaleCount (rom : Config.Roms) (s : Nat) : Nat :=
  min (rom.scaleWord (scaleBase s + 1)).toNat Config.NNOTE

/-- `SCALE_ROM[s].note[j]`: word `2 + j` of record `s`, signed (R65); an index without a
record: log 10. -/
def scaleNote (rom : Config.Roms) (s j : Nat) : Int := (rom.scaleWord (scaleBase s + 2 + j)).toInt

end Sys2Proof.Machine
end

