-- ==== Sys2Proof/Machine/Oscillator.lean ====
section
/-! DEFINITION. Unit OSC: sine, saw and triangle (`45_oscillator.md`). The unit has no state
(`10_state.md` R32). -/

namespace Sys2Proof.Machine

/-- The bipolar sine of a phase: the table entry `uA[31:24]` interpolated toward the next with the 16-bit
fraction `uA[23:8]` (R220). -/
def sineOf (a : Word) : Int :=
  let i := (a.extractLsb' 24 8).toNat
  let fr : Int := (a.extractLsb' 8 16).toNat
  let x := sineRom i
  let y := sineRom (i + 1)
  x + asr ((y - x) * fr) 16

/-- `OSC.SIN` (R220). -/
def execOscSin (bip : Bool) (a : Word) (s : State) : Result State :=
  let y := sineOf a
  .next (s.finish (if bip then y else asr (y + Config.ONE) 1) 0 (flByte {}))

/-- The phase with 17 bits (R221, R222). -/
def phase17 (a : Word) : Int := asr (uview a) 15

/-- `OSC.SAW` (R221). -/
def execOscSaw (bip : Bool) (a : Word) (s : State) : Result State :=
  .next (s.finish (if bip then phase17 a - Config.ONE else asr (phase17 a) 1) 0 (flByte {}))

/-- The triangle folded at half a cycle, 0 to 65536 (R222). -/
def triangleOf (a : Word) : Int :=
  if phase17 a ≤ Config.ONE then phase17 a else 131072 - phase17 a

/-- `OSC.TRI` (R222). -/
def execOscTri (bip : Bool) (a : Word) (s : State) : Result State :=
  .next (s.finish (if bip then 2 * triangleOf a - Config.ONE else triangleOf a) 0 (flByte {}))

end Sys2Proof.Machine
end

