-- ==== Sys2Proof/Machine/Phase.lean ====
section
/-! DEFINITION. Unit PHA: the phase accumulator and the rate curve (`44_phase_ramp.md`, section 1). -/

namespace Sys2Proof.Machine

/-- The phase word written to `Y0`: the phase as UQ0.32, 0 when it is exactly 1.0 (R191). -/
def phaseWord (ph : Nat) : Int := ((ph % 2 ^ 32 : Nat) : Int)

/-- The phase written to `Y1`: the phase as Q16.16, 65536 when it is exactly 1.0 (R191). -/
def phaseQ16 (ph : Nat) : Int := asr (ph : Int) 16

/-- The results that report the phase register as it then stands (R191, R193, R194, R202). -/
def State.finishPhase (s : State) (ph : Nat) (f : Flags) : State :=
  s.finish (phaseWord ph) (phaseQ16 ph) (flByte f)

/-- `PHA.RST` (R190). -/
def execPhaRst (s : State) : Result State := .next ({ s with ph := 0 }.finish 0 0 (flByte {}))

/-- What the integrator does with the phase `ph0` after a retrigger: its new value, and whether it
wrapped (R191). `hold` leaves it; `loop` wraps it at 1.0; else it saturates at 1.0. -/
def integrate (ph0 : Nat) (inc : Nat) (loop hold : Bool) : Nat × Bool :=
  if hold then (ph0, false)
  else if loop then ((ph0 + inc) % Config.PH_ONE, decide (ph0 + inc ≥ Config.PH_ONE))
  else (min (ph0 + inc) Config.PH_ONE, false)

/-- `PHA.STEP` (R191). -/
def execPhaStep (gf : GateFlags) (loop retrig hold : Bool) (a : Word) (s : State) : Result State :=
  let restart := retrig && gfRising gf
  let r := integrate (if restart then 0 else s.ph.toNat) a.toNat loop hold
  let done := !hold && decide (r.1 = Config.PH_ONE)
  .next ({ s with ph := BitVec.ofNat 33 r.1 }.finishPhase r.1 { chg := restart, done := done, wrap := r.2 })

/-- The effect of the range selector on an increment (R192; `00_scope.md` R7). -/
def rangeShift (range : RangeSel) (f : Int) : Int :=
  match range with
  | .slow => asr f Config.RANGE_SHIFT_SLOW
  | .default => f * 2 ^ Config.RANGE_SHIFT_DEFAULT
  | .fast => f * 2 ^ Config.RANGE_SHIFT_FAST
  | .audio => f * 2 ^ Config.RANGE_SHIFT_AUDIO

/-- The interpolated table value for the time parameter `t` in 0 to 65536 (R192). -/
def rateCurve (rom : Config.Roms) (t : Int) : Int :=
  let idx := (asr t 8).toNat
  let fr := fmod t 256
  let a := rateRom rom idx
  let b := rateRom rom (min (idx + 1) Config.NRATE)
  a + asr ((b - a) * fr) 8

/-- The increment that `PHA.RATE` gives, over given parameters (R192). -/
def rateWith (rom : Config.Roms) (range : RangeSel) (a : Word) : Int :=
  clamp (rangeShift range (rateCurve rom (unitParam a))) Config.FREQ_MIN Config.FREQ_MAX

/-- `PHA.RATE` (R192). -/
def execPhaRate (range : RangeSel) (a : Word) (s : State) : Result State :=
  .next (s.finish (rateWith Config.roms range a) 0 (flByte {}))

/-- `PHA.SET` (R193). -/
def execPhaSet (a : Word) (s : State) : Result State :=
  let ph := (unitParam a * 2 ^ 16).toNat
  .next ({ s with ph := BitVec.ofNat 33 ph }.finishPhase ph { done := decide (ph = Config.PH_ONE) })

/-- `PHA.GET` (R194). -/
def execPhaGet (s : State) : Result State :=
  .next (s.finishPhase s.ph.toNat { done := decide (s.ph.toNat = Config.PH_ONE) })

end Sys2Proof.Machine
end

