-- ==== Sys2Proof/Machine/Quantizer.lean ====
section
/-! DEFINITION. Unit QNT: the scale quantizer with hysteresis (`41_quantizer.md`). The functions named
`...With` take the open parameters as an argument; the meanings give them this QSP's (`Config.roms`). -/

namespace Sys2Proof.Machine

/-- The codebook function `C(k)` of scale `sc` (R130). The rule defines it while `QEN` = 1, for a record of
`SCALE_ROM` with `n ≥ 1` and `span > 0`; elsewhere DESIGN CHOICE (log 10), unsafe: Lean's division by 0, and the
words that `scaleBase` gives an index without a record. -/
def codebook (rom : Config.Roms) (sc : Nat) (k : Int) : Int :=
  fdiv k (scaleCount rom sc) * scaleSpan rom sc + scaleNote rom sc (fmod k (scaleCount rom sc)).toNat

/-- The scan of R132 over `count` further candidates from `k` on, in rising order: a candidate replaces
the best so far only if it is strictly nearer to `p`, so a tie keeps the lower one. -/
def scanNearest (C : Int → Int) (p : Int) : Nat → Int → Int → Int
  | 0, _, best => best
  | count + 1, k, best =>
    scanNearest C p count (k + 1) (if (p - C k).natAbs < (p - C best).natAbs then k else best)

/-- The member of the codebook that a search for `p` finds: the nearest of the `n + 2` candidates
`oct*n - 1` to `oct*n + n` (R132); of a scale that is not usable or has no record: log 10. -/
def searchNearest (rom : Config.Roms) (sc : Nat) (p : Int) : Int :=
  let n : Int := scaleCount rom sc
  let oct := fdiv p (scaleSpan rom sc)
  scanNearest (codebook rom sc) p (scaleCount rom sc + 1) (oct * n) (oct * n - 1)

/-- A boundary of the cell of codeword `cw`: 9/16 of the way from it to the neighbour `c` (R132). -/
def cellBoundary (c cw : Int) : Int := asr (9 * c + 7 * cw) 4

/-- The scale `sc` is usable: it is not 0 and its record is not degenerate (R131). -/
def scaleUsable (rom : Config.Roms) (sc : Nat) : Bool :=
  decide (sc ≠ 0) && (decide (scaleCount rom sc ≥ 1) && decide (scaleSpan rom sc > 0))

/-- `QNT.CFG` over given parameters (R131). -/
def qntCfgWith (rom : Config.Roms) (imm : BitVec 16) (s : State) : State :=
  let sc := scaleIndex rom imm
  let en := scaleUsable rom sc
  let s' := { s with
    qscl := BitVec.ofNat 16 sc
    qen := en
    qv := false
    qcw := 0
    qpb := 0
    qnb := 0
    qix := 0 }
  s'.finish en.toNat 0 (flByte { qen := en })

/-- The pitch relative to the root, exact (R132). -/
def pitchOf (a b : Word) : Int := sview a - sview b

/-- The pitch lies in the cell of a held codeword, both boundaries included (R132). -/
def State.inCell (s : State) (p : Int) : Bool :=
  s.qv && decide (s.qpb.toInt ≤ p ∧ p ≤ s.qnb.toInt)

/-- The cell registers after a search that found the codebook member `k` (R132). -/
def State.setCell (s : State) (rom : Config.Roms) (k : Int) : State :=
  let C := codebook rom s.qscl.toNat
  { s with
    qcw := BitVec.ofInt 40 (C k)
    qpb := BitVec.ofInt 40 (cellBoundary (C (k - 1)) (C k))
    qnb := BitVec.ofInt 40 (cellBoundary (C (k + 1)) (C k))
    qix := BitVec.ofInt 4 (fmod k (scaleCount rom s.qscl.toNat))
    qv := true }

/-- The results of an enabled `QNT.PROC`, from the cell registers as they then stand (R132). -/
def State.quantized (s : State) (b : Word) (chg : Bool) : State :=
  s.finish (sat32 (s.qcw.toInt + sview b)) s.qix.toNat (flByte { qen := true, chg := chg })

/-- `QNT.PROC` over given parameters (R132). A search with no codeword held sets `CHG`, as R132 says, also
where R139 says otherwise (log 13). -/
def qntProcWith (rom : Config.Roms) (a b : Word) (s : State) : State :=
  if !s.qen then
    s.finish (uview a) 0 (flByte {})
  else
    let p := pitchOf a b
    if s.inCell p then
      s.quantized b false
    else
      let k := searchNearest rom s.qscl.toNat p
      let chg := !s.qv || decide (codebook rom s.qscl.toNat k ≠ s.qcw.toInt)
      (s.setCell rom k).quantized b chg

/-- `QNT.CFG` (R131). -/
def execQntCfg (imm : BitVec 16) (s : State) : Result State := .next (qntCfgWith Config.roms imm s)

/-- `QNT.PROC` (R132). -/
def execQntProc (a b : Word) (s : State) : Result State := .next (qntProcWith Config.roms a b s)

end Sys2Proof.Machine
end

