-- ==== Sys2Proof/Machine/Ramp.lean ====
section
/-! DEFINITION. Unit RX: the ramp extractor (`44_phase_ramp.md`, section 2). -/

namespace Sys2Proof.Machine

/-- The increment of a tap period: one ramp per period, at most 2^32 - 1 (R202). -/
def tapIncrement (period : Nat) : Nat := min (Config.PH_ONE / period) (2 ^ 32 - 1)

/-- `RX.RST` (R201). -/
def execRxRst (s : State) : Result State :=
  .next ({ s with rxp := 0, rxf := 0, rxc := 0, rxv := false }.finish 0 0 (flByte {}))

/-- A sample with no gate patched: the ramp runs free by `a` and wraps at 1.0 (R202). -/
def rxFree (a : Word) (s : State) : State :=
  let y := s.rxp.toNat + a.toNat
  { s with rxp := BitVec.ofNat 33 (y % Config.PH_ONE) }.finishPhase (y % Config.PH_ONE)
    { wrap := decide (y ≥ Config.PH_ONE) }

/-- A tap: the period since the last tap sets the increment, the ramp restarts (R202). The counter having
saturated, a period above 2^32 is measured as 2^32, as R202 says, also where R203 (b) says otherwise (log 18). -/
def rxTap (s : State) : State :=
  let rxf := if s.rxv then BitVec.ofNat 32 (tapIncrement (s.rxc.toNat + 1)) else s.rxf
  { s with rxf := rxf, rxv := true, rxc := 0, rxp := 0 }.finishPhase 0 { chg := true }

/-- A sample between taps: the counter and the ramp advance, each saturating (R202); with taps more than
2^32 samples apart the ramp so reaches 1.0 and sets `DONE`, where R203 (b) says it never does (log 18). -/
def rxBetween (s : State) : State :=
  let p := min (s.rxp.toNat + s.rxf.toNat) Config.PH_ONE
  { s with rxc := BitVec.ofNat 32 (min (s.rxc.toNat + 1) (2 ^ 32 - 1)), rxp := BitVec.ofNat 33 p }.finishPhase p
    { done := decide (p = Config.PH_ONE) }

/-- `RX.STEP` (R202): exactly one of the three branches, in the order absent, rising, otherwise. -/
def execRxStep (gf : GateFlags) (a : Word) (s : State) : Result State :=
  .next (if gfAbsent gf then rxFree a s else if gfRising gf then rxTap s else rxBetween s)

end Sys2Proof.Machine
end

