-- ==== Sys2Proof/Machine/Random.lean ====
section
/-! DEFINITION. Unit RNG: the uniform generator, the pseudo-Gaussian generator and the reflecting random
walk (`42_random.md`). -/

namespace Sys2Proof.Machine

/-- The random state after one draw, which is also the value drawn (R150). Log 6. -/
def draw (rs : Word) : Word := BitVec.ofNat 32 (rs.toNat * Config.LCG_A + Config.LCG_C)

/-- The 16-bit uniform value of a draw: its top half (R150). -/
def top16 (r : Word) : Int := asr (uview r) 16

/-- `k` draws: the sum of their top halves and the random state after them, draws in order (R153). -/
def drawSum : Nat → Word → Int × Word
  | 0, rs => (0, rs)
  | k + 1, rs =>
    let r := drawSum k (draw rs)
    (top16 (draw rs) + r.1, r.2)

/-- What `gauss()` gives: the sample `g`, the raw sum `tot` and the random state after its draws. -/
structure Gauss where
  g : Int
  tot : Int
  rs : Word
deriving DecidableEq, Repr

/-- The primitive `gauss()` (R153). -/
def gauss (rs : Word) : Gauss :=
  let d := drawSum Config.NGAUSS rs
  { g := asr ((d.1 - 131072) * Config.K_GAUSS) 16, tot := d.1, rs := d.2 }

/-- `RNG.SEED` (R151). -/
def execRngSeed (a : Word) (s : State) : Result State :=
  .next ({ s with rs := a }.finish 0 0 (flByte {}))

/-- `RNG.NEXT` (R152). -/
def execRngNext (s : State) : Result State :=
  let r := draw s.rs
  .next ({ s with rs := r }.finish (uview r) (top16 r) (flByte {}))

/-- `RNG.GAUSS` (R154). -/
def execRngGauss (s : State) : Result State :=
  let d := gauss s.rs
  .next ({ s with rs := d.rs }.finish d.g d.tot (flByte {}))

/-- `RNG.WBND` (R155). -/
def execRngWbnd (a b : Word) (s : State) : Result State :=
  let lo := min (sview a) (sview b)
  let hi := max (sview a) (sview b)
  let x := clamp s.wx.toInt lo hi
  .next ({ s with wlo := u32 lo, whi := u32 hi, wx := u32 x }.finish x 0 (flByte {}))

/-- `RNG.WSET` (R156). -/
def execRngWset (a : Word) (s : State) : Result State :=
  let x := clamp (sview a) s.wlo.toInt s.whi.toInt
  .next ({ s with wx := u32 x }.finish x 0 (flByte {}))

/-- One reflection in the bound that `y` crosses, the upper one tested first, and then the clamp for a
step that one reflection does not bring back (R157). -/
def reflect (y lo hi : Int) : Int :=
  clamp (if y > hi then 2 * hi - y else if y < lo then 2 * lo - y else y) lo hi

/-- `RNG.WALK` (R157). -/
def execRngWalk (a : Word) (s : State) : Result State :=
  let d := gauss s.rs
  let x := reflect (s.wx.toInt + asr (d.g * sview a) 16) s.wlo.toInt s.whi.toInt
  .next ({ s with rs := d.rs, wx := u32 x }.finish x d.g (flByte {}))

end Sys2Proof.Machine
end

