-- ==== Sys2Proof/Machine/SampleHold.lean ====
section
/-! DEFINITION. Unit SNH: the sample-and-hold register (`46_sample_hold.md`). -/

namespace Sys2Proof.Machine

/-- `SNH.RST` (R240). -/
def execSnhRst (s : State) : Result State := .next ({ s with sh := 0 }.finish 0 0 (flByte {}))

/-- The hold register after a sample and whether the change is reported (R241): sample-and-hold captures
on a rising edge; track-and-hold follows while the gate is up and reports when it falls. -/
def snhNext (gf : GateFlags) (track : Bool) (a sh : Word) : Word × Bool :=
  if gfAbsent gf then (sh, false)
  else if !track then
    if gfRising gf then (a, true) else (sh, false)
  else
    (if gfHigh gf || gfRising gf then a else sh, gfFalling gf)

/-- `SNH.STEP` (R241). -/
def execSnhStep (gf : GateFlags) (track : Bool) (a : Word) (s : State) : Result State :=
  let r := snhNext gf track a s.sh
  .next ({ s with sh := r.1 }.finish (uview r.1) 0 (flByte { chg := r.2 }))

end Sys2Proof.Machine
end

