-- ==== Sys2Proof/Machine/System.lean ====
section
/-! DEFINITION. Unit SYS (`40_system.md`). -/

namespace Sys2Proof.Machine

/-- `SYS.NOP` (R121): clears the results, changes nothing else. -/
def execSysNop (s : State) : Result State := .next (s.finish 0 0 (flByte {}))

/-- `SYS.RST` (R122): every register to its reset value; the delay RAM is not written. -/
def execSysRst (s : State) : Result State := .next (s.resetRegisters.finish 0 0 (flByte {}))

/-- `SYS.RD` (R123): the register numbered `imm`, read before anything is written, its low word to `Y0`
and its high word to `Y1`. By the pseudocode and R26 a `QCW`, `QPB` or `QNB` below -2^32 gives a `Y1` below
0xFFFFFFFF, where a sentence of R123 says 0xFFFFFFFF for every negative one (log 19). -/
def execSysRd (imm : BitVec 16) (s : State) : Result State :=
  let v := s.readReg imm.toNat
  .next (s.finish (uview (v.extractLsb' 0 32)) (uview (v.extractLsb' 32 32)) (flByte {}))

end Sys2Proof.Machine
end

