-- ==== Sys2Proof/Machine/Turing.lean ====
section
/-! DEFINITION. Unit TM: the shift-register bank with probabilistic bit mutation (`43_turing.md`). -/

namespace Sys2Proof.Machine

/-- The value function `val(sr, bip)` (R170). -/
def tmVal (sr : BitVec 16) (bip : Bool) : Int :=
  let v : Int := sr.toNat + (sr.getLsbD 15).toNat
  if bip then 2 * v - Config.ONE else v

/-- The sequence length from the length operand, 1 to 16 (R172, R176). -/
def tmSteps (b : Word) : Int := clamp (1 + asr (unitParam b * 16) 16) Config.STEPS_MIN Config.STEPS_MAX

/-- The rescaled probability `p'` (R172, R176). -/
def tmProb (a : Word) : Int :=
  unitParam a + asr (unitParam a) Config.TM_PSLOPE - Config.TM_POFF

/-- The Bernoulli draw: whether the bit is flipped (R172). -/
def tmFlip (a r : Word) : Bool := decide (top16 r < tmProb a)

/-- The register after an advance: shifted by one toward bit 0, the looped-back bit `16 - steps` XOR
`flip` injected at bit 15 (R172). -/
def tmShift (sr : BitVec 16) (steps : Int) (flip : Bool) : BitVec 16 :=
  let back := sr.getLsbD (16 - steps).toNat
  BitVec.cons (back ^^ flip) (sr.extractLsb' 1 15)

/-- `TM.LOAD` (R171). -/
def execTmLoad (bip : Bool) (imm sr : BitVec 16) (s : State) : Result State :=
  let i := slotIndex imm
  let v := tmVal sr bip
  .next ((s.setSlot i { s.slot i with sr := sr, v := u32 v }).finish v sr.toNat (flByte {}))

/-- `TM.ADV` (R172). -/
def execTmAdv (bip : Bool) (imm : BitVec 16) (a b : Word) (s : State) : Result State :=
  let i := slotIndex imm
  let r := draw s.rs
  let sr := (s.slot i).sr
  let sr2 := tmShift sr (tmSteps b) (tmFlip a r)
  let v := tmVal sr2 bip
  let s' := { s with rs := r }.setSlot i { sr := sr2, v := u32 v, n := BitVec.ofInt 5 (tmSteps b) }
  .next (s'.finish v sr2.toNat (flByte { chg := decide (sr2 ≠ sr) }))

/-- `TM.GET` (R173). -/
def execTmGet (imm : BitVec 16) (s : State) : Result State :=
  let x := s.slot (slotIndex imm)
  .next (s.finish x.v.toInt x.sr.toNat (flByte {}))

end Sys2Proof.Machine
end

