-- ==== Sys2Proof/Machine/Dispatch.lean ====
section
/-! DEFINITION. One arm per command of the opcode table, each one call of its meaning. -/

namespace Sys2Proof.Machine

def exec (i : Instr) (s : State) : Host.Outcome State Fault Refusal :=
  match i with
  | .sysNop => Sys2Proof.Machine.execSysNop s
  | .sysRst => Sys2Proof.Machine.execSysRst s
  | .sysRd imm => Sys2Proof.Machine.execSysRd imm s
  | .qntCfg imm => Sys2Proof.Machine.execQntCfg imm s
  | .qntProc a b => Sys2Proof.Machine.execQntProc a b s
  | .rngSeed a => Sys2Proof.Machine.execRngSeed a s
  | .rngNext => Sys2Proof.Machine.execRngNext s
  | .rngGauss => Sys2Proof.Machine.execRngGauss s
  | .rngWbnd a b => Sys2Proof.Machine.execRngWbnd a b s
  | .rngWset a => Sys2Proof.Machine.execRngWset a s
  | .rngWalk a => Sys2Proof.Machine.execRngWalk a s
  | .tmLoad bip imm sr => Sys2Proof.Machine.execTmLoad bip imm sr s
  | .tmAdv bip imm a b => Sys2Proof.Machine.execTmAdv bip imm a b s
  | .tmGet imm => Sys2Proof.Machine.execTmGet imm s
  | .phaRst => Sys2Proof.Machine.execPhaRst s
  | .phaStep gf loop retrig hold a => Sys2Proof.Machine.execPhaStep gf loop retrig hold a s
  | .phaRate range a => Sys2Proof.Machine.execPhaRate range a s
  | .phaSet a => Sys2Proof.Machine.execPhaSet a s
  | .phaGet => Sys2Proof.Machine.execPhaGet s
  | .rxRst => Sys2Proof.Machine.execRxRst s
  | .rxStep gf a => Sys2Proof.Machine.execRxStep gf a s
  | .oscSin bip a => Sys2Proof.Machine.execOscSin bip a s
  | .oscSaw bip a => Sys2Proof.Machine.execOscSaw bip a s
  | .oscTri bip a => Sys2Proof.Machine.execOscTri bip a s
  | .snhRst => Sys2Proof.Machine.execSnhRst s
  | .snhStep gf track a => Sys2Proof.Machine.execSnhStep gf track a s
  | .dlyRst => Sys2Proof.Machine.execDlyRst s
  | .dlyStep imm a => Sys2Proof.Machine.execDlyStep imm a s
  | .dlyRd imm => Sys2Proof.Machine.execDlyRd imm s

end Sys2Proof.Machine
end

