-- ==== Sys2Proof/Machine/Step.lean ====
section
/-! DEFINITION. One step: the command at the port, decoded and executed. QSP fetches nothing
(`10_state.md` R24); its commands come to it one at a time, in the order the host issues them. -/

namespace Sys2Proof.Machine

/-- One command is one step (`00_scope.md` R10). The step takes the next command from the port and
executes it. With none there the block waits and nothing changes (`60_exceptions.md` R284,
`70_reset_and_hazards.md` R303; log 1). -/
def step (s : State) : Host.Outcome State Fault Refusal :=
  match s.port with
  | [] => .next s
  | c :: rest => exec (decode c) { s with port := rest }

/-- `s` with the command whose table bits are the lowest `nbits` bits of `w` next at the port. -/
def State.withFetchWord (s : State) (nbits w : Nat) : State :=
  { s with port := Command.ofTableBits nbits w :: s.port }

end Sys2Proof.Machine
end

