-- ==== Sys2Proof/Machine/Assembler.lean ====
section
/-! DEFINITION. The assembler line of `30_encoding.md` R104 and the pseudo-instructions of R105, from a
line already split into its parts to the words it stands for. It is the spec's notation for commands;
no step uses it. -/

namespace Sys2Proof.Machine

/-- The suffixes of a mnemonic (R104). -/
inductive Suffix where
  /-- `.B` -/
  | b
  /-- `.L` -/
  | l
  /-- `.R` -/
  | r
  /-- `.H` -/
  | h
  /-- `.T` -/
  | t
  /-- `.SLOW`, `.DEF`, `.FAST`, `.AUD` -/
  | range (sel : RangeSel)
deriving DecidableEq, Repr

/-- A line `MNEMONIC[.SUFFIX]... [gf=NAME] [#imm] [A=value] [B=value]`; anything omitted is zero. An
operand value is an integer, stored in two's complement (R104). -/
structure AsmLine where
  mnemonic : String
  suffixes : List Suffix := []
  gf : GateFlags := 0
  imm : BitVec 16 := 0
  a : Int := 0
  b : Int := 0
deriving DecidableEq, Repr

/-- The names of gate values (R104). -/
def gfNames : List (String × GateFlags) :=
  [("LOW", 0x0), ("HIGH", 0x1), ("RISE", 0x3), ("FALL", 0x4), ("ABSENT", 0x8)]

/-- The mnemonics of R98 with bits 31:24 of their words. -/
def mnemonics : List (String × BitVec 8) :=
  [("SYS.NOP", 0x00), ("SYS.RST", 0x01), ("SYS.RD", 0x02), ("QNT.CFG", 0x10), ("QNT.PROC", 0x11)] ++
  [("RNG.SEED", 0x20), ("RNG.NEXT", 0x21), ("RNG.GAUSS", 0x22), ("RNG.WBND", 0x23), ("RNG.WSET", 0x24)] ++
  [("RNG.WALK", 0x25), ("TM.LOAD", 0x30), ("TM.ADV", 0x31), ("TM.GET", 0x32), ("PHA.RST", 0x40)] ++
  [("PHA.STEP", 0x41), ("PHA.RATE", 0x42), ("PHA.SET", 0x43), ("PHA.GET", 0x44), ("RX.RST", 0x50)] ++
  [("RX.STEP", 0x51), ("OSC.SIN", 0x60), ("OSC.SAW", 0x61), ("OSC.TRI", 0x62), ("SNH.RST", 0x70)] ++
  [("SNH.STEP", 0x71), ("DLY.RST", 0x80), ("DLY.STEP", 0x81), ("DLY.RD", 0x82)]

/-- The `mod` bits a suffix sets on the command with bits 31:24 `op`; none where R104 does not allow the
suffix on that command. -/
def suffixBits (op : BitVec 8) (x : Suffix) : Option (BitVec 4) :=
  match x with
  | .b => if op = 0x30 ∨ op = 0x31 ∨ op = 0x60 ∨ op = 0x61 ∨ op = 0x62 then some 1 else none
  | .l => if op = 0x41 then some 1 else none
  | .r => if op = 0x41 then some 2 else none
  | .h => if op = 0x41 then some 4 else none
  | .t => if op = 0x71 then some 1 else none
  | .range sel => if op = 0x42 then some ((0 : BitVec 2) ++ sel.toBits) else none

/-- The `mod` field that the suffixes set together. DESIGN CHOICE (log 17), R104 being silent: a suffix
written twice sets its bit once. -/
def suffixField (op : BitVec 8) : List Suffix → Option (BitVec 4)
  | [] => some 0
  | x :: xs => do
    let m ← suffixBits op x
    let rest ← suffixField op xs
    pure (m ||| rest)

/-- The number of range suffixes on a line; `PHA.RATE` is always written with exactly one (R104). -/
def rangeCount (xs : List Suffix) : Nat :=
  xs.countP (fun x => match x with | .range _ => true | _ => false)

/-- A pseudo-instruction's expansion; any other line is its own (R105). DESIGN CHOICE (log 17): R105 does
not say what a pseudo-instruction line gives that carries other parts than the ones R105 writes with it
(suffixes, `A=`, `B=`, `gf=` or `#imm`); here those parts are dropped and the line assembles. Unsafe for a
claim that such a line is rejected. -/
def AsmLine.expand (x : AsmLine) : AsmLine :=
  if x.mnemonic = "NOP" then { mnemonic := "SYS.NOP" }
  else if x.mnemonic = "QNT.OFF" then { mnemonic := "QNT.CFG" }
  else if x.mnemonic = "TM.CLR" then { mnemonic := "TM.LOAD", imm := x.imm }
  else if x.mnemonic = "PHA.HOLD" then { mnemonic := "PHA.STEP", suffixes := [.h], gf := x.gf }
  else x

/-- The words of a line; none where the line is none of R104's. DESIGN CHOICE (log 17): an operand integer
outside the 32-bit range, on which R104 is silent, is taken modulo 2^32; and a part that writes a field its
command ignores, which R104 takes and R101 says an assembler leaves zero, is put into the words as written
(no command's effect depends on it). -/
def AsmLine.assemble (line : AsmLine) : Option Command := do
  let x := line.expand
  let op ← mnemonics.lookup x.mnemonic
  let m ← suffixField op x.suffixes
  if op = 0x42 ∧ rangeCount x.suffixes ≠ 1 then none
  else pure ⟨cmdWord op x.gf m x.imm, u32 x.a, u32 x.b⟩

end Sys2Proof.Machine
end

