-- ==== Sys2Proof/WellFormed.lean ====
section
/-! DEFINITION. The host's obligations on one command (`70_reset_and_hazards.md` R309): canonical gate
values and parameter operands in their stated ranges. The block enforces none of them and every rule is
defined without them; they are premises for statements that want them. That the command is listed and
its ignored fields are zero is said of words, in `Decode.lean`. -/

namespace Sys2Proof

/-- The five canonical gate values LOW, HIGH, RISE, FALL, ABSENT (`30_encoding.md` R94). -/
def GateFlags.canonical (gf : GateFlags) : Bool :=
  gf == 0x0 || gf == 0x1 || gf == 0x3 || gf == 0x4 || gf == 0x8

/-- A parameter in Q16.16 lies in [0, 1.0] (`60_exceptions.md` R271). -/
def Word.inUnit (w : Word) : Bool :=
  decide (0 ≤ w.toInt ∧ w.toInt ≤ Config.ONE)

/-- The command meets the host's obligations of R309. -/
def Instr.wellFormed : Instr → Bool
  | .sysNop => true
  | .sysRst => true
  | .sysRd _ => true
  | .qntCfg _ => true
  | .qntProc _ _ => true
  | .rngSeed _ => true
  | .rngNext => true
  | .rngGauss => true
  | .rngWbnd _ _ => true
  | .rngWset _ => true
  | .rngWalk _ => true
  | .tmLoad _ _ _ => true
  | .tmAdv _ _ a b => Word.inUnit a && Word.inUnit b
  | .tmGet _ => true
  | .phaRst => true
  | .phaStep gf _ _ _ _ => GateFlags.canonical gf
  | .phaRate _ a => Word.inUnit a
  | .phaSet a => Word.inUnit a
  | .phaGet => true
  | .rxRst => true
  | .rxStep gf _ => GateFlags.canonical gf
  | .oscSin _ _ => true
  | .oscSaw _ _ => true
  | .oscTri _ _ => true
  | .snhRst => true
  | .snhStep gf _ _ => GateFlags.canonical gf
  | .dlyRst => true
  | .dlyStep _ _ => true
  | .dlyRd _ => true

end Sys2Proof
end

