-- ==== Sys2Proof/Safety.lean ====
section
/-! DEFINITION. The terms the statements use: runs of commands, the premises the spec names on the open
parameters, the invariant of the machine, and what a command owns, draws and flags. -/

namespace Sys2Proof.Machine

/-! ## Runs -/

/-- Execute commands one after the other, as the host issues them (`20_memory.md` R75). -/
def execAll : List Instr → State → Host.Outcome State Fault Refusal
  | [], s => .next s
  | i :: is, s =>
    match exec i s with
    | .next t => execAll is t
    | .fault r => .fault r
    | .refused r => .refused r

/-! ## Premises on the open parameters -/

/-- Scale `sc` is one of the record's and well-formed (`20_memory.md` R65): `span > 0`, `1 ≤ n ≤ 16`,
the notes rise strictly from 0 or more and stay below `span`. -/
structure ScaleWellFormed (rom : Config.Roms) (sc : Nat) : Prop where
  index : 1 ≤ sc ∧ sc ≤ rom.nscale.toNat
  span : 0 < scaleSpan rom sc
  count : 1 ≤ scaleCount rom sc
  first : 0 ≤ scaleNote rom sc 0
  rising : ∀ j, j + 1 < scaleCount rom sc → scaleNote rom sc j < scaleNote rom sc (j + 1)
  last : scaleNote rom sc (scaleCount rom sc - 1) < scaleSpan rom sc

/-- `RATE_ROM` never rises with the index (`20_memory.md` R64). -/
def RateFalling (rom : Config.Roms) : Prop := ∀ i, i < Config.NRATE → rateRom rom (i + 1) ≤ rateRom rom i

/-- `RATE_ROM` never falls with the index (`20_memory.md` R64). -/
def RateRising (rom : Config.Roms) : Prop := ∀ i, i < Config.NRATE → rateRom rom i ≤ rateRom rom (i + 1)

/-! ## The invariant -/

/-- The cell registers hold the cell of a member of the bound scale's codebook (`41_quantizer.md` R132). -/
def State.CellOf (s : State) (rom : Config.Roms) : Prop :=
  ∃ k : Int,
    s.qcw.toInt = codebook rom s.qscl.toNat k ∧
    s.qpb.toInt = cellBoundary (codebook rom s.qscl.toNat (k - 1)) (codebook rom s.qscl.toNat k) ∧
    s.qnb.toInt = cellBoundary (codebook rom s.qscl.toNat (k + 1)) (codebook rom s.qscl.toNat k) ∧
    (s.qix.toNat : Int) = fmod k (scaleCount rom s.qscl.toNat)

/-- The fill state of the delay line (`47_delay.md` R250): the fill count is at most `DLEN`, the buffer
fills from index 0, and the `DFC` words behind `DWP` have been written. -/
structure State.DelayFilled (s : State) : Prop where
  count : s.dfc.toNat ≤ 1024
  filling : s.dfc.toNat < 1024 → s.dwp.toNat = s.dfc.toNat
  written : ∀ j, j < s.dfc.toNat → (Memory.read? s.ram (dlyIndex ((s.dwp.toNat : Int) - 1 - j))).isSome = true

/-- The legal values of the registers (`10_state.md` R25, R27 to R34) and the relations between them that
the spec states. -/
structure State.Inv (s : State) : Prop where
  /-- The delay RAM is in its canonical form. -/
  ram : Memory.wf s.ram = true
  /-- Bits 7:5 of `FL` are 0 (R25). -/
  flags : s.fl.toNat < 32
  /-- `WLO ≤ WX ≤ WHI` (R28). -/
  walk : s.wlo.toInt ≤ s.wx.toInt ∧ s.wx.toInt ≤ s.whi.toInt
  /-- `TMV` is the value of `TMSR`, unipolar or bipolar, and `TMN` is at most 16 (R29). -/
  turing : ∀ i, ((s.slot i).v.toInt = tmVal (s.slot i).sr false ∨ (s.slot i).v.toInt = tmVal (s.slot i).sr true) ∧
    (s.slot i).n.toNat ≤ 16
  /-- `PH` is at most 2^32 (R30). -/
  phase : s.ph.toNat ≤ 2 ^ 32
  /-- `RXP` is at most 2^32 (R31; `44_phase_ramp.md` R203). -/
  ramp : s.rxp.toNat ≤ 2 ^ 32
  /-- `QSCL` is at most `NSCALE` (R27). -/
  scale : s.qscl.toNat ≤ Config.roms.nscale.toNat
  /-- `QEN` says whether the bound scale is usable (R27). -/
  enabled : s.qen = scaleUsable Config.roms s.qscl.toNat
  /-- While `QV` = 1 the quantizer is enabled and the cell registers hold a searched codeword (R27). -/
  cell : s.qv = true → s.qen = true ∧ s.CellOf Config.roms
  /-- The fill state of the delay line (R34). -/
  delay : s.DelayFilled

/-! ## What a command owns, draws and flags -/

/-- The nine units (`00_scope.md` R2). -/
inductive UnitId where
  | sys | qnt | rng | tm | pha | rx | osc | snh | dly
deriving DecidableEq, Repr

/-- The unit a command belongs to (R2, `30_encoding.md` R98). -/
def unitOf : Instr → UnitId
  | .sysNop | .sysRst | .sysRd _ => .sys
  | .qntCfg _ | .qntProc _ _ => .qnt
  | .rngSeed _ | .rngNext | .rngGauss | .rngWbnd _ _ | .rngWset _ | .rngWalk _ => .rng
  | .tmLoad _ _ _ | .tmAdv _ _ _ _ | .tmGet _ => .tm
  | .phaRst | .phaStep _ _ _ _ _ | .phaRate _ _ | .phaSet _ | .phaGet => .pha
  | .rxRst | .rxStep _ _ => .rx
  | .oscSin _ _ | .oscSaw _ _ | .oscTri _ _ => .osc
  | .snhRst | .snhStep _ _ _ => .snh
  | .dlyRst | .dlyStep _ _ | .dlyRd _ => .dly

/-- Draws a command consumes (`42_random.md` R158). -/
def drawCount : Instr → Nat
  | .rngNext => 1
  | .rngGauss => 4
  | .rngWalk _ => 4
  | .tmAdv _ _ _ _ => 1
  | _ => 0

/-- Commands that can write 1 to `CHG` (`10_state.md` R25). -/
def setsChg : Instr → Bool
  | .qntProc _ _ | .tmAdv _ _ _ _ | .phaStep _ _ _ _ _ | .rxStep _ _ | .snhStep _ _ _ => true
  | _ => false

/-- Commands that can write 1 to `DONE` (R25). -/
def setsDone : Instr → Bool
  | .phaStep _ _ _ _ _ | .phaSet _ | .phaGet | .rxStep _ _ => true
  | _ => false

/-- Commands that can write 1 to `WRAP` (R25). -/
def setsWrap : Instr → Bool
  | .phaStep _ _ _ _ _ | .rxStep _ _ => true
  | _ => false

/-- Commands that can write 1 to the flag `QEN` (R25). -/
def setsQen : Instr → Bool
  | .qntCfg _ | .qntProc _ _ => true
  | _ => false

/-- Commands that can write 1 to `DFULL` (R25). -/
def setsDfull : Instr → Bool
  | .dlyStep _ _ | .dlyRd _ => true
  | _ => false

/-- The pair (`unit`, `op`) is reserved (`30_encoding.md` R100). -/
def reservedPair (unit op : Nat) : Bool :=
  decide (9 ≤ unit) ||
  (decide (unit = 0) && decide (3 ≤ op)) || (decide (unit = 1) && decide (2 ≤ op)) ||
  (decide (unit = 2) && decide (6 ≤ op)) || (decide (unit = 3) && decide (3 ≤ op)) ||
  (decide (unit = 4) && decide (5 ≤ op)) || (decide (unit = 5) && decide (2 ≤ op)) ||
  (decide (unit = 6) && decide (3 ≤ op)) || (decide (unit = 7) && decide (2 ≤ op)) ||
  (decide (unit = 8) && decide (3 ≤ op))

end Sys2Proof.Machine
end

