-- ==== Sys2Proof/Certificates/Slice0/Obligations.lean ====
section
/-! DEFINITION. The statements for the provers, from the numbered rules of `spec/`. Each says in its own
arithmetic what the rule says; `OBLIGATIONS.json` names the rule. In the statements about one command
the first clause says which words are the command: every word `opcode byte ++ x` with any operands. -/

section

open Sys2Proof Sys2Proof.Machine

/-- Words written out in the spec decode to the commands they stand for (30_encoding.md R98, 30_encoding.md
R104, 30_encoding.md R105).

The example word of R104 (0x41330000 with A = 0x01000000), one word of each unit from the examples of files
40 to 47, and the words of the four pseudo-instructions of R105, decode to their commands; the assembler
line of R104 and the pseudo-instructions TM.CLR and PHA.HOLD assemble to their words for every slot and gate
value. -/
def Obligations.SpecWordsDecodeToTheirCommands : Prop :=
  decode ⟨0x41330000, 0x01000000, 0⟩ = .phaStep 0x3 true true false 0x01000000 ∧
  decode ⟨0x02000023, 0, 0⟩ = .sysRd 0x0023 ∧
  decode ⟨0x10000001, 0, 0⟩ = .qntCfg 1 ∧
  decode ⟨0x11000000, 0x00006666, 0⟩ = .qntProc 0x00006666 0 ∧
  decode ⟨0x21000000, 0, 0⟩ = .rngNext ∧
  decode ⟨0x30000028, 0x12341234, 0⟩ = .tmLoad false 40 0x1234 ∧
  decode ⟨0x31000001, 0x00008000, 0x00010000⟩ = .tmAdv false 1 0x00008000 0x00010000 ∧
  decode ⟨0x42020000, 0x00008000, 0⟩ = .phaRate .fast 0x00008000 ∧
  decode ⟨0x51800000, 0x60000000, 0⟩ = .rxStep 0x8 0x60000000 ∧
  decode ⟨0x60010000, 0x01000000, 0⟩ = .oscSin true 0x01000000 ∧
  decode ⟨0x71300000, 0x222, 0⟩ = .snhStep 0x3 false 0x222 ∧
  decode ⟨0x81000001, 0xA1, 0⟩ = .dlyStep 1 0xA1 ∧
  decode ⟨0x00000000, 0, 0⟩ = .nop ∧
  decode ⟨0x10000000, 0, 0⟩ = .qntOff ∧
  (∀ s : BitVec 16, decode ⟨0x30000000 + s.setWidth 32, 0, 0⟩ = .tmClr s) ∧
  (∀ g : GateFlags, decode ⟨0x41040000 + (g.setWidth 32 <<< 20), 0, 0⟩ = .phaHold g) ∧
  AsmLine.assemble { mnemonic := "PHA.STEP", suffixes := [.l, .r], gf := 0x3, a := 0x01000000 } =
    some ⟨0x41330000, 0x01000000, 0⟩ ∧
  (∀ s : BitVec 16, AsmLine.assemble { mnemonic := "TM.CLR", imm := s } = some ⟨0x30000000 + s.setWidth 32, 0, 0⟩) ∧
  (∀ g : GateFlags, AsmLine.assemble { mnemonic := "PHA.HOLD", gf := g } =
    some ⟨0x41040000 + (g.setWidth 32 <<< 20), 0, 0⟩)

/-- Reserved words: which pairs they are, 227 of 256, and that they execute as SYS.NOP (R100).

A command word whose (unit, op) pair is reserved by R100 decodes to SYS.NOP, is rejected by name by the
decoder of listed commands, and executing it changes nothing but writes Y0, Y1 and FL to 0; every other word
is one of the 29 commands; exactly 227 of the 256 pairs are reserved. -/
def Obligations.ReservedWordsExecuteAsNop : Prop :=
  (∀ (c : Command) (s : State), reservedPair (c.cmd.toNat / 2 ^ 28) (c.cmd.toNat / 2 ^ 24 % 16) = true →
    decode c = .sysNop ∧
    decodeListed c = .error (if c.cmd.toNat / 2 ^ 28 ≤ 8 then .reservedOp (c.cmd.extractLsb' 28 4) (c.cmd.extractLsb' 24 4)
      else .reservedUnit (c.cmd.extractLsb' 28 4)) ∧
    exec (decode c) s = .next { s with y0 := 0, y1 := 0, fl := 0 }) ∧
  (∀ c : Command, reservedPair (c.cmd.toNat / 2 ^ 28) (c.cmd.toNat / 2 ^ 24 % 16) = false →
    decodeListed c = .ok (decode c)) ∧
  ((List.range 256).countP fun x => reservedPair (x / 16) (x % 16)) = 227

/-- Decode and encode agree on every command (30_encoding.md R91, 30_encoding.md R97, 30_encoding.md R98,
30_encoding.md R99).

For every one of the 29 commands with every value of every field and operand it uses, its encoded words
decode, as a listed command, to that command, and every field the command ignores is zero in them. -/
def Obligations.DecodingAnEncodedCommandGivesItBack : Prop :=
  ∀ i : Instr, decodeListed (encode i) = .ok i ∧ decode (encode i) = i ∧ (encode i).ignoredZero = true

/-- Encoding what a listed word decodes to gives the word with its ignored fields written zero (30_encoding.md
R98, 30_encoding.md R99, 30_encoding.md R101).

For every listed word with any operands, encoding the command it decodes to gives back exactly the opcode
byte and the fields and operand bits that R97 and R98 list as used, with zero everywhere else. -/
def Obligations.EncodingADecodedWordKeepsItsUsedBits : Prop :=
  ∀ c m : Command, usedBits c.opcode = some m → encode (decode c) = c.masked m

/-- A field that a command ignores has no effect, bits A[31:16] of TM.LOAD included (R101).

Two listed commands with the same opcode byte that agree on the bits the command uses (the fields of the R98
list) decode to the same command, and no encoding is illegal: every word executes to a next state. For
TM.LOAD in particular two values of A that agree on bits 15:0 decode alike, and an assembler line that names
only its fields writes zero elsewhere (encode). -/
def Obligations.IgnoredBitsHaveNoEffect : Prop :=
  (∀ c c' m : Command, c.opcode = c'.opcode → usedBits c.opcode = some m → c.masked m = c'.masked m →
    decode c = decode c') ∧
  (∀ (w a a' b b' : Word), a.extractLsb' 0 16 = a'.extractLsb' 0 16 → w.extractLsb' 24 8 = 0x30 →
    decode ⟨w, a, b⟩ = decode ⟨w, a', b'⟩) ∧
  (∀ i : Instr, (encode i).ignoredZero = true) ∧
  (∀ (c : Command) (s : State), ∃ t, exec (decode c) s = .next t)

/-- A step takes the next command from the port, decodes it and executes it; k steps execute k commands in order
(00_scope.md R10, 10_state.md R20, 20_memory.md R75).

With a command at the head of the port, step is exec of the decoded command at the state without it, so with
an encoded command i it is exec i; k steps of the machine, the port holding k encoded commands and then any
others, are those k commands executed in order, the others left at the port; with no command at the port the
block waits and the state stays as it is (the model's choice, log 1); withFetchWord puts the table's bits at
the head of the port; no command changes the port. -/
def Obligations.StepRunsTheCommandAtThePort : Prop :=
  (∀ (s : State) (c : Command) (rest : List Command), s.port = c :: rest →
    step s = exec (decode c) { s with port := rest }) ∧
  (∀ (s : State) (i : Instr) (rest : List Command),
    step { s with port := encode i :: rest } = exec i { s with port := rest }) ∧
  (∀ (is : List Instr) (s : State) (rest : List Command),
    Host.Core.run Sys2Proof.core is.length { s with port := is.map encode ++ rest } =
      execAll is { s with port := rest }) ∧
  (∀ s : State, s.port = [] → step s = .next s) ∧
  (∀ (s : State) (nbits w : Nat),
    some (step (s.withFetchWord nbits w)) = (decodeTableWord nbits w).map (fun i => exec i s)) ∧
  (∀ (i : Instr) (s : State), ∃ t, exec i s = .next t ∧ t.port = s.port)

/-- QSP raises no exception: every command in every state gives a next state (R270).

For every state and every command word with every A and B the step answers a next state, never a fault and
never a refusal, and so does every run of commands. -/
def Obligations.EveryStepAnswersANextState : Prop :=
  (∀ (s : State) (c : Command), ∃ t, step { s with port := [c] } = .next t) ∧
  (∀ s : State, ∃ t, step s = .next t) ∧
  (∀ (i : Instr) (s : State), ∃ t, exec i s = .next t) ∧
  (∀ (is : List Instr) (s : State), ∃ t, execAll is s = .next t)

/-- FL: every bit is written by every command, only by the commands listed for it, and is never read (R25).

After every command, bits 7:5 of FL are 0 and each of CHG, DONE, WRAP, QEN, DFULL is 1 only where R25 lists
the command for it; DONE is 1 only if the unit's phase register is 2^32 after the command, QEN only if the
quantizer is enabled, DFULL only if the delay line holds 1024 samples; a command's whole effect does not
depend on the old FL unless it is a SYS.RD of FL; FL is 0 at reset. -/
def Obligations.FlagBitsComeFromTheirCommandsOnly : Prop :=
  (∀ (i : Instr) (s : State), ∃ t, exec i s = .next t ∧
    t.fl.extractLsb' 5 3 = 0 ∧
    (t.fl.getLsbD 0 = true → setsChg i = true) ∧
    (t.fl.getLsbD 1 = true → setsDone i = true ∧
      (unitOf i = .pha → t.ph.toNat = 2 ^ 32) ∧ (unitOf i = .rx → t.rxp.toNat = 2 ^ 32)) ∧
    (t.fl.getLsbD 2 = true → setsWrap i = true) ∧
    (t.fl.getLsbD 3 = true → setsQen i = true ∧ t.qen = true) ∧
    (t.fl.getLsbD 4 = true → setsDfull i = true ∧ t.dfc.toNat = 1024)) ∧
  (∀ (i : Instr) (s : State) (x : BitVec 8), i ≠ .sysRd 0x0003 → exec i { s with fl := x } = exec i s) ∧
  State.reset.fl = 0

/-- No command but SYS.RD depends on the result registers (10_state.md R23, 10_state.md R25, 40_system.md R120).

Whatever Y0, Y1 and FL hold, a command other than SYS.RD gives the same next state: operands never come from
the result registers, and no result or flag survives from one command to the next. -/
def Obligations.ResultRegistersAreNeverOperands : Prop :=
  ∀ (i : Instr) (s : State) (u v : Word) (x : BitVec 8), (∀ n, i ≠ .sysRd n) →
    exec i { s with y0 := u, y1 := v, fl := x } = exec i s

/-- No command of one unit writes state of another unit, with the three exceptions of R2 (R2).

Each command belongs to the unit whose number stands in its command word. A command other than SYS.RST
leaves unchanged every register of every other unit (and the delay RAM unless it is of unit DLY); the random
state RS changes only for commands of RNG and for TM.ADV. -/
def Obligations.UnitsKeepToTheirOwnState : Prop :=
  (∀ i : Instr, (encode i).cmd.toNat / 2 ^ 28 =
    match unitOf i with
    | .sys => 0 | .qnt => 1 | .rng => 2 | .tm => 3 | .pha => 4 | .rx => 5 | .osc => 6 | .snh => 7 | .dly => 8) ∧
  (∀ (i : Instr) (s : State), i ≠ .sysRst → ∃ t, exec i s = .next t ∧
    (unitOf i ≠ .qnt → t.qen = s.qen ∧ t.qv = s.qv ∧ t.qscl = s.qscl ∧ t.qcw = s.qcw ∧ t.qpb = s.qpb ∧
      t.qnb = s.qnb ∧ t.qix = s.qix) ∧
    (unitOf i ≠ .rng → t.wx = s.wx ∧ t.wlo = s.wlo ∧ t.whi = s.whi) ∧
    (unitOf i ≠ .rng → (∀ bip imm a b, i ≠ .tmAdv bip imm a b) → t.rs = s.rs) ∧
    (unitOf i ≠ .tm → t.tm = s.tm) ∧
    (unitOf i ≠ .pha → t.ph = s.ph) ∧
    (unitOf i ≠ .rx → t.rxp = s.rxp ∧ t.rxf = s.rxf ∧ t.rxc = s.rxc ∧ t.rxv = s.rxv) ∧
    (unitOf i ≠ .snh → t.sh = s.sh) ∧
    (unitOf i ≠ .dly → t.dwp = s.dwp ∧ t.dfc = s.dfc ∧ t.ram = s.ram))

/-- How many draws each command consumes, whatever its operands and the state are (R158).

After a command other than RNG.SEED and SYS.RST the random state is the one that drawCount draws (RNG.NEXT
1, RNG.GAUSS 4, RNG.WALK 4, TM.ADV 1, every other command 0) leave, each draw being RS * 1664525 +
1013904223 modulo 2^32; RNG.SEED and SYS.RST replace it without a draw. -/
def Obligations.DrawsDependOnTheCommandOnly : Prop :=
  (∀ (i : Instr) (s : State), i ≠ .sysRst → (∀ a, i ≠ .rngSeed a) → ∃ t, exec i s = .next t ∧
    t.rs = (fun r : Word => BitVec.ofNat 32 (r.toNat * 1664525 + 1013904223))^[drawCount i] s.rs) ∧
  (∀ s : State, ∃ t, exec .sysRst s = .next t ∧ t.rs = 0x00000021) ∧
  (∀ (a : Word) (s : State), ∃ t, exec (.rngSeed a) s = .next t ∧ t.rs = a) ∧
  (drawCount .rngNext = 1 ∧ drawCount .rngGauss = 4 ∧ (∀ a, drawCount (.rngWalk a) = 4) ∧
    (∀ bip imm a b, drawCount (.tmAdv bip imm a b) = 1)) ∧
  (∀ i : Instr, i ≠ .rngNext → i ≠ .rngGauss → (∀ a, i ≠ .rngWalk a) → (∀ bip imm a b, i ≠ .tmAdv bip imm a b) →
    drawCount i = 0)

/-- The delay RAM is written only by DLY.STEP and read only by DLY.STEP and DLY.RD (20_memory.md R66,
20_memory.md R74).

A command other than DLY.STEP leaves every word of the delay RAM as it was (SYS.RST and DLY.RST too), and a
command other than DLY.STEP and DLY.RD has the same effect whatever the RAM holds. -/
def Obligations.DelayRamIsReachedByDelayCommandsOnly : Prop :=
  (∀ (i : Instr) (s : State), (∀ imm a, i ≠ .dlyStep imm a) → ∃ t, exec i s = .next t ∧ t.ram = s.ram) ∧
  (∀ (i : Instr) (s : State) (m : Memory), (∀ imm a, i ≠ .dlyStep imm a) → (∀ imm, i ≠ .dlyRd imm) →
    ∃ t, exec i s = .next t ∧ exec i { s with ram := m } = .next { t with ram := m })

/-- SYS.NOP clears Y0, Y1 and FL and changes nothing else (R121).

Every word 0x00xxxxxx is SYS.NOP; it writes Y0, Y1 and FL to 0 and leaves every unit register, the delay RAM
and the port unchanged. -/
def Obligations.SysNopClearsTheResultsOnly : Prop :=
  (∀ (x : BitVec 24) (a b : Word), decode ⟨(0x00 : BitVec 8) ++ x, a, b⟩ = .sysNop) ∧
  ∀ s : State, exec .sysNop s = .next { s with y0 := 0, y1 := 0, fl := 0 }

/-- SYS.RST writes every register to its reset value and no word of the delay RAM (R122).

Every word 0x01xxxxxx is SYS.RST; after it every register holds the value that R36 lists, the results are 0,
and the delay RAM and the port are unchanged. -/
def Obligations.SysRstGivesEveryRegisterItsResetValue : Prop :=
  (∀ (x : BitVec 24) (a b : Word), decode ⟨(0x01 : BitVec 8) ++ x, a, b⟩ = .sysRst) ∧
  ∀ s : State, exec .sysRst s = .next
    { y0 := 0, y1 := 0, fl := 0
      qen := false, qv := false, qscl := 0, qcw := 0, qpb := 0, qnb := 0, qix := 0
      rs := 0x00000021, wx := 0, wlo := 0, whi := 0x00010000
      tm := Vector.replicate 36 { sr := 0, v := 0, n := 0 }
      ph := 0, rxp := 0, rxf := 0, rxc := 0, rxv := false, sh := 0, dwp := 0, dfc := 0
      ram := s.ram, port := s.port }

/-- Reset: every register's value in the state after the hardware reset (R301).

In the state after reset, and in the state that asserting the hardware reset leaves from any state, every
register holds the value that R22 and R27 to R34 give and R36 lists: results and flags zero, quantizer
disabled and holding no codeword, random state 0x21, walk at 0 with bounds 0 and 1.0, all 36 shift
registers, values and step-counts zero, both phase registers zero, no tap seen, hold register zero, delay
empty. -/
def Obligations.ResetLeavesEveryRegisterAtItsListedValue : Prop :=
  ∀ s t : State, (t = State.reset ∨ t = s.hardwareReset) →
    t.y0 = 0 ∧ t.y1 = 0 ∧ t.fl = 0 ∧
    t.qen = false ∧ t.qv = false ∧ t.qscl = 0 ∧ t.qcw = 0 ∧ t.qpb = 0 ∧ t.qnb = 0 ∧ t.qix = 0 ∧
    t.rs = 0x00000021 ∧ t.wx = 0 ∧ t.wlo = 0 ∧ t.whi = 0x00010000 ∧
    (∀ i : Fin 36, (t.slot i).sr = 0 ∧ (t.slot i).v = 0 ∧ (t.slot i).n = 0) ∧
    t.ph = 0 ∧ t.rxp = 0 ∧ t.rxf = 0 ∧ t.rxc = 0 ∧ t.rxv = false ∧ t.sh = 0 ∧ t.dwp = 0 ∧ t.dfc = 0

/-- SYS.RD returns the numbered register, extended to 64 bits, in Y0 and Y1 (40_system.md R123, 10_state.md
R26).

Every word 0x02xxxxxx is SYS.RD with its low 16 bits as register number. It puts bits 31:0 of the 64-bit
extension of the register's value before the command in Y0 and bits 63:32 in Y1, writes FL to 0 and changes
nothing else. The value is that of the register R22 and R27 to R34 give the number, sign-extended for QCW,
QPB, QNB, WX, WLO, WHI and TMV and zero-extended for the others, and 0 for every number without a register.
A negative QCW, QPB or QNB gives Y1 = 0xFFFFFFFF exactly if it is not below -2^32. (R123 has a sentence that
says so of every negative one; its pseudocode and R26 do not, and the model follows these, log 19.) -/
def Obligations.SysRdReturnsTheNumberedRegister : Prop :=
  (∀ (x : BitVec 24) (a b : Word), decode ⟨(0x02 : BitVec 8) ++ x, a, b⟩ = .sysRd (x.extractLsb' 0 16)) ∧
  ∀ (imm : BitVec 16) (s : State), ∃ v : BitVec 64,
    exec (.sysRd imm) s = .next { s with y0 := v.extractLsb' 0 32, y1 := v.extractLsb' 32 32, fl := 0 } ∧
    (imm = 0x0000 → v = 0x51535031) ∧
    (imm = 0x0001 → v.toNat = s.y0.toNat) ∧
    (imm = 0x0002 → v.toNat = s.y1.toNat) ∧
    (imm = 0x0003 → v.toNat = s.fl.toNat) ∧
    (imm = 0x0010 → v.toNat = s.qen.toNat) ∧
    (imm = 0x0011 → v.toNat = s.qv.toNat) ∧
    (imm = 0x0012 → v.toNat = s.qscl.toNat) ∧
    (imm = 0x0013 → v.toInt = s.qcw.toInt) ∧
    (imm = 0x0014 → v.toInt = s.qpb.toInt) ∧
    (imm = 0x0015 → v.toInt = s.qnb.toInt) ∧
    ((imm = 0x0013 ∨ imm = 0x0014 ∨ imm = 0x0015) → v.toInt < 0 →
      (v.extractLsb' 32 32 = 0xFFFFFFFF ↔ -4294967296 ≤ v.toInt)) ∧
    (imm = 0x0016 → v.toNat = s.qix.toNat) ∧
    (imm = 0x0020 → v.toNat = s.rs.toNat) ∧
    (imm = 0x0021 → v.toInt = s.wx.toInt) ∧
    (imm = 0x0022 → v.toInt = s.wlo.toInt) ∧
    (imm = 0x0023 → v.toInt = s.whi.toInt) ∧
    (imm = 0x0040 → v.toNat = s.ph.toNat) ∧
    (imm = 0x0050 → v.toNat = s.rxp.toNat) ∧
    (imm = 0x0051 → v.toNat = s.rxf.toNat) ∧
    (imm = 0x0052 → v.toNat = s.rxc.toNat) ∧
    (imm = 0x0053 → v.toNat = s.rxv.toNat) ∧
    (imm = 0x0070 → v.toNat = s.sh.toNat) ∧
    (imm = 0x0080 → v.toNat = s.dwp.toNat) ∧
    (imm = 0x0081 → v.toNat = s.dfc.toNat) ∧
    (∀ k : Fin 36, imm.toNat = 0x0300 + k → v.toNat = (s.slot k).sr.toNat) ∧
    (∀ k : Fin 36, imm.toNat = 0x0340 + k → v.toInt = (s.slot k).v.toInt) ∧
    (∀ k : Fin 36, imm.toNat = 0x0380 + k → v.toNat = (s.slot k).n.toNat) ∧
    (imm.toNat ∉ [0x0000, 0x0001, 0x0002, 0x0003, 0x0010, 0x0011, 0x0012, 0x0013, 0x0014, 0x0015, 0x0016, 0x0020,
        0x0021, 0x0022, 0x0023, 0x0040, 0x0050, 0x0051, 0x0052, 0x0053, 0x0070, 0x0080, 0x0081] →
      ¬ (0x0300 ≤ imm.toNat ∧ imm.toNat ≤ 0x0323) → ¬ (0x0340 ≤ imm.toNat ∧ imm.toNat ≤ 0x0363) →
      ¬ (0x0380 ≤ imm.toNat ∧ imm.toNat ≤ 0x03A3) → v = 0)

/-- QNT.CFG binds scale min(imm, NSCALE), enables it if usable and clears the cell (R131).

Every word 0x10xxxxxx is QNT.CFG. It binds scale min(imm, NSCALE); QEN, Y0 and FL.QEN are 1 exactly if the
index is not 0 and the record has n at least 1 (read as at most 16) and span above 0; QV, QCW, QPB, QNB and
QIX become 0, Y1 becomes 0 and nothing else changes. -/
def Obligations.QntCfgBindsTheClampedScale : Prop :=
  (∀ (x : BitVec 24) (a b : Word), decode ⟨(0x10 : BitVec 8) ++ x, a, b⟩ = .qntCfg (x.extractLsb' 0 16)) ∧
  ∀ (imm : BitVec 16) (s : State),
    let sc : Nat := min imm.toNat Config.nscale.toNat
    let span : Int := (Config.scaleRom (18 * (sc - 1))).toInt
    let n : Nat := min (Config.scaleRom (18 * (sc - 1) + 1)).toNat 16
    let en : Bool := decide (sc ≠ 0 ∧ n ≥ 1 ∧ span > 0)
    exec (.qntCfg imm) s = .next { s with
      qscl := BitVec.ofNat 16 sc, qen := en, qv := false, qcw := 0, qpb := 0, qnb := 0, qix := 0
      y0 := if en then 1 else 0, y1 := 0, fl := if en then 0x08 else 0x00 }

/-- QNT.PROC passes through, keeps its cell, or searches; without a usable scale of the ROM the model's choice
(log 10) (41_quantizer.md R132).

Every word 0x11xxxxxx is QNT.PROC. With QEN = 0 it copies A to Y0 and changes no state. Else with p = sA -
sB: inside the held cell, both boundaries included, it keeps the cell; otherwise it takes the first of the
nearest among the n + 2 candidates, stores codeword, boundaries (9/16 of the way to each neighbour), note
index and QV = 1, and sets CHG if no codeword or a different one was held. Y0 is QCW + sB saturated, Y1 is
QIX, FL.QEN is 1. This is R132 wherever the bound scale is a usable record of SCALE_ROM. Where QEN = 1 and
it is not (n = 0, span at most 0, QSCL = 0 or QSCL above NSCALE), a state that no command leaves, the search
clause states the model's choice and not the rule: the same pseudocode with Lean's division (a quotient by 0
is 0, a remainder by 0 the dividend), QSCL = 0 reading the words of record 1, QSCL above NSCALE the words
the open table's function gives past the last record, and the registers cut to their widths (DESIGN CHOICE,
log 10). -/
def Obligations.QntProcPassesKeepsOrSearches : Prop :=
  (∀ (x : BitVec 24) (a b : Word), decode ⟨(0x11 : BitVec 8) ++ x, a, b⟩ = .qntProc a b) ∧
  ∀ (a b : Word) (s : State),
    let p : Int := a.toInt - b.toInt
    let sc : Nat := s.qscl.toNat
    let span : Int := (Config.scaleRom (18 * (sc - 1))).toInt
    let n : Int := ((min (Config.scaleRom (18 * (sc - 1) + 1)).toNat 16 : Nat) : Int)
    let C : Int → Int := fun k => k / n * span + (Config.scaleRom (18 * (sc - 1) + 2 + (k % n).toNat)).toInt
    let sat : Int → Word := fun y => BitVec.ofInt 32 (max (-2147483648) (min 2147483647 y))
    let inside : Prop := s.qv = true ∧ s.qpb.toInt ≤ p ∧ p ≤ s.qnb.toInt
    (s.qen = false → exec (.qntProc a b) s = .next { s with y0 := a, y1 := 0, fl := 0 }) ∧
    (s.qen = true → inside → exec (.qntProc a b) s = .next { s with
      y0 := sat (s.qcw.toInt + b.toInt), y1 := s.qix.setWidth 32, fl := 0x08 }) ∧
    (s.qen = true → ¬ inside → ∃ k : Int,
      (p / span * n - 1 ≤ k ∧ k ≤ p / span * n + n) ∧
      (∀ j : Int, p / span * n - 1 ≤ j → j ≤ p / span * n + n →
        |p - C k| ≤ |p - C j| ∧ (j < k → |p - C k| < |p - C j|)) ∧
      exec (.qntProc a b) s = .next { s with
        qcw := BitVec.ofInt 40 (C k)
        qpb := BitVec.ofInt 40 ((9 * C (k - 1) + 7 * C k) / 16)
        qnb := BitVec.ofInt 40 ((9 * C (k + 1) + 7 * C k) / 16)
        qix := BitVec.ofInt 4 (k % n)
        qv := true
        y0 := sat ((BitVec.ofInt 40 (C k)).toInt + b.toInt)
        y1 := (BitVec.ofInt 4 (k % n)).setWidth 32
        fl := if s.qv = false ∨ C k ≠ s.qcw.toInt then 0x09 else 0x08 })

/-- The quantizer's 40-bit and 4-bit registers hold codeword, boundaries and note index exactly (41_quantizer.md
R132, 41_quantizer.md R133).

With any usable scale (sorted or not; an index above NSCALE, which has no record and which no command binds,
reads the words the model gives it, log 10), after a search the registers QCW, QPB, QNB and QIX, read back
as signed and unsigned numbers, are exactly the codeword, the two boundaries and the note index of the
codebook member found: nothing is cut off. -/
def Obligations.QuantizerRegistersHoldExactValues : Prop :=
  ∀ (rom : Config.Roms) (a b : Word) (s : State), s.qen = true → scaleUsable rom s.qscl.toNat = true →
    s.inCell (a.toInt - b.toInt) = false →
    ∃ k : Int, k = searchNearest rom s.qscl.toNat (a.toInt - b.toInt) ∧
      (qntProcWith rom a b s).qcw.toInt = codebook rom s.qscl.toNat k ∧
      (qntProcWith rom a b s).qpb.toInt =
        (9 * codebook rom s.qscl.toNat (k - 1) + 7 * codebook rom s.qscl.toNat k) / 16 ∧
      (qntProcWith rom a b s).qnb.toInt =
        (9 * codebook rom s.qscl.toNat (k + 1) + 7 * codebook rom s.qscl.toNat k) / 16 ∧
      ((qntProcWith rom a b s).qix.toNat : Int) = k % scaleCount rom s.qscl.toNat ∧
      (qntProcWith rom a b s).CellOf rom

/-- The codebook repeats by one span per n members and rises strictly for a well-formed scale (41_quantizer.md
R130, 20_memory.md R65).

C(k) is fdiv(k, n) spans plus note fmod(k, n), and for every scale with at least one note C(k + n) = C(k) +
span. (Where the index has no record or n is 0, which R130 leaves undefined, this states the model's choice:
Lean's division by 0 and the words at the place the index gives, log 10.) For a well-formed scale C is
strictly increasing over all integers. -/
def Obligations.CodebookIsPeriodicAndRises : Prop :=
  (∀ (rom : Config.Roms) (sc : Nat) (k : Int), codebook rom sc k =
    k / (scaleCount rom sc : Int) * (rom.scaleWord (18 * (sc - 1))).toInt +
      (rom.scaleWord (18 * (sc - 1) + 2 + (k % (scaleCount rom sc : Int)).toNat)).toInt) ∧
  (∀ (rom : Config.Roms) (sc : Nat) (k : Int), 1 ≤ scaleCount rom sc →
    codebook rom sc (k + scaleCount rom sc) = codebook rom sc k + scaleSpan rom sc) ∧
  (∀ (rom : Config.Roms) (sc : Nat) (j k : Int), ScaleWellFormed rom sc → j < k →
    codebook rom sc j < codebook rom sc k)

/-- A search finds the nearest member of the whole codebook, the lower of two equally near (R141).

For every well-formed scale, whatever the tables hold: when QNT.PROC searches, the codeword it stores is a
member of the codebook, no member of the whole codebook is nearer to p = sA - sB, and a member equally near
is not lower. For this QSP's tables exec is that function. -/
def Obligations.SearchFindsTheNearestMember : Prop :=
  (∀ (a b : Word) (s : State), exec (.qntProc a b) s = .next (qntProcWith Config.roms a b s)) ∧
  ∀ (rom : Config.Roms) (a b : Word) (s : State), ScaleWellFormed rom s.qscl.toNat → s.qen = true →
    s.inCell (a.toInt - b.toInt) = false →
    let p : Int := a.toInt - b.toInt
    let cw : Int := (qntProcWith rom a b s).qcw.toInt
    (∃ k, cw = codebook rom s.qscl.toNat k) ∧
    ∀ j : Int, |p - cw| ≤ |p - codebook rom s.qscl.toNat j| ∧
      (|p - cw| = |p - codebook rom s.qscl.toNat j| → cw ≤ codebook rom s.qscl.toNat j)

/-- Quantization is idempotent, at once and after a fresh QNT.CFG of the same scale (41_quantizer.md R139,
41_quantizer.md R131, 41_quantizer.md R132).

For a well-formed bound scale, an enabled quantizer whose cell registers, if valid, hold a cell of that
scale, and no output saturation: after QNT.PROC (A, B) returned c, QNT.PROC (c, B) returns c again, with CHG
= 0 and no state but the results changed; and after QNT.CFG of the same scale QNT.PROC (c, B) also returns
c. (There R132 sets CHG, since QV is 0, where R139 says CHG = 0 for both: the model follows R132's
pseudocode, log 13, and the flag of the fresh search is not part of this statement's claim from R139 but
stated as R132 gives it.) -/
def Obligations.QuantizingAQuantizedPitchKeepsIt : Prop :=
  ∀ (rom : Config.Roms) (a b : Word) (s : State), ScaleWellFormed rom s.qscl.toNat → s.qen = true →
    (s.qv = true → s.CellOf rom) →
    let t := qntProcWith rom a b s
    (-2147483648 ≤ t.qcw.toInt + b.toInt ∧ t.qcw.toInt + b.toInt ≤ 2147483647) →
    qntProcWith rom t.y0 b t = { t with fl := 0x08 } ∧
    (let u := qntProcWith rom t.y0 b (qntCfgWith rom s.qscl t)
     u.y0 = t.y0 ∧ u.y1 = t.y1 ∧ u.qcw = t.qcw ∧ u.fl = 0x09)

/-- Hysteresis: inside its boundaries the cell is kept, also where a fresh search would move (41_quantizer.md
R140, 41_quantizer.md R132).

While QV = 1, an enabled QNT.PROC whose p lies in QPB..QNB, boundaries included, returns QCW + sB, saturated
as R132 says (log 20), and changes no state but the results. For a well-formed scale holding member k: for p
above the midpoint to the upper neighbour and not above QNB a fresh search would give member k + 1, and for
p at or below the midpoint to the lower neighbour and not below QPB it would give member k - 1. -/
def Obligations.HysteresisKeepsTheCodewordPastTheMidpoint : Prop :=
  (∀ (rom : Config.Roms) (a b : Word) (s : State), s.qen = true → s.qv = true →
    s.qpb.toInt ≤ a.toInt - b.toInt → a.toInt - b.toInt ≤ s.qnb.toInt →
    qntProcWith rom a b s = { s with
      y0 := BitVec.ofInt 32 (max (-2147483648) (min 2147483647 (s.qcw.toInt + b.toInt)))
      y1 := s.qix.setWidth 32, fl := 0x08 }) ∧
  (∀ (rom : Config.Roms) (a b : Word) (s : State) (k : Int), ScaleWellFormed rom s.qscl.toNat →
    s.qen = true → s.qv = true → s.qcw.toInt = codebook rom s.qscl.toNat k →
    s.qpb.toInt = cellBoundary (codebook rom s.qscl.toNat (k - 1)) (codebook rom s.qscl.toNat k) →
    s.qnb.toInt = cellBoundary (codebook rom s.qscl.toNat (k + 1)) (codebook rom s.qscl.toNat k) →
    let p : Int := a.toInt - b.toInt
    let C := codebook rom s.qscl.toNat
    let fresh := qntProcWith rom a b { s with qv := false }
    (C k + C (k + 1) < 2 * p → p ≤ s.qnb.toInt → fresh.qcw.toInt = C (k + 1) ∧ (qntProcWith rom a b s).qcw.toInt = C k) ∧
    (2 * p ≤ C (k - 1) + C k → s.qpb.toInt ≤ p →
      fresh.qcw.toInt = C (k - 1) ∧ (qntProcWith rom a b s).qcw.toInt = C k))

/-- RNG.SEED loads RS with A, clears the results and changes nothing else (R151).

Every word 0x20xxxxxx is RNG.SEED; RS becomes A (any value), the results become 0, no draw is consumed and
nothing else changes. -/
def Obligations.RngSeedLoadsTheRandomState : Prop :=
  (∀ (x : BitVec 24) (a b : Word), decode ⟨(0x20 : BitVec 8) ++ x, a, b⟩ = .rngSeed a) ∧
  ∀ (a : Word) (s : State), exec (.rngSeed a) s = .next { s with rs := a, y0 := 0, y1 := 0, fl := 0 }

/-- RNG.NEXT advances RS once and returns it and its top half (R152).

Every word 0x21xxxxxx is RNG.NEXT; RS becomes RS * 1664525 + 1013904223 modulo 2^32, Y0 is the new RS, Y1
its top 16 bits, FL is 0 and nothing else changes. -/
def Obligations.RngNextReturnsOneDraw : Prop :=
  (∀ (x : BitVec 24) (a b : Word), decode ⟨(0x21 : BitVec 8) ++ x, a, b⟩ = .rngNext) ∧
  ∀ s : State,
    let r : Word := BitVec.ofNat 32 (s.rs.toNat * 1664525 + 1013904223)
    exec .rngNext s = .next { s with rs := r, y0 := r, y1 := (r.extractLsb' 16 16).setWidth 32, fl := 0 }

/-- RNG.GAUSS sums the top halves of four draws, scales the centred sum and stays in its range (R153, R154).

Every word 0x22xxxxxx is RNG.GAUSS; four draws in order advance RS; tot is the sum of their top halves, at
most 262140; g = floor((tot - 131072) * 113512 / 65536) lies in -227024..227017; Y0 is g, Y1 is tot, FL is 0
and nothing else changes. -/
def Obligations.RngGaussSumsFourDraws : Prop :=
  (∀ (x : BitVec 24) (a b : Word), decode ⟨(0x22 : BitVec 8) ++ x, a, b⟩ = .rngGauss) ∧
  ∀ s : State,
    let next : Word → Word := fun r => BitVec.ofNat 32 (r.toNat * 1664525 + 1013904223)
    let r1 := next s.rs
    let r2 := next r1
    let r3 := next r2
    let r4 := next r3
    let tot : Nat := r1.toNat / 65536 + r2.toNat / 65536 + r3.toNat / 65536 + r4.toNat / 65536
    let g : Int := ((tot : Int) - 131072) * 113512 / 65536
    exec .rngGauss s = .next { s with rs := r4, y0 := BitVec.ofInt 32 g, y1 := BitVec.ofNat 32 tot, fl := 0 } ∧
    tot ≤ 262140 ∧ -227024 ≤ g ∧ g ≤ 227017

/-- RNG.WBND sets the walk's bounds, in either order, and pulls the walk inside (R155).

Every word 0x23xxxxxx is RNG.WBND; WLO and WHI become the smaller and the larger of sA and sB, WX is clamped
between them, Y0 is the new WX, Y1 and FL are 0, no draw is consumed and nothing else changes; WLO, WX, WHI
are then in order. -/
def Obligations.RngWbndSetsTheBoundsInEitherOrder : Prop :=
  (∀ (x : BitVec 24) (a b : Word), decode ⟨(0x23 : BitVec 8) ++ x, a, b⟩ = .rngWbnd a b) ∧
  ∀ (a b : Word) (s : State),
    let lo : Int := min a.toInt b.toInt
    let hi : Int := max a.toInt b.toInt
    let x : Int := max lo (min hi s.wx.toInt)
    exec (.rngWbnd a b) s = .next { s with
      wlo := BitVec.ofInt 32 lo, whi := BitVec.ofInt 32 hi, wx := BitVec.ofInt 32 x
      y0 := BitVec.ofInt 32 x, y1 := 0, fl := 0 } ∧
    (BitVec.ofInt 32 lo).toInt = lo ∧ (BitVec.ofInt 32 hi).toInt = hi ∧ (BitVec.ofInt 32 x).toInt = x ∧
    lo ≤ x ∧ x ≤ hi

/-- RNG.WSET sets the walk's position, clamped to the bounds (R156).

Every word 0x24xxxxxx is RNG.WSET; WX becomes sA clamped to WLO..WHI, Y0 is the new WX, Y1 and FL are 0, no
draw is consumed and nothing else changes. -/
def Obligations.RngWsetClampsThePosition : Prop :=
  (∀ (x : BitVec 24) (a b : Word), decode ⟨(0x24 : BitVec 8) ++ x, a, b⟩ = .rngWset a) ∧
  ∀ (a : Word) (s : State),
    let x : Int := max s.wlo.toInt (min s.whi.toInt a.toInt)
    exec (.rngWset a) s = .next { s with wx := BitVec.ofInt 32 x, y0 := BitVec.ofInt 32 x, y1 := 0, fl := 0 }

/-- RNG.WALK moves by a scaled Gaussian step, reflects once, then clamps (R157).

Every word 0x25xxxxxx is RNG.WALK; four draws give g as in RNG.GAUSS; the step floor(g * sA / 65536) is
added to WX, mirrored in the bound it crosses (the upper tested first), then clamped to WLO..WHI; WX and Y0
take the result, Y1 is g, FL is 0, RS is the state after four draws and nothing else changes. With WLO not
above WHI the new WX lies between them; with sA = 0 and WX inside the bounds WX stays. -/
def Obligations.RngWalkReflectsOnceThenClamps : Prop :=
  (∀ (x : BitVec 24) (a b : Word), decode ⟨(0x25 : BitVec 8) ++ x, a, b⟩ = .rngWalk a) ∧
  ∀ (a : Word) (s : State),
    let next : Word → Word := fun r => BitVec.ofNat 32 (r.toNat * 1664525 + 1013904223)
    let r1 := next s.rs
    let r2 := next r1
    let r3 := next r2
    let r4 := next r3
    let tot : Nat := r1.toNat / 65536 + r2.toNat / 65536 + r3.toNat / 65536 + r4.toNat / 65536
    let g : Int := ((tot : Int) - 131072) * 113512 / 65536
    let lo : Int := s.wlo.toInt
    let hi : Int := s.whi.toInt
    let y : Int := s.wx.toInt + g * a.toInt / 65536
    let y' : Int := if y > hi then 2 * hi - y else if y < lo then 2 * lo - y else y
    let x : Int := max lo (min hi y')
    exec (.rngWalk a) s = .next { s with
      rs := r4, wx := BitVec.ofInt 32 x, y0 := BitVec.ofInt 32 x, y1 := BitVec.ofInt 32 g, fl := 0 } ∧
    (lo ≤ hi → lo ≤ (BitVec.ofInt 32 x).toInt ∧ (BitVec.ofInt 32 x).toInt ≤ hi) ∧
    (a = 0 → lo ≤ s.wx.toInt → s.wx.toInt ≤ hi → BitVec.ofInt 32 x = s.wx)

/-- TM.LOAD writes the register and the value of one slot, not its step-count (R171).

Every word 0x30xxxxxx is TM.LOAD with BIP in bit 16, the slot in bits 15:0 and the register value in
A[15:0]. Slot min(imm, 35) gets the register and its value, unipolar sr + sr[15] or bipolar twice that minus
65536; its step-count, every other slot, RS and all else are unchanged; Y0 is the value, Y1 the register, FL
0. -/
def Obligations.TmLoadWritesRegisterAndValue : Prop :=
  (∀ (x : BitVec 24) (a b : Word), decode ⟨(0x30 : BitVec 8) ++ x, a, b⟩ =
    .tmLoad (x.getLsbD 16) (x.extractLsb' 0 16) (a.extractLsb' 0 16)) ∧
  ∀ (bip : Bool) (imm sr : BitVec 16) (s : State),
    let slot : Fin 36 := ⟨min imm.toNat 35, by omega⟩
    let u : Int := (sr.toNat : Int) + (if sr.getLsbD 15 then 1 else 0)
    let v : Int := if bip then 2 * u - 65536 else u
    ∃ t, exec (.tmLoad bip imm sr) s = .next t ∧
      t = { s with tm := t.tm, y0 := BitVec.ofInt 32 v, y1 := sr.setWidth 32, fl := 0 } ∧
      t.slot slot = { sr := sr, v := BitVec.ofInt 32 v, n := (s.slot slot).n } ∧
      ∀ j : Fin 36, j ≠ slot → t.slot j = s.slot j

/-- TM.ADV draws once, shifts one slot's register and injects the looped-back bit XOR the Bernoulli draw (R172).

Every word 0x31xxxxxx is TM.ADV with BIP in bit 16 and the slot in bits 15:0. steps = clamp(1 + floor(len *
16 / 65536), 1, 16) with len = sB clamped to 0..65536; p' = p + floor(p / 32) - 1024 with p = sA clamped;
one draw gives u and flip = (u < p'); the register moves one bit down and bit 15 becomes old bit 16 - steps
XOR flip. The slot gets register, value and steps, RS the draw; Y0 is the value, Y1 the register, CHG
whether the register changed; every other slot and all else are unchanged. -/
def Obligations.TmAdvShiftsAndInjectsOneBit : Prop :=
  (∀ (x : BitVec 24) (a b : Word), decode ⟨(0x31 : BitVec 8) ++ x, a, b⟩ =
    .tmAdv (x.getLsbD 16) (x.extractLsb' 0 16) a b) ∧
  ∀ (bip : Bool) (imm : BitVec 16) (a b : Word) (s : State),
    let slot : Fin 36 := ⟨min imm.toNat 35, by omega⟩
    let len : Int := max 0 (min 65536 b.toInt)
    let steps : Int := max 1 (min 16 (1 + len * 16 / 65536))
    let p : Int := max 0 (min 65536 a.toInt)
    let p' : Int := p + p / 32 - 1024
    let r : Word := BitVec.ofNat 32 (s.rs.toNat * 1664525 + 1013904223)
    let flip : Bool := decide (((r.toNat / 65536 : Nat) : Int) < p')
    let sr : BitVec 16 := (s.slot slot).sr
    let new : Bool := sr.getLsbD (16 - steps).toNat ^^ flip
    let sr2 : BitVec 16 := (sr >>> 1) ||| (if new then 0x8000 else 0x0000)
    let u : Int := (sr2.toNat : Int) + (if sr2.getLsbD 15 then 1 else 0)
    let v : Int := if bip then 2 * u - 65536 else u
    ∃ t, exec (.tmAdv bip imm a b) s = .next t ∧
      t = { s with
        rs := r, tm := t.tm, y0 := BitVec.ofInt 32 v, y1 := sr2.setWidth 32, fl := if sr2 ≠ sr then 0x01 else 0x00 } ∧
      t.slot slot = { sr := sr2, v := BitVec.ofInt 32 v, n := BitVec.ofInt 5 steps } ∧
      ∀ j : Fin 36, j ≠ slot → t.slot j = s.slot j

/-- TM.GET returns the value and the register of one slot and changes nothing else (R173).

Every word 0x32xxxxxx is TM.GET with the slot in bits 15:0; Y0 is TMV and Y1 TMSR of slot min(imm, 35), FL
is 0, nothing else changes. -/
def Obligations.TmGetReturnsValueAndRegister : Prop :=
  (∀ (x : BitVec 24) (a b : Word), decode ⟨(0x32 : BitVec 8) ++ x, a, b⟩ = .tmGet (x.extractLsb' 0 16)) ∧
  ∀ (imm : BitVec 16) (s : State),
    let slot : Fin 36 := ⟨min imm.toNat 35, by omega⟩
    exec (.tmGet imm) s = .next { s with y0 := (s.slot slot).v, y1 := (s.slot slot).sr.setWidth 32, fl := 0 }

/-- The length map's sixteen steps, and where the probability locks the Bernoulli draw (43_turing.md R172,
43_turing.md R176).

steps is 1 for sB below 4096, k + 1 for sB in k * 4096 .. k * 4096 + 4095 with k from 0 to 15, and 16 from
65536 on; a flip happens for no draw exactly if the clamped p is at most 993, for every draw exactly if it
is at least 64544, and in between exactly for the draws whose top half is below p'; p' takes the values of
R176. -/
def Obligations.LengthAndProbabilityMapsAreTheTables : Prop :=
  (∀ b : Word, b.toInt < 4096 → tmSteps b = 1) ∧
  (∀ (b : Word) (k : Int), 0 ≤ k → k ≤ 15 → k * 4096 ≤ b.toInt → b.toInt ≤ k * 4096 + 4095 → tmSteps b = k + 1) ∧
  (∀ b : Word, 65536 ≤ b.toInt → tmSteps b = 16) ∧
  (∀ a : Word, (∀ r : Word, tmFlip a r = false) ↔ max 0 (min 65536 a.toInt) ≤ 993) ∧
  (∀ a : Word, (∀ r : Word, tmFlip a r = true) ↔ 64544 ≤ max 0 (min 65536 a.toInt)) ∧
  (∀ a r : Word, tmFlip a r = true ↔ ((r.toNat / 65536 : Nat) : Int) < tmProb a) ∧
  tmProb 0 = -1024 ∧ tmProb 993 = 0 ∧ tmProb 994 = 1 ∧ tmProb 0x4000 = 15872 ∧ tmProb 0x8000 = 32768 ∧
  tmProb 0xC000 = 49664 ∧ tmProb 64543 = 65535 ∧ tmProb 64544 = 65537 ∧ tmProb 65536 = 66560

/-- Lock property: with the probability locked, every later register follows from the first one (43_turing.md
R172, 43_turing.md R175, 43_turing.md R176).

A run of n TM.ADV commands on one slot with constant operands whose clamped probability is at most 993 or at
least 64544: bit j of the register afterwards is bit j + n of the first register if j + n is below 16, and
otherwise the m-th injected bit, m = j + n - 16, which is bit 16 - steps + m mod steps of the first
register, complemented (only when the probability is locked at 1) if m / steps is even. So from 16 advances
on the register repeats with period steps, or 2 * steps when locked at 1; each advance still consumes one
draw, and no other slot changes. -/
def Obligations.LockedRegisterRepeatsItsFirstBits : Prop :=
  ∀ (bip : Bool) (imm : BitVec 16) (a b : Word) (s : State) (n : Nat),
    let p : Int := max 0 (min 65536 a.toInt)
    let steps : Nat := (max 1 (min 16 (1 + max 0 (min 65536 b.toInt) * 16 / 65536)) : Int).toNat
    let slot : Fin 36 := ⟨min imm.toNat 35, by omega⟩
    let one : Bool := decide (64544 ≤ p)
    let first : BitVec 16 := (s.slot slot).sr
    (p ≤ 993 ∨ 64544 ≤ p) →
    ∃ t, execAll (List.replicate n (.tmAdv bip imm a b)) s = .next t ∧
      (∀ j, j < 16 → (t.slot slot).sr.getLsbD j =
        if j + n < 16 then first.getLsbD (j + n)
        else first.getLsbD (16 - steps + (j + n - 16) % steps) ^^ (one && decide ((j + n - 16) / steps % 2 = 0))) ∧
      (∃ t', execAll (List.replicate (n + (if one then 2 * steps else steps)) (.tmAdv bip imm a b)) s = .next t' ∧
        (16 ≤ n → (t'.slot slot).sr = (t.slot slot).sr)) ∧
      t.rs = (fun r : Word => BitVec.ofNat 32 (r.toNat * 1664525 + 1013904223))^[n] s.rs ∧
      ∀ j : Fin 36, j ≠ slot → t.slot j = s.slot j

/-- PHA.RST sets the phase to 0, clears the results and changes nothing else (R190).

Every word 0x40xxxxxx is PHA.RST; PH becomes 0, the results become 0 and nothing else changes. -/
def Obligations.PhaRstClearsThePhase : Prop :=
  (∀ (x : BitVec 24) (a b : Word), decode ⟨(0x40 : BitVec 8) ++ x, a, b⟩ = .phaRst) ∧
  ∀ s : State, exec .phaRst s = .next { s with ph := 0, y0 := 0, y1 := 0, fl := 0 }

/-- PHA.STEP applies the retrigger, then holds, wraps or saturates the phase, then reports it (R191).

Every word 0x41xxxxxx is PHA.STEP with gf in bits 23:20, LOOP, RETRIG and HOLD in bits 16, 17, 18. A rising
edge (ABSENT clear, RISING set) with RETRIG sets the phase to 0 first and CHG; HOLD leaves it; LOOP adds A
modulo 2^32 and sets WRAP when the sum reaches 2^32; else the sum saturates at 2^32. DONE is 1 exactly if
HOLD is clear and the phase is 2^32. Y0 is the phase modulo 2^32, Y1 the phase divided by 65536; nothing
else changes. -/
def Obligations.PhaStepRestartsThenIntegrates : Prop :=
  (∀ (x : BitVec 24) (a b : Word), decode ⟨(0x41 : BitVec 8) ++ x, a, b⟩ =
    .phaStep (x.extractLsb' 20 4) (x.getLsbD 16) (x.getLsbD 17) (x.getLsbD 18) a) ∧
  ∀ (gf : GateFlags) (loop retrig hold : Bool) (a : Word) (s : State),
    let chg : Bool := retrig && (!gf.getLsbD 3 && gf.getLsbD 1)
    let ph0 : Nat := if chg then 0 else s.ph.toNat
    let y : Nat := ph0 + a.toNat
    let wrap : Bool := !hold && loop && decide (2 ^ 32 ≤ y)
    let ph : Nat := if hold then ph0 else if loop then y % 2 ^ 32 else min y (2 ^ 32)
    let done : Bool := !hold && decide (ph = 2 ^ 32)
    exec (.phaStep gf loop retrig hold a) s = .next { s with
      ph := BitVec.ofNat 33 ph, y0 := BitVec.ofNat 32 ph, y1 := BitVec.ofNat 32 (ph / 65536)
      fl := BitVec.ofNat 8 (chg.toNat + 2 * done.toNat + 4 * wrap.toNat) }

/-- PHA.RATE interpolates the rate table, applies the range and clamps the increment (R192).

Every word 0x42xxxxxx is PHA.RATE with the range in bits 17:16 (0 slow, 1 default, 2 fast, 3 audio). With t
= sA clamped to 0..65536: entry t / 256 of RATE_ROM is interpolated toward the next one (entry 256 at most)
with fraction t mod 256, floored; the range divides by 8, keeps, multiplies by 8 or by 64; the result is
clamped to 1..2^31 and goes to Y0; Y1 and FL are 0 and no state changes. -/
def Obligations.PhaRateInterpolatesScalesAndClamps : Prop :=
  (∀ (x : BitVec 24) (a b : Word), decode ⟨(0x42 : BitVec 8) ++ x, a, b⟩ =
    .phaRate (match (x.extractLsb' 16 2).toNat with
      | 0 => .slow | 1 => .default | 2 => .fast | _ => .audio) a) ∧
  ∀ (range : RangeSel) (a : Word) (s : State),
    let t : Int := max 0 (min 65536 a.toInt)
    let idx : Nat := (t / 256).toNat
    let fr : Int := t % 256
    let lo : Int := (Config.rateRom idx).toNat
    let hi : Int := (Config.rateRom (min (idx + 1) 256)).toNat
    let f : Int := lo + (hi - lo) * fr / 256
    let g : Int := match range with
      | .slow => f / 8 | .default => f | .fast => f * 8 | .audio => f * 64
    exec (.phaRate range a) s = .next { s with
      y0 := BitVec.ofInt 32 (max 1 (min 2147483648 g)), y1 := 0, fl := 0 }

/-- A monotonic rate table gives a monotonic curve in every range, between the floor and the ceiling
(20_memory.md R64, 44_phase_ramp.md R192, 44_phase_ramp.md R195).

For every rate table that never rises the increment never rises with the time parameter, and for every table
that never falls it never falls, in each of the four ranges; the increment always lies in 1..2^31. For this
QSP's table it is what PHA.RATE returns. -/
def Obligations.RateCurveIsMonotonicForAMonotonicTable : Prop :=
  (∀ (range : RangeSel) (a : Word) (s : State), exec (.phaRate range a) s =
    .next { s with y0 := BitVec.ofInt 32 (rateWith Config.roms range a), y1 := 0, fl := 0 }) ∧
  (∀ (rom : Config.Roms) (range : RangeSel) (a a' : Word), RateFalling rom → a.toInt ≤ a'.toInt →
    rateWith rom range a' ≤ rateWith rom range a) ∧
  (∀ (rom : Config.Roms) (range : RangeSel) (a a' : Word), RateRising rom → a.toInt ≤ a'.toInt →
    rateWith rom range a ≤ rateWith rom range a') ∧
  (∀ (rom : Config.Roms) (range : RangeSel) (a : Word), 1 ≤ rateWith rom range a ∧ rateWith rom range a ≤ 2 ^ 31)

/-- PHA.SET sets the phase to the clamped operand and reports it (R193).

Every word 0x43xxxxxx is PHA.SET; PH becomes sA clamped to 0..65536 times 65536; Y0 is PH modulo 2^32, Y1 PH
divided by 65536, DONE is 1 exactly if PH is 2^32; nothing else changes. -/
def Obligations.PhaSetLoadsTheClampedPhase : Prop :=
  (∀ (x : BitVec 24) (a b : Word), decode ⟨(0x43 : BitVec 8) ++ x, a, b⟩ = .phaSet a) ∧
  ∀ (a : Word) (s : State),
    let ph : Nat := (max 0 (min 65536 a.toInt) * 65536).toNat
    exec (.phaSet a) s = .next { s with
      ph := BitVec.ofNat 33 ph, y0 := BitVec.ofNat 32 ph, y1 := BitVec.ofNat 32 (ph / 65536)
      fl := if ph = 2 ^ 32 then 0x02 else 0x00 }

/-- PHA.GET reports the phase and changes nothing else (R194).

Every word 0x44xxxxxx is PHA.GET; Y0 is PH modulo 2^32, Y1 is PH divided by 65536, DONE is 1 exactly if PH
is 2^32; nothing else changes. -/
def Obligations.PhaGetReportsThePhase : Prop :=
  (∀ (x : BitVec 24) (a b : Word), decode ⟨(0x44 : BitVec 8) ++ x, a, b⟩ = .phaGet) ∧
  ∀ s : State, exec .phaGet s = .next { s with
    y0 := BitVec.ofNat 32 s.ph.toNat, y1 := BitVec.ofNat 32 (s.ph.toNat / 65536)
    fl := if s.ph.toNat = 2 ^ 32 then 0x02 else 0x00 }

/-- Ramp property: a non-looping ramp reaches 1.0 at step ceil(2^32 / f), holds, and restarts on an edge (R195).

From PH = 0, after k PHA.STEP.R commands with constant increment f at least 1 and gate flags that are not
rising, PH is min(k * f, 2^32), and with k at least 1 the results report it with DONE exactly if k is at
least ceil(2^32 / f) and CHG and WRAP clear, so that nothing changes from that step on; from any state the
first such step with a rising flag leaves PH = f with CHG set and DONE clear. The increment PHA.RATE returns
is at least 1, and 2^32 steps always end the ramp. -/
def Obligations.RampEndsAtItsStepAndHoldsThere : Prop :=
  (∀ (gfs : List GateFlags) (f : Word) (s : State), s.ph = 0 → 1 ≤ f.toNat →
    (∀ g ∈ gfs, g.getLsbD 3 = true ∨ g.getLsbD 1 = false) →
    let k := gfs.length
    let ph : Nat := min (k * f.toNat) (2 ^ 32)
    let done : Prop := (2 ^ 32 + f.toNat - 1) / f.toNat ≤ k
    ∃ t, execAll (gfs.map fun g => .phaStep g false true false f) s = .next t ∧
      t = { s with ph := BitVec.ofNat 33 ph, y0 := t.y0, y1 := t.y1, fl := t.fl } ∧
      (ph = 2 ^ 32 ↔ done) ∧
      (1 ≤ k → t.y0 = BitVec.ofNat 32 ph ∧ t.y1 = BitVec.ofNat 32 (ph / 65536) ∧
        (done → t.fl = 0x02) ∧ (¬ done → t.fl = 0x00)) ∧
      (2 ^ 32 ≤ k → done)) ∧
  (∀ (gf : GateFlags) (f : Word) (s : State), gf.getLsbD 3 = false → gf.getLsbD 1 = true →
    exec (.phaStep gf false true false f) s = .next { s with
      ph := f.setWidth 33, y0 := f, y1 := BitVec.ofNat 32 (f.toNat / 65536), fl := 0x01 }) ∧
  (∀ (range : RangeSel) (a : Word) (s : State), ∃ t, exec (.phaRate range a) s = .next t ∧ 1 ≤ t.y0.toNat)

/-- RX.RST clears the ramp extractor's four registers and the results, nothing else (R201).

Every word 0x50xxxxxx is RX.RST; RXP, RXF, RXC, RXV and the results become 0 and nothing else changes. -/
def Obligations.RxRstClearsTheExtractor : Prop :=
  (∀ (x : BitVec 24) (a b : Word), decode ⟨(0x50 : BitVec 8) ++ x, a, b⟩ = .rxRst) ∧
  ∀ s : State, exec .rxRst s = .next { s with
    rxp := 0, rxf := 0, rxc := 0, rxv := false, y0 := 0, y1 := 0, fl := 0 }

/-- RX.STEP runs free when the gate is absent, taps on a rising edge, advances otherwise (R202).

Every word 0x51xxxxxx is RX.STEP with gf in bits 23:20. With ABSENT set the ramp advances by A modulo 2^32,
WRAP set when it passes. Else with RISING set: if a tap was seen before, RXF becomes min(2^32 / (RXC + 1),
2^32 - 1); RXV becomes 1, RXC and RXP 0, CHG is set. Else RXC + 1 saturates at 2^32 - 1 and RXP + RXF at
2^32, where DONE is set. Y0 is RXP modulo 2^32, Y1 is RXP divided by 65536; nothing else changes. -/
def Obligations.RxStepRunsFreeTapsOrAdvances : Prop :=
  (∀ (x : BitVec 24) (a b : Word), decode ⟨(0x51 : BitVec 8) ++ x, a, b⟩ = .rxStep (x.extractLsb' 20 4) a) ∧
  ∀ (gf : GateFlags) (a : Word) (s : State),
    let y : Nat := s.rxp.toNat + a.toNat
    let tapped : Nat := min (2 ^ 32 / (s.rxc.toNat + 1)) (2 ^ 32 - 1)
    let p : Nat := min (s.rxp.toNat + s.rxf.toNat) (2 ^ 32)
    exec (.rxStep gf a) s = .next
      (if gf.getLsbD 3 then
        { s with rxp := BitVec.ofNat 33 (y % 2 ^ 32), y0 := BitVec.ofNat 32 y, y1 := BitVec.ofNat 32 (y % 2 ^ 32 / 65536)
                 fl := if 2 ^ 32 ≤ y then 0x04 else 0x00 }
      else if gf.getLsbD 1 then
        { s with rxf := if s.rxv then BitVec.ofNat 32 tapped else s.rxf, rxv := true, rxc := 0, rxp := 0
                 y0 := 0, y1 := 0, fl := 0x01 }
      else
        { s with rxc := BitVec.ofNat 32 (min (s.rxc.toNat + 1) (2 ^ 32 - 1)), rxp := BitVec.ofNat 33 p
                 y0 := BitVec.ofNat 32 p, y1 := BitVec.ofNat 32 (p / 65536)
                 fl := if p = 2 ^ 32 then 0x02 else 0x00 })

/-- With taps every N samples the ramp reads j * floor(2^32 / N), saturating if the next tap is late
(44_phase_ramp.md R202, 44_phase_ramp.md R203).

From any state: a tap, N - 1 samples between taps, a second tap, N samples after the first (any N from 1),
then j samples between taps. After the second tap RXF is min(floor(2^32 / N), 2^32 - 1), with N taken as
2^32 where it is more; after the j samples RXP is j * RXF, at most 2^32, RXC is j (at most 2^32 - 1), and
with j at least 1 DONE is set exactly if the ramp has reached 2^32, which it has not while j is below N and
N is at most 2^32. (With N above 2^32 the counter RXC saturates and RXF is 1, as R202 says, so the ramp
reaches 2^32 before the next tap at the same distance, where R203 (b) says it never does: the model follows
R202, log 18.) After RX.RST tapped samples before the first tap keep RXP at 0. Operand words of the tapped
samples are arbitrary. -/
def Obligations.TapRampFollowsTheTapPeriod : Prop :=
  (∀ (tap1 tap2 : GateFlags) (a1 a2 : Word) (gap rest : List (GateFlags × Word)) (s : State),
    tap1.getLsbD 3 = false → tap1.getLsbD 1 = true → tap2.getLsbD 3 = false → tap2.getLsbD 1 = true →
    (∀ g ∈ gap ++ rest, g.1.getLsbD 3 = false ∧ g.1.getLsbD 1 = false) →
    let N := gap.length + 1
    let j := rest.length
    let f := min (2 ^ 32 / min N (2 ^ 32)) (2 ^ 32 - 1)
    ∃ t, execAll (.rxStep tap1 a1 :: gap.map (fun g => .rxStep g.1 g.2) ++
        .rxStep tap2 a2 :: rest.map (fun g => .rxStep g.1 g.2)) s = .next t ∧
      t.rxf.toNat = f ∧ t.rxp.toNat = min (j * f) (2 ^ 32) ∧ t.rxc.toNat = min j (2 ^ 32 - 1) ∧ t.rxv = true ∧
      t.y0 = BitVec.ofNat 32 t.rxp.toNat ∧ t.y1 = BitVec.ofNat 32 (t.rxp.toNat / 65536) ∧
      t.fl = (if j = 0 then 0x01 else if 2 ^ 32 ≤ j * f then 0x02 else 0x00) ∧
      (N ≤ 2 ^ 32 → j < N → j * f < 2 ^ 32)) ∧
  (∀ (between : List (GateFlags × Word)) (s : State),
    (∀ g ∈ between, g.1.getLsbD 3 = false ∧ g.1.getLsbD 1 = false) →
    ∃ t, execAll (.rxRst :: between.map (fun g => .rxStep g.1 g.2)) s = .next t ∧ t.rxp = 0 ∧ t.rxf = 0 ∧ t.fl = 0)

/-- The free-running ramp is RXP0 + k * f modulo 2^32 and wraps the stated number of times (44_phase_ramp.md
R203).

From a state with RXP below 2^32, after k RX.STEP commands with the gate absent and constant A = f the ramp
is (RXP0 + k * f) mod 2^32, RXF, RXC and RXV are as before, and WRAP was set by exactly floor((RXP0 + k * f)
/ 2^32) of the k commands. -/
def Obligations.FreeRunningRampAdvancesModuloOne : Prop :=
  ∀ (gf : GateFlags) (f : Word) (s : State) (k : Nat), gf.getLsbD 3 = true → s.rxp.toNat < 2 ^ 32 →
    (∃ t, execAll (List.replicate k (.rxStep gf f)) s = .next t ∧
      t = { s with rxp := BitVec.ofNat 33 ((s.rxp.toNat + k * f.toNat) % 2 ^ 32), y0 := t.y0, y1 := t.y1, fl := t.fl }) ∧
    ((List.range k).countP fun j =>
      match execAll (List.replicate (j + 1) (.rxStep gf f)) s with
      | .next t => t.fl.getLsbD 2
      | _ => false) = (s.rxp.toNat + k * f.toNat) / 2 ^ 32

/-- OSC.SIN interpolates the sine table, bipolar or mapped to unipolar, and writes no state (R220).

Every word 0x60xxxxxx is OSC.SIN with BIP in bit 16. With i = A[31:24] and fraction A[23:8], y is entry i
plus the floored interpolation toward entry i + 1; Y0 is y, or floor((y + 65536) / 2) with BIP clear; Y1 and
FL are 0 and no state changes. The table has 257 entries, every one in -65536..65536. Its entries are those
of the list of 20_memory.md R63: entries 0 to 64 are written out, entry 128 - i is entry i for i up to 128,
and entry 256 - i is minus entry i for i up to 256, so 0, 65536, 0, -65536, 0 stand at the quarters. -/
def Obligations.OscSinInterpolatesTheTable : Prop :=
  (∀ (x : BitVec 24) (a b : Word), decode ⟨(0x60 : BitVec 8) ++ x, a, b⟩ = .oscSin (x.getLsbD 16) a) ∧
  (∀ (bip : Bool) (a : Word) (s : State),
    let i : Nat := a.toNat / 2 ^ 24
    let fr : Int := ((a.toNat / 2 ^ 8 % 2 ^ 16 : Nat) : Int)
    let y : Int := sineTable.getD i 0 + (sineTable.getD (i + 1) 0 - sineTable.getD i 0) * fr / 65536
    exec (.oscSin bip a) s = .next { s with
      y0 := BitVec.ofInt 32 (if bip then y else (y + 65536) / 2), y1 := 0, fl := 0 }) ∧
  sineTable.length = 257 ∧ (∀ x ∈ sineTable, -65536 ≤ x ∧ x ≤ 65536) ∧
  sineTable.take 65 =
    [0, 1608, 3216, 4821, 6424, 8022, 9616, 11204, 12785, 14359, 15924, 17479, 19024, 20557, 22078, 23586] ++
    [25080, 26558, 28020, 29466, 30893, 32303, 33692, 35062, 36410, 37736, 39040, 40320, 41576, 42806, 44011, 45190] ++
    [46341, 47464, 48559, 49624, 50660, 51665, 52639, 53581, 54491, 55368, 56212, 57022, 57798, 58538, 59244, 59914] ++
    [60547, 61145, 61705, 62228, 62714, 63162, 63572, 63944, 64277, 64571, 64827, 65043, 65220, 65358, 65457, 65516] ++
    [65536] ∧
  (∀ i, i ≤ 128 → sineTable.getD (128 - i) 0 = sineTable.getD i 0) ∧
  (∀ i, i ≤ 256 → sineTable.getD (256 - i) 0 = -sineTable.getD i 0) ∧
  sineTable.getD 0 0 = 0 ∧ sineTable.getD 64 0 = 65536 ∧ sineTable.getD 128 0 = 0 ∧
  sineTable.getD 192 0 = -65536 ∧ sineTable.getD 256 0 = 0

/-- OSC.SAW returns the phase as a rising ramp, bipolar or unipolar, and writes no state (R221).

Every word 0x61xxxxxx is OSC.SAW with BIP in bit 16. With p17 = floor(A / 32768), Y0 is p17 - 65536 with BIP
set and floor(p17 / 2) with BIP clear; Y1 and FL are 0 and no state changes. -/
def Obligations.OscSawIsTheRisingPhase : Prop :=
  (∀ (x : BitVec 24) (a b : Word), decode ⟨(0x61 : BitVec 8) ++ x, a, b⟩ = .oscSaw (x.getLsbD 16) a) ∧
  ∀ (bip : Bool) (a : Word) (s : State),
    let p17 : Int := ((a.toNat / 32768 : Nat) : Int)
    exec (.oscSaw bip a) s = .next { s with
      y0 := BitVec.ofInt 32 (if bip then p17 - 65536 else p17 / 2), y1 := 0, fl := 0 }

/-- OSC.TRI folds the phase at half a cycle, mirrors exactly, and writes no state (R222).

Every word 0x62xxxxxx is OSC.TRI with BIP in bit 16. With p17 = floor(A / 32768) and t = p17 up to 65536 and
131072 - p17 above, Y0 is 2 * t - 65536 with BIP set and t with BIP clear; Y1 and FL are 0 and no state
changes; for A a multiple of 2^15 other than 0, the phase -A gives the same t. -/
def Obligations.OscTriFoldsAtHalfACycle : Prop :=
  (∀ (x : BitVec 24) (a b : Word), decode ⟨(0x62 : BitVec 8) ++ x, a, b⟩ = .oscTri (x.getLsbD 16) a) ∧
  (∀ (bip : Bool) (a : Word) (s : State),
    let p17 : Int := ((a.toNat / 32768 : Nat) : Int)
    let t : Int := if p17 ≤ 65536 then p17 else 131072 - p17
    exec (.oscTri bip a) s = .next { s with
      y0 := BitVec.ofInt 32 (if bip then 2 * t - 65536 else t), y1 := 0, fl := 0 }) ∧
  (∀ (bip : Bool) (a : Word) (s : State), a ≠ 0 → a.toNat % 2 ^ 15 = 0 →
    exec (.oscTri bip (-a)) s = exec (.oscTri bip a) s)

/-- Oscillator properties: range, purity, exact table points and their symmetries, monotonic saw and triangle
(45_oscillator.md R223, 45_oscillator.md R224, 20_memory.md R63).

Every result lies in -65536..65536 bipolar and 0..65536 unipolar and does not depend on the state. At the
table points (A[23:8] = 0) OSC.SIN.B returns the table entry and half a cycle later its negative; the
mirrored phase gives the same value where A[7:0] is 0 too (elsewhere the mirrored phase is no table point).
The saw never falls as A rises; the triangle never falls up to A = 2^31 and never rises from there. -/
def Obligations.OscillatorShapesKeepRangeOrderAndSymmetry : Prop :=
  (∀ (bip : Bool) (a : Word) (s : State) (i : Instr),
    (i = .oscSin bip a ∨ i = .oscSaw bip a ∨ i = .oscTri bip a) → ∃ t, exec i s = .next t ∧
      (if bip then (-65536 : Int) else 0) ≤ t.y0.toInt ∧ t.y0.toInt ≤ 65536 ∧
      ∀ s', ∃ t', exec i s' = .next t' ∧ t'.y0 = t.y0) ∧
  (∀ (a : Word) (s : State), a.toNat / 2 ^ 8 % 2 ^ 16 = 0 → ∃ t u v,
    exec (.oscSin true a) s = .next t ∧ exec (.oscSin true (a + 0x80000000)) s = .next u ∧
    exec (.oscSin true (0x80000000 - a)) s = .next v ∧
    t.y0.toInt = sineTable.getD (a.toNat / 2 ^ 24) 0 ∧ u.y0.toInt = -t.y0.toInt ∧
    (a.toNat % 2 ^ 8 = 0 → v.y0 = t.y0)) ∧
  (∀ (bip : Bool) (a a' : Word) (s : State), a.toNat ≤ a'.toNat → ∃ t t',
    exec (.oscSaw bip a) s = .next t ∧ exec (.oscSaw bip a') s = .next t' ∧ t.y0.toInt ≤ t'.y0.toInt) ∧
  (∀ (bip : Bool) (a a' : Word) (s : State), a.toNat ≤ a'.toNat → ∃ t t',
    exec (.oscTri bip a) s = .next t ∧ exec (.oscTri bip a') s = .next t' ∧
    (a'.toNat ≤ 2 ^ 31 → t.y0.toInt ≤ t'.y0.toInt) ∧ (2 ^ 31 ≤ a.toNat → t'.y0.toInt ≤ t.y0.toInt))

/-- SNH.RST clears the hold register and the results, nothing else (R240).

Every word 0x70xxxxxx is SNH.RST; SH and the results become 0 and nothing else changes. -/
def Obligations.SnhRstClearsTheHeldSample : Prop :=
  (∀ (x : BitVec 24) (a b : Word), decode ⟨(0x70 : BitVec 8) ++ x, a, b⟩ = .snhRst) ∧
  ∀ s : State, exec .snhRst s = .next { s with sh := 0, y0 := 0, y1 := 0, fl := 0 }

/-- SNH.STEP captures on a rising edge, or tracks while the gate is up and reports when it falls (R241).

Every word 0x71xxxxxx is SNH.STEP with gf in bits 23:20 and TRACK in bit 16. With ABSENT set nothing is
captured. With TRACK clear, RISING captures A and sets CHG. With TRACK set, HIGH or RISING captures A, and
CHG is set exactly if FALLING is set and RISING is not. Y0 is the new SH, Y1 is 0; nothing else changes. -/
def Obligations.SnhStepCapturesOrTracks : Prop :=
  (∀ (x : BitVec 24) (a b : Word), decode ⟨(0x71 : BitVec 8) ++ x, a, b⟩ =
    .snhStep (x.extractLsb' 20 4) (x.getLsbD 16) a) ∧
  ∀ (gf : GateFlags) (track : Bool) (a : Word) (s : State),
    let sh : Word :=
      if gf.getLsbD 3 then s.sh
      else if track then (if gf.getLsbD 0 || gf.getLsbD 1 then a else s.sh)
      else (if gf.getLsbD 1 then a else s.sh)
    let chg : Bool :=
      if gf.getLsbD 3 then false
      else if track then gf.getLsbD 2 && !gf.getLsbD 1
      else gf.getLsbD 1
    exec (.snhStep gf track a) s = .next { s with sh := sh, y0 := sh, y1 := 0, fl := if chg then 0x01 else 0x00 }

/-- DLY.RST empties the delay line without writing its RAM (R251).

Every word 0x80xxxxxx is DLY.RST; DWP, DFC and the results become 0, every word of the RAM and everything
else is unchanged. -/
def Obligations.DlyRstEmptiesTheLine : Prop :=
  (∀ (x : BitVec 24) (a b : Word), decode ⟨(0x80 : BitVec 8) ++ x, a, b⟩ = .dlyRst) ∧
  ∀ s : State, exec .dlyRst s = .next { s with dwp := 0, dfc := 0, y0 := 0, y1 := 0, fl := 0 }

/-- DLY.STEP writes the sample, counts it, reads the delayed one, then moves the pointer (R252).

Every word 0x81xxxxxx is DLY.STEP with the delay in bits 15:0. The word at index DWP becomes A, every other
word of the RAM is unchanged; DFC becomes min(DFC + 1, 1024); with d = min(imm, 1023), Y0 is the word the
RAM now holds at (DWP - d) mod 1024 if d is below the new DFC, else 0; DWP becomes (DWP + 1) mod 1024; Y1 is
the new DFC and DFULL is set exactly if it is 1024; nothing else changes. A zero delay returns A. -/
def Obligations.DlyStepWritesCountsThenReads : Prop :=
  (∀ (x : BitVec 24) (a b : Word), decode ⟨(0x81 : BitVec 8) ++ x, a, b⟩ = .dlyStep (x.extractLsb' 0 16) a) ∧
  ∀ (imm : BitVec 16) (a : Word) (s : State),
    let d : Nat := min imm.toNat 1023
    let dfc : Nat := min (s.dfc.toNat + 1) 1024
    ∃ t, exec (.dlyStep imm a) s = .next t ∧
      t = { s with
        ram := t.ram, dfc := BitVec.ofNat 11 dfc, dwp := BitVec.ofNat 10 ((s.dwp.toNat + 1) % 1024)
        y0 := if d < dfc then Memory.read t.ram ((s.dwp.toNat + 1024 - d) % 1024) else 0
        y1 := BitVec.ofNat 32 dfc, fl := if dfc = 1024 then 0x10 else 0x00 } ∧
      (∀ i : Nat, Memory.read? t.ram i = if i = s.dwp.toNat then some a else Memory.read? s.ram i) ∧
      (∀ i : Nat, i ≠ s.dwp.toNat → Memory.read t.ram i = Memory.read s.ram i) ∧
      (d = 0 → t.y0 = a)

/-- DLY.RD reads a delayed sample and changes no state; after DLY.STEP it returns what that would have (R253).

Every word 0x82xxxxxx is DLY.RD with the delay in bits 15:0. With d = min(imm, 1023), Y0 is the RAM's word
at (DWP - 1 - d) mod 1024 if d is below DFC, else 0; Y1 is DFC and DFULL is set exactly if it is 1024;
nothing else changes. Issued right after a DLY.STEP it returns the results that that DLY.STEP would have
returned with its delay. -/
def Obligations.DlyRdReadsWithoutWriting : Prop :=
  (∀ (x : BitVec 24) (a b : Word), decode ⟨(0x82 : BitVec 8) ++ x, a, b⟩ = .dlyRd (x.extractLsb' 0 16)) ∧
  (∀ (imm : BitVec 16) (s : State),
    let d : Nat := min imm.toNat 1023
    exec (.dlyRd imm) s = .next { s with
      y0 := if d < s.dfc.toNat then Memory.read s.ram ((s.dwp.toNat + 1023 - d) % 1024) else 0
      y1 := BitVec.ofNat 32 s.dfc.toNat, fl := if s.dfc.toNat = 1024 then 0x10 else 0x00 }) ∧
  (∀ (imm imm' : BitVec 16) (a : Word) (s : State), ∃ t u v,
    exec (.dlyStep imm a) s = .next t ∧ exec (.dlyRd imm') t = .next u ∧ exec (.dlyStep imm' a) s = .next v ∧
    u.y0 = v.y0 ∧ u.y1 = v.y1 ∧ u.fl = v.fl)

/-- The delay line returns the sample written d steps earlier, and 0 where there is none yet (47_delay.md R250,
47_delay.md R252, 47_delay.md R253).

After any run of DLY.STEP commands from any state, DLY.RD with a delay below the run's length (and at most
1023) returns the sample written that many steps before the last one, whatever the delays of the run were;
after DLY.RST and the run, a delay of the run's length or more returns 0, and the fill count is the run's
length, at most 1024. -/
def Obligations.DelayLineReturnsTheSampleDStepsBack : Prop :=
  (∀ (xs : List (BitVec 16 × Word)) (s : State) (d : Nat) (h : d < xs.length), d ≤ 1023 →
    ∃ t u, execAll (xs.map fun x => .dlyStep x.1 x.2) s = .next t ∧
      exec (.dlyRd (BitVec.ofNat 16 d)) t = .next u ∧ u.y0 = (xs[xs.length - 1 - d]'(by omega)).2) ∧
  (∀ (xs : List (BitVec 16 × Word)) (s : State) (d : Nat), d ≤ 1023 → xs.length ≤ d →
    ∃ t u, execAll (.dlyRst :: xs.map fun x => .dlyStep x.1 x.2) s = .next t ∧
      exec (.dlyRd (BitVec.ofNat 16 d)) t = .next u ∧ u.y0 = 0) ∧
  (∀ (xs : List (BitVec 16 × Word)) (s : State),
    ∃ t, execAll (.dlyRst :: xs.map fun x => .dlyStep x.1 x.2) s = .next t ∧ t.dfc.toNat = min xs.length 1024)

/-- Words outside the valid samples are never observed: neither power-on contents nor stale ones (47_delay.md
R255, 70_reset_and_hazards.md R300, 20_memory.md R66).

Two states that differ only in the delay RAM and agree on the DFC words behind DWP (DFC at most 1024) give,
under every command, next states that again differ only in the RAM and agree on the words that are then
valid; so over every run of commands the registers are the same. Where the valid words have all been
written, a command keeps them written: no command reads a word that holds no value. -/
def Obligations.StaleAndUnwrittenWordsAreNeverObserved : Prop :=
  (∀ (is : List Instr) (s : State) (m : Memory), s.dfc.toNat ≤ 1024 →
    (∀ j, j < s.dfc.toNat → Memory.read s.ram ((s.dwp.toNat + 1023 - j) % 1024) =
      Memory.read m ((s.dwp.toNat + 1023 - j) % 1024)) →
    ∃ t m', execAll is s = .next t ∧ execAll is { s with ram := m } = .next { t with ram := m' } ∧
      t.dfc.toNat ≤ 1024 ∧
      ∀ j, j < t.dfc.toNat → Memory.read t.ram ((t.dwp.toNat + 1023 - j) % 1024) =
        Memory.read m' ((t.dwp.toNat + 1023 - j) % 1024)) ∧
  (∀ (is : List Instr) (s t : State), s.DelayFilled → execAll is s = .next t → t.DelayFilled)

/-- Every step keeps the registers legal and the spec's relations between them true (10_state.md R25,
10_state.md R27, 10_state.md R28, 10_state.md R29, 10_state.md R30, 10_state.md R31, 10_state.md R34,
41_quantizer.md R133, 47_delay.md R250).

From every state that meets the invariant, a step that answers a next state gives one that meets it: the
delay RAM is in canonical form, bits 7:5 of FL are 0, WLO is at most WX and WX at most WHI, every TMV is a
value of its TMSR and every TMN at most 16, PH and RXP are at most 2^32, QSCL is at most NSCALE and QEN says
whether that scale is usable, a valid cell is a cell of the bound scale, and the DFC words behind DWP are
written, with DWP = DFC while filling. -/
def Obligations.EveryStepKeepsTheInvariant : Prop :=
  ∀ s t : State, s.Inv → step s = .next t → t.Inv

/-- The state after reset meets the invariant (10_state.md R36, 47_delay.md R250).

The state after reset meets the invariant that every step keeps, and so does the state that asserting the
hardware reset leaves from any state. -/
def Obligations.ResetMeetsTheInvariant : Prop :=
  State.reset.Inv ∧ ∀ s : State, s.hardwareReset.Inv

/-- Every entry of the sine table is 65536 * sin(2 pi i / 256) rounded to the nearest integer, and none is a tie
(20_memory.md R62, 20_memory.md R63).

For every index i from 0 to 256 the table entry is the integer nearest to 65536 * sin(2 pi i / 256), the
sine of the real numbers, and lies at most 0.459 away from it, so no entry is a tie (R63: none comes closer
to a half than 0.041). -/
def Obligations.SineTableIsTheRoundedSine : Prop :=
  ∀ i : Fin 257,
    let x : ℝ := 65536 * Real.sin (2 * Real.pi * (i : ℕ) / 256)
    sineTable.getD i 0 = round x ∧ |(sineTable.getD i 0 : ℝ) - x| ≤ 459 / 1000

end
end

