-- ==== Sys2Proof/Laws/Arith.lean ====
section
/-! SUPPORT. What the arithmetic primitives of `Machine/Ops.lean` and the operand views can give. -/

namespace Sys2Proof.Machine

theorem asr_def (a : Int) (n : Nat) : asr a n = a / 2 ^ n := rfl

theorem asr_bounds (a : Int) (n : Nat) : asr a n * 2 ^ n ≤ a ∧ a < (asr a n + 1) * 2 ^ n := by
  have hp : (0 : Int) < 2 ^ n := by positivity
  have h1 := Int.emod_add_mul_ediv a (2 ^ n)
  have h2 := Int.emod_nonneg a hp.ne'
  have h3 := Int.emod_lt_of_pos a hp
  unfold asr
  constructor <;> nlinarith

theorem fmod_bounds (a b : Int) (hb : 0 < b) : 0 ≤ fmod a b ∧ fmod a b < b :=
  ⟨Int.emod_nonneg a hb.ne', Int.emod_lt_of_pos a hb⟩

theorem fdiv_fmod (a b : Int) : fdiv a b * b + fmod a b = a := by
  unfold fdiv fmod
  rw [mul_comm, add_comm]
  exact Int.emod_add_mul_ediv a b

theorem clamp_bounds (x lo hi : Int) (h : lo ≤ hi) : lo ≤ clamp x lo hi ∧ clamp x lo hi ≤ hi := by
  unfold clamp
  omega

theorem clamp_of_mem (x lo hi : Int) (h1 : lo ≤ x) (h2 : x ≤ hi) : clamp x lo hi = x := by
  unfold clamp
  omega

theorem sat32_bounds (x : Int) : -2 ^ 31 ≤ sat32 x ∧ sat32 x ≤ 2 ^ 31 - 1 :=
  clamp_bounds x _ _ (by norm_num)

theorem sat32_of_mem (x : Int) (h1 : -2 ^ 31 ≤ x) (h2 : x < 2 ^ 31) : sat32 x = x :=
  clamp_of_mem x _ _ h1 (by omega)

theorem toInt_ofInt_of_mem (w : Nat) (x : Int) (h1 : -2 ^ w ≤ x) (h2 : x < 2 ^ w) :
    (BitVec.ofInt (w + 1) x).toInt = x := by
  rw [BitVec.toInt_ofInt]
  apply Int.bmod_eq_of_le_mul_two
  · push_cast [pow_succ]; linarith
  · push_cast [pow_succ]; linarith

theorem u32_toInt (x : Int) (h1 : -2 ^ 31 ≤ x) (h2 : x < 2 ^ 31) : (u32 x).toInt = x :=
  toInt_ofInt_of_mem 31 x h1 h2

theorem ofInt40_toInt (x : Int) (h1 : -2 ^ 39 ≤ x) (h2 : x < 2 ^ 39) : (BitVec.ofInt 40 x).toInt = x :=
  toInt_ofInt_of_mem 39 x h1 h2

theorem u32_toNat (x : Int) (h1 : 0 ≤ x) (h2 : x < 2 ^ 32) : ((u32 x).toNat : Int) = x := by
  unfold u32
  rw [BitVec.toNat_ofInt]
  have : x % ((2 ^ 32 : Nat) : Int) = x := Int.emod_eq_of_lt h1 (by push_cast; exact h2)
  rw [this]
  omega

@[simp] theorem u32_toInt_word (w : Word) : u32 w.toInt = w := BitVec.ofInt_toInt

@[simp] theorem u32_sview (w : Word) : u32 (sview w) = w := BitVec.ofInt_toInt

@[simp] theorem u32_natCast (n : Nat) : u32 (n : Int) = BitVec.ofNat 32 n := BitVec.ofInt_natCast 32 n

@[simp] theorem u32_uview (w : Word) : u32 (uview w) = w := by
  simp [uview]

@[simp] theorem u32_zero : u32 0 = 0 := rfl

theorem uview_bounds (w : Word) : 0 ≤ uview w ∧ uview w < 2 ^ 32 := by
  have := w.isLt
  unfold uview
  constructor
  · omega
  · exact_mod_cast this

theorem sview_bounds (w : Word) : -2 ^ 31 ≤ sview w ∧ sview w < 2 ^ 31 := by
  have h1 := BitVec.le_toInt w
  have h2 := BitVec.toInt_lt (x := w)
  unfold sview
  constructor
  · simpa using h1
  · simpa using h2

theorem unitParam_bounds (w : Word) : 0 ≤ unitParam w ∧ unitParam w ≤ 65536 :=
  clamp_bounds _ _ _ (by norm_num)

theorem unitParam_of_inRange (w : Word) (h1 : 0 ≤ w.toInt) (h2 : w.toInt ≤ 65536) : unitParam w = w.toInt :=
  clamp_of_mem _ _ _ h1 h2

theorem slotIndex_val (imm : BitVec 16) : (slotIndex imm : Nat) = min imm.toNat 35 := rfl

theorem delayOf_le (imm : BitVec 16) : delayOf imm ≤ 1023 := Nat.min_le_right _ _

theorem scaleIndex_le (rom : Config.Roms) (imm : BitVec 16) : scaleIndex rom imm ≤ rom.nscale.toNat :=
  Nat.min_le_right _ _

/-- The four gate predicates never contradict the priority absent, rising, falling (`00_scope.md` R16). -/
theorem gate_priority (gf : GateFlags) :
    (gfAbsent gf = true → gfRising gf = false ∧ gfFalling gf = false ∧ gfHigh gf = false) ∧
    (gfRising gf = true → gfFalling gf = false) := by
  revert gf
  decide

end Sys2Proof.Machine
end

