-- ==== Sys2Proof/Laws/Decode.lean ====
section
/-! SUPPORT. The fields of a command word built by the encoder, read back. -/

namespace Sys2Proof

/-- Every bit of a command word, by the field it stands in (`30_encoding.md` R91). -/
theorem cmdWord_getLsbD (op : BitVec 8) (gf : GateFlags) (m : BitVec 4) (imm : BitVec 16) (i : Nat) :
    (cmdWord op gf m imm).getLsbD i =
      if i < 16 then imm.getLsbD i
      else if i < 20 then m.getLsbD (i - 16)
      else if i < 24 then gf.getLsbD (i - 20)
      else op.getLsbD (i - 24) := by
  unfold cmdWord
  simp only [BitVec.getLsbD_append, Nat.sub_sub]
  split_ifs <;> first | rfl | omega

theorem cmdWord_opcode (op : BitVec 8) (gf : GateFlags) (m : BitVec 4) (imm : BitVec 16) (a b : Word) :
    Command.opcode ⟨cmdWord op gf m imm, a, b⟩ = op := by
  unfold Command.opcode
  ext i h
  have h1 : ¬ 24 + i < 16 := by omega
  have h2 : ¬ 24 + i < 20 := by omega
  have h3 : ¬ 24 + i < 24 := by omega
  simp [cmdWord_getLsbD, h1, h2, h3, h]

theorem cmdWord_gf (op : BitVec 8) (gf : GateFlags) (m : BitVec 4) (imm : BitVec 16) (a b : Word) :
    Command.gf ⟨cmdWord op gf m imm, a, b⟩ = gf := by
  unfold Command.gf
  ext i h
  have h1 : ¬ 20 + i < 16 := by omega
  have h2 : ¬ 20 + i < 20 := by omega
  have h3 : 20 + i < 24 := by omega
  simp [cmdWord_getLsbD, h1, h2, h3, h]

theorem cmdWord_mod (op : BitVec 8) (gf : GateFlags) (m : BitVec 4) (imm : BitVec 16) (a b : Word) :
    Command.mod ⟨cmdWord op gf m imm, a, b⟩ = m := by
  unfold Command.mod
  ext i h
  have h1 : ¬ 16 + i < 16 := by omega
  have h2 : 16 + i < 20 := by omega
  simp [cmdWord_getLsbD, h1, h2, h]

theorem cmdWord_imm (op : BitVec 8) (gf : GateFlags) (m : BitVec 4) (imm : BitVec 16) (a b : Word) :
    Command.imm ⟨cmdWord op gf m imm, a, b⟩ = imm := by
  unfold Command.imm
  ext i h
  simp [cmdWord_getLsbD, h]

theorem modField_bits (b0 b1 b2 : Bool) :
    (modField b0 b1 b2).getLsbD 0 = b0 ∧ (modField b0 b1 b2).getLsbD 1 = b1 ∧
    (modField b0 b1 b2).getLsbD 2 = b2 ∧ (modField b0 b1 b2).getLsbD 3 = false := by
  revert b0 b1 b2
  decide

theorem RangeSel.ofBits_toBits (r : RangeSel) :
    RangeSel.ofBits (((0 : BitVec 2) ++ r.toBits).extractLsb' 0 2) = r := by
  cases r <;> rfl

theorem RangeSel.toBits_ofBits (w : BitVec 2) : (RangeSel.ofBits w).toBits = w := by
  revert w
  decide

/-- The bits of a command word under the mask 0xFF000000 are its `unit` and `op`. -/
theorem cmdWord_masked (op : BitVec 8) (gf : GateFlags) (m : BitVec 4) (imm : BitVec 16) :
    cmdWord op gf m imm &&& 0xFF000000 = op ++ (0 : BitVec 24) := by
  have hm : (0xFF000000 : Word) = BitVec.allOnes 8 ++ (0 : BitVec 24) := by decide
  rw [hm]
  apply BitVec.eq_of_getLsbD_eq
  intro i h
  rw [BitVec.getLsbD_and, cmdWord_getLsbD, BitVec.getLsbD_append, BitVec.getLsbD_append]
  by_cases h3 : i < 24
  · simp [h3]
  · have h1 : ¬ i < 16 := by omega
    have h2 : ¬ i < 20 := by omega
    have h4 : i - 24 < 8 := by omega
    rw [BitVec.getLsbD_allOnes]
    simp [h1, h2, h3, h4]

/-! ## A word given by its bits 31:24 and the 24 bits below them -/

/-- Every bit of such a word. -/
theorem append_bit (op : BitVec 8) (x : BitVec 24) (i : Nat) :
    BitVec.getLsbD (w := 32) (op ++ x) i = if i < 24 then x.getLsbD i else op.getLsbD (i - 24) := by
  have h : BitVec.getLsbD (w := 8 + 24) (op ++ x) i = if i < 24 then x.getLsbD i else op.getLsbD (i - 24) :=
    BitVec.getLsbD_append
  exact h

theorem append_opcode (op : BitVec 8) (x : BitVec 24) (a b : Word) : Command.opcode ⟨op ++ x, a, b⟩ = op := by
  unfold Command.opcode
  ext i h
  have h1 : ¬ 24 + i < 24 := by omega
  simp [append_bit, h1, h]

theorem append_gf (op : BitVec 8) (x : BitVec 24) (a b : Word) :
    Command.gf ⟨op ++ x, a, b⟩ = x.extractLsb' 20 4 := by
  unfold Command.gf
  ext i h
  have h1 : 20 + i < 24 := by omega
  simp [append_bit, h1]

theorem append_mod (op : BitVec 8) (x : BitVec 24) (a b : Word) :
    Command.mod ⟨op ++ x, a, b⟩ = x.extractLsb' 16 4 := by
  unfold Command.mod
  ext i h
  have h1 : 16 + i < 24 := by omega
  simp [append_bit, h1]

theorem append_imm (op : BitVec 8) (x : BitVec 24) (a b : Word) :
    Command.imm ⟨op ++ x, a, b⟩ = x.extractLsb' 0 16 := by
  unfold Command.imm
  ext i h
  have h1 : i < 24 := by omega
  simp [append_bit, h1]

theorem append_modBit (op : BitVec 8) (x : BitVec 24) (a b : Word) (i : Nat) (h : i < 4) :
    Command.modBit ⟨op ++ x, a, b⟩ i = x.getLsbD (16 + i) := by
  simp [Command.modBit, append_mod, h]

/-- Every command word is its bits 31:24 above its other 24 bits. -/
theorem word_split (w : Word) : (w.extractLsb' 24 8 ++ w.extractLsb' 0 24 : BitVec 32) = w := by
  apply BitVec.eq_of_getLsbD_eq
  intro i h
  rw [append_bit]
  by_cases h1 : i < 24
  · simp [h1]
  · have h2 : i - 24 < 8 := by omega
    have h3 : 24 + (i - 24) = i := by omega
    simp [h1, h2, h3]

end Sys2Proof
end

