-- ==== Sys2Proof/Laws/Flags.lean ====
section
/-! SUPPORT. The flag byte: its bits, and that bits 7:5 are 0. -/

namespace Sys2Proof.Machine

theorem flByte_lt (f : Flags) : (flByte f).toNat < 32 := by
  obtain ⟨a, b, c, d, e⟩ := f
  revert a b c d e
  decide

theorem flByte_chg (f : Flags) : (flByte f).getLsbD 0 = f.chg := by
  obtain ⟨a, b, c, d, e⟩ := f
  revert a b c d e
  decide

theorem flByte_done (f : Flags) : (flByte f).getLsbD 1 = f.done := by
  obtain ⟨a, b, c, d, e⟩ := f
  revert a b c d e
  decide

theorem flByte_wrap (f : Flags) : (flByte f).getLsbD 2 = f.wrap := by
  obtain ⟨a, b, c, d, e⟩ := f
  revert a b c d e
  decide

theorem flByte_qen (f : Flags) : (flByte f).getLsbD 3 = f.qen := by
  obtain ⟨a, b, c, d, e⟩ := f
  revert a b c d e
  decide

theorem flByte_dfull (f : Flags) : (flByte f).getLsbD 4 = f.dfull := by
  obtain ⟨a, b, c, d, e⟩ := f
  revert a b c d e
  decide

@[simp] theorem flByte_none : flByte {} = 0 := rfl

end Sys2Proof.Machine
end

