-- ==== Sys2Proof/Laws/Memory.lean ====
section
/-! SUPPORT. The delay RAM: a read after a write, the canonical form kept by every operation, and what an
index is. -/

namespace Sys2Proof.Machine

@[simp] theorem Memory.read?_write_same (m : Memory) (i : Nat) (w : Word) :
    Memory.read? (Memory.write m i w) i = some w := by
  induction m with
  | nil => simp [Memory.write, Memory.read?]
  | cons c m ih =>
    obtain ⟨j, x⟩ := c
    unfold Memory.write
    split_ifs with h1 h2
    · simp [Memory.read?]
    · simp [Memory.read?]
    · simp [Memory.read?, h2, ih]

theorem Memory.read?_write_other (m : Memory) (i k : Nat) (w : Word) (h : k ≠ i) :
    Memory.read? (Memory.write m i w) k = Memory.read? m k := by
  induction m with
  | nil => simp [Memory.write, Memory.read?, h]
  | cons c m ih =>
    obtain ⟨j, x⟩ := c
    unfold Memory.write
    split_ifs with h1 h2
    · simp [Memory.read?, h]
    · subst h2; simp [Memory.read?, h]
    · simp [Memory.read?, ih]

@[simp] theorem Memory.read_write_same (m : Memory) (i : Nat) (w : Word) :
    Memory.read (Memory.write m i w) i = w := by
  simp [Memory.read]

theorem Memory.read_write_other (m : Memory) (i k : Nat) (w : Word) (h : k ≠ i) :
    Memory.read (Memory.write m i w) k = Memory.read m k := by
  simp [Memory.read, Memory.read?_write_other m i k w h]

theorem Memory.rising_write (m : Memory) (i : Nat) (w : Word) (lo : Option Nat)
    (hlo : ∀ l, lo = some l → l < i) (h : Memory.rising lo m = true) :
    Memory.rising lo (Memory.write m i w) = true := by
  induction m generalizing lo with
  | nil => cases lo with
    | none => simp [Memory.write, Memory.rising]
    | some l => simpa [Memory.write, Memory.rising] using hlo l rfl
  | cons c m ih =>
    obtain ⟨j, x⟩ := c
    have htail : Memory.rising (some j) m = true := by
      cases lo <;> simp_all [Memory.rising]
    unfold Memory.write
    split_ifs with h1 h2
    · cases lo with
      | none => simp [Memory.rising, h1, htail]
      | some l => simp [Memory.rising, h1, htail, hlo l rfl]
    · subst h2
      cases lo <;> simp_all [Memory.rising]
    · have hr := ih (some j) (by intro l hl; cases hl; omega) htail
      cases lo <;> simp_all [Memory.rising]

theorem Memory.all_write (m : Memory) (i : Nat) (w : Word) (hi : i < 1024)
    (h : m.all (fun c => decide (c.1 < Config.DLEN)) = true) :
    (Memory.write m i w).all (fun c => decide (c.1 < Config.DLEN)) = true := by
  induction m with
  | nil => simpa [Memory.write] using hi
  | cons c m ih =>
    obtain ⟨j, x⟩ := c
    rw [List.all_cons, Bool.and_eq_true] at h
    have hi' : i < Config.DLEN := hi
    have ih' := ih h.2
    unfold Memory.write
    split_ifs with h1 h2
    · simp only [List.all_cons, h.1, h.2, Bool.and_true, decide_eq_true hi']
    · simp only [List.all_cons, h.2, Bool.and_true, decide_eq_true hi']
    · simp only [List.all_cons, ih', Bool.and_true, h.1]

/-- A write inside the RAM keeps the canonical form. -/
theorem Memory.wf_write (m : Memory) (i : Nat) (w : Word) (hi : i < 1024) (h : Memory.wf m = true) :
    Memory.wf (Memory.write m i w) = true := by
  unfold Memory.wf at h ⊢
  rw [Bool.and_eq_true] at h ⊢
  exact ⟨Memory.rising_write m i w none (by simp) h.1, Memory.all_write m i w hi h.2⟩

theorem Memory.wf_nil : Memory.wf [] = true := rfl

/-- The RAM after reset is in the canonical form. -/
theorem State.reset_ram_wf : Memory.wf State.reset.ram = true := rfl

theorem dlyIndex_lt (x : Int) : dlyIndex x < 1024 := by
  unfold dlyIndex fmod
  have h1 := Int.emod_nonneg x (b := (Config.DLEN : Int)) (by norm_num)
  have h2 := Int.emod_lt_of_pos x (b := (Config.DLEN : Int)) (by norm_num)
  have : (Config.DLEN : Int) = 1024 := rfl
  omega

theorem dlyIndex_of_lt (n : Nat) (h : n < 1024) : dlyIndex n = n := by
  change ((n : Int) % 1024).toNat = n
  omega

theorem dlyIndex_back (n d : Nat) (hn : n < 1024) (hd : d < 1024) : dlyIndex ((n : Int) - d) = (n + 1024 - d) % 1024 := by
  change (((n : Int) - d) % 1024).toNat = (n + 1024 - d) % 1024
  omega

theorem delayed_of_lt (m : Memory) (i : Int) (d dfc : Nat) (h : d < dfc) :
    delayed m i d dfc = Memory.read m (dlyIndex (i - d)) := by
  simp [delayed, h]

theorem delayed_of_ge (m : Memory) (i : Int) (d dfc : Nat) (h : dfc ≤ d) : delayed m i d dfc = 0 := by
  simp [delayed, Nat.not_lt.mpr h]

theorem finishDelay_eq (s : State) (y : Word) (dfc : Nat) :
    s.finishDelay y dfc = s.finish (uview y) dfc (flByte { dfull := decide (dfc = 1024) }) := rfl

end Sys2Proof.Machine
end

