-- ==== Sys2Proof/Laws/Oscillator.lean ====
section
/-! SUPPORT. The sine table's size, range and symmetries, and the ranges of the oscillator's shapes. -/

namespace Sys2Proof.Machine

/-- The table holds one cycle and its guard entry (`20_memory.md` R62). -/
theorem sineTable_length : sineTable.length = Config.NSINE + 1 := by decide +kernel

theorem sineTable_range : ∀ x ∈ sineTable, -65536 ≤ x ∧ x ≤ 65536 := by decide +kernel

theorem sineRom_bounds (i : Nat) : -65536 ≤ sineRom i ∧ sineRom i ≤ 65536 := by
  unfold sineRom
  rw [List.getD_eq_getElem?_getD]
  cases h : sineTable[i]? with
  | none => simp
  | some x => exact sineTable_range x (List.mem_of_getElem? h)

/-- The symmetry about a quarter of the cycle (`20_memory.md` R63). -/
theorem sineRom_mirror : ∀ i, i < 129 → sineRom (128 - i) = sineRom i := by decide +kernel

/-- The symmetry about half of the cycle (`20_memory.md` R63). -/
theorem sineRom_odd : ∀ i, i < 257 → sineRom (256 - i) = -sineRom i := by decide +kernel

/-- An interpolation with a 16-bit fraction lies between its ends. -/
theorem interpolate_between (x y fr lo hi : Int) (h0 : 0 ≤ fr) (h1 : fr < 65536) (hx : lo ≤ x ∧ x ≤ hi)
    (hy : lo ≤ y ∧ y ≤ hi) : lo ≤ x + asr ((y - x) * fr) 16 ∧ x + asr ((y - x) * fr) 16 ≤ hi := by
  have hb := asr_bounds ((y - x) * fr) 16
  norm_num at hb
  constructor
  · by_contra hc
    nlinarith
  · by_contra hc
    nlinarith

theorem sineOf_bounds (a : Word) : -65536 ≤ sineOf a ∧ sineOf a ≤ 65536 := by
  have h := (a.extractLsb' 8 16).isLt
  exact interpolate_between _ _ _ _ _ (by omega) (by exact_mod_cast h) (sineRom_bounds _) (sineRom_bounds _)

theorem phase17_bounds (a : Word) : 0 ≤ phase17 a ∧ phase17 a ≤ 131071 := by
  have h := uview_bounds a
  unfold phase17 asr
  omega

theorem triangleOf_bounds (a : Word) : 0 ≤ triangleOf a ∧ triangleOf a ≤ 65536 := by
  have h := phase17_bounds a
  unfold triangleOf
  simp only [Config.ONE]
  split_ifs <;> omega

end Sys2Proof.Machine
end

