-- ==== Sys2Proof/Laws/PerInstr.lean ====
section
/-! SUPPORT. Statements about every command, one lemma per constructor. -/

namespace Sys2Proof.Laws

/-- The row of `spec/opcode_table.json` a command belongs to: the bits its words have under the mask
0xFF000000 (`30_encoding.md` R98). -/
def EncodedRow.bits : Instr → Word
  | .sysNop => 0x00000000
  | .sysRst => 0x01000000
  | .sysRd _ => 0x02000000
  | .qntCfg _ => 0x10000000
  | .qntProc _ _ => 0x11000000
  | .rngSeed _ => 0x20000000
  | .rngNext => 0x21000000
  | .rngGauss => 0x22000000
  | .rngWbnd _ _ => 0x23000000
  | .rngWset _ => 0x24000000
  | .rngWalk _ => 0x25000000
  | .tmLoad _ _ _ => 0x30000000
  | .tmAdv _ _ _ _ => 0x31000000
  | .tmGet _ => 0x32000000
  | .phaRst => 0x40000000
  | .phaStep _ _ _ _ _ => 0x41000000
  | .phaRate _ _ => 0x42000000
  | .phaSet _ => 0x43000000
  | .phaGet => 0x44000000
  | .rxRst => 0x50000000
  | .rxStep _ _ => 0x51000000
  | .oscSin _ _ => 0x60000000
  | .oscSaw _ _ => 0x61000000
  | .oscTri _ _ => 0x62000000
  | .snhRst => 0x70000000
  | .snhStep _ _ _ => 0x71000000
  | .dlyRst => 0x80000000
  | .dlyStep _ _ => 0x81000000
  | .dlyRd _ => 0x82000000

/-- The encoded word matches its row of the opcode table, and only the fields the command uses are not
zero (R98, R101). -/
def EncodedRow.Statement (i : Instr) : Prop :=
  (encode i).cmd &&& 0xFF000000 = EncodedRow.bits i ∧ (encode i).ignoredZero = true

/-- An encoded word's bits under the mask are its opcode byte, and it ignores nothing but zeros: enough
that the command's mask covers each field it writes. -/
theorem EncodedRow.of (i : Instr) (op : BitVec 8) (gf gm : GateFlags) (md mm : BitVec 4) (imm im : BitVec 16)
    (a b : Word) (m : Command) (hu : usedBits op = some m) (hc : m.cmd = cmdWord 0 gm mm im)
    (he : encode i = ⟨cmdWord op gf md imm, a, b⟩) (hr : EncodedRow.bits i = op ++ (0 : BitVec 24))
    (hg : gf &&& gm = gf) (hm : md &&& mm = md) (hi : imm &&& im = imm) (ha : a &&& m.a = a)
    (hb : b &&& m.b = b) : EncodedRow.Statement i := by
  have hw : cmdWord op gf md imm &&& (m.cmd ||| 0xFF000000) = cmdWord op gf md imm := by
    have hff : (0xFF000000 : Word) = cmdWord (BitVec.allOnes 8) 0 0 0 := by decide
    rw [hff, hc]
    apply BitVec.eq_of_getLsbD_eq
    intro i h
    rw [BitVec.getLsbD_and, BitVec.getLsbD_or]
    simp only [cmdWord_getLsbD]
    split_ifs with h1 h2 h3
    · conv_rhs => rw [← hi, BitVec.getLsbD_and]
      simp
    · conv_rhs => rw [← hm, BitVec.getLsbD_and]
      simp
    · conv_rhs => rw [← hg, BitVec.getLsbD_and]
      simp
    · have : i - 24 < 8 := by omega
      rw [BitVec.getLsbD_allOnes]
      simp [this]
  refine ⟨by rw [he, hr]; exact cmdWord_masked op gf md imm, ?_⟩
  rw [he]
  unfold Command.ignoredZero
  rw [cmdWord_opcode, hu]
  have hk : Command.masked ⟨cmdWord op gf md imm, a, b⟩ m = ⟨cmdWord op gf md imm, a, b⟩ := by
    unfold Command.masked
    rw [hw, ha, hb]
  simp [hk]

/-- Every bit of a 32-bit field is under its mask. -/
theorem and_all32 (x : Word) : x &&& 0xFFFFFFFF = x := BitVec.and_allOnes
/-- Every bit of a 16-bit field is under its mask. -/
theorem and_all16 (x : BitVec 16) : x &&& 0xFFFF = x := BitVec.and_allOnes
/-- Every bit of a 4-bit field is under its mask. -/
theorem and_all4 (x : BitVec 4) : x &&& 0xF = x := BitVec.and_allOnes
/-- The one-bit `mod` fields lie under the mask 1. -/
theorem modField_one (b : Bool) : modField b false false &&& 1 = modField b false false := by
  cases b <;> rfl
/-- The `mod` field of `PHA.STEP` lies under the mask 7. -/
theorem modField_three (b c d : Bool) : modField b c d &&& 7 = modField b c d := by
  cases b <;> cases c <;> cases d <;> rfl
/-- The range selector lies under the mask 3. -/
theorem range_two (r : RangeSel) : (((0 : BitVec 2) ++ r.toBits : BitVec 4) &&& 3) = ((0 : BitVec 2) ++ r.toBits : BitVec 4) := by
  cases r <;> rfl
/-- A zero-extended half word lies under the mask 0x0000FFFF. -/
theorem half_and (x : BitVec 16) : x.setWidth 32 &&& 0x0000FFFF = x.setWidth 32 := by
  have h : (0x0000FFFF : Word) = (BitVec.allOnes 16).setWidth 32 := by decide
  rw [h, ← BitVec.setWidth_and, BitVec.and_allOnes]

theorem EncodedRow.sysNop : EncodedRow.Statement .sysNop :=
  EncodedRow.of _ 0x00 0 0 0 0 0 0 0 0 _ rfl rfl rfl rfl
    rfl rfl rfl rfl rfl

theorem EncodedRow.sysRst : EncodedRow.Statement .sysRst :=
  EncodedRow.of _ 0x01 0 0 0 0 0 0 0 0 _ rfl rfl rfl rfl
    rfl rfl rfl rfl rfl

theorem EncodedRow.sysRd (imm : BitVec 16) : EncodedRow.Statement (.sysRd imm) :=
  EncodedRow.of _ 0x02 0 0 0 0 imm 0xFFFF 0 0 _ rfl rfl rfl rfl
    rfl rfl (and_all16 _) rfl rfl

theorem EncodedRow.qntCfg (imm : BitVec 16) : EncodedRow.Statement (.qntCfg imm) :=
  EncodedRow.of _ 0x10 0 0 0 0 imm 0xFFFF 0 0 _ rfl rfl rfl rfl
    rfl rfl (and_all16 _) rfl rfl

theorem EncodedRow.qntProc (a : Word) (b : Word) : EncodedRow.Statement (.qntProc a b) :=
  EncodedRow.of _ 0x11 0 0 0 0 0 0 a b _ rfl rfl rfl rfl
    rfl rfl rfl (and_all32 _) (and_all32 _)

theorem EncodedRow.rngSeed (a : Word) : EncodedRow.Statement (.rngSeed a) :=
  EncodedRow.of _ 0x20 0 0 0 0 0 0 a 0 _ rfl rfl rfl rfl
    rfl rfl rfl (and_all32 _) rfl

theorem EncodedRow.rngNext : EncodedRow.Statement .rngNext :=
  EncodedRow.of _ 0x21 0 0 0 0 0 0 0 0 _ rfl rfl rfl rfl
    rfl rfl rfl rfl rfl

theorem EncodedRow.rngGauss : EncodedRow.Statement .rngGauss :=
  EncodedRow.of _ 0x22 0 0 0 0 0 0 0 0 _ rfl rfl rfl rfl
    rfl rfl rfl rfl rfl

theorem EncodedRow.rngWbnd (a : Word) (b : Word) : EncodedRow.Statement (.rngWbnd a b) :=
  EncodedRow.of _ 0x23 0 0 0 0 0 0 a b _ rfl rfl rfl rfl
    rfl rfl rfl (and_all32 _) (and_all32 _)

theorem EncodedRow.rngWset (a : Word) : EncodedRow.Statement (.rngWset a) :=
  EncodedRow.of _ 0x24 0 0 0 0 0 0 a 0 _ rfl rfl rfl rfl
    rfl rfl rfl (and_all32 _) rfl

theorem EncodedRow.rngWalk (a : Word) : EncodedRow.Statement (.rngWalk a) :=
  EncodedRow.of _ 0x25 0 0 0 0 0 0 a 0 _ rfl rfl rfl rfl
    rfl rfl rfl (and_all32 _) rfl

theorem EncodedRow.tmLoad (bip : Bool) (imm : BitVec 16) (sr : BitVec 16) : EncodedRow.Statement (.tmLoad bip imm sr) :=
  EncodedRow.of _ 0x30 0 0 (modField bip false false) 1 imm 0xFFFF (sr.setWidth 32) 0 _ rfl rfl rfl rfl
    rfl (modField_one _) (and_all16 _) (half_and _) rfl

theorem EncodedRow.tmAdv (bip : Bool) (imm : BitVec 16) (a : Word) (b : Word) : EncodedRow.Statement (.tmAdv bip imm a b) :=
  EncodedRow.of _ 0x31 0 0 (modField bip false false) 1 imm 0xFFFF a b _ rfl rfl rfl rfl
    rfl (modField_one _) (and_all16 _) (and_all32 _) (and_all32 _)

theorem EncodedRow.tmGet (imm : BitVec 16) : EncodedRow.Statement (.tmGet imm) :=
  EncodedRow.of _ 0x32 0 0 0 0 imm 0xFFFF 0 0 _ rfl rfl rfl rfl
    rfl rfl (and_all16 _) rfl rfl

theorem EncodedRow.phaRst : EncodedRow.Statement .phaRst :=
  EncodedRow.of _ 0x40 0 0 0 0 0 0 0 0 _ rfl rfl rfl rfl
    rfl rfl rfl rfl rfl

theorem EncodedRow.phaStep (gf : GateFlags) (loop : Bool) (retrig : Bool) (hold : Bool) (a : Word) : EncodedRow.Statement (.phaStep gf loop retrig hold a) :=
  EncodedRow.of _ 0x41 gf 0xF (modField loop retrig hold) 7 0 0 a 0 _ rfl rfl rfl rfl
    (and_all4 _) (modField_three _ _ _) rfl (and_all32 _) rfl

theorem EncodedRow.phaRate (range : RangeSel) (a : Word) : EncodedRow.Statement (.phaRate range a) :=
  EncodedRow.of _ 0x42 0 0 ((0 : BitVec 2) ++ range.toBits) 3 0 0 a 0 _ rfl rfl rfl rfl
    rfl (range_two _) rfl (and_all32 _) rfl

theorem EncodedRow.phaSet (a : Word) : EncodedRow.Statement (.phaSet a) :=
  EncodedRow.of _ 0x43 0 0 0 0 0 0 a 0 _ rfl rfl rfl rfl
    rfl rfl rfl (and_all32 _) rfl

theorem EncodedRow.phaGet : EncodedRow.Statement .phaGet :=
  EncodedRow.of _ 0x44 0 0 0 0 0 0 0 0 _ rfl rfl rfl rfl
    rfl rfl rfl rfl rfl

theorem EncodedRow.rxRst : EncodedRow.Statement .rxRst :=
  EncodedRow.of _ 0x50 0 0 0 0 0 0 0 0 _ rfl rfl rfl rfl
    rfl rfl rfl rfl rfl

theorem EncodedRow.rxStep (gf : GateFlags) (a : Word) : EncodedRow.Statement (.rxStep gf a) :=
  EncodedRow.of _ 0x51 gf 0xF 0 0 0 0 a 0 _ rfl rfl rfl rfl
    (and_all4 _) rfl rfl (and_all32 _) rfl

theorem EncodedRow.oscSin (bip : Bool) (a : Word) : EncodedRow.Statement (.oscSin bip a) :=
  EncodedRow.of _ 0x60 0 0 (modField bip false false) 1 0 0 a 0 _ rfl rfl rfl rfl
    rfl (modField_one _) rfl (and_all32 _) rfl

theorem EncodedRow.oscSaw (bip : Bool) (a : Word) : EncodedRow.Statement (.oscSaw bip a) :=
  EncodedRow.of _ 0x61 0 0 (modField bip false false) 1 0 0 a 0 _ rfl rfl rfl rfl
    rfl (modField_one _) rfl (and_all32 _) rfl

theorem EncodedRow.oscTri (bip : Bool) (a : Word) : EncodedRow.Statement (.oscTri bip a) :=
  EncodedRow.of _ 0x62 0 0 (modField bip false false) 1 0 0 a 0 _ rfl rfl rfl rfl
    rfl (modField_one _) rfl (and_all32 _) rfl

theorem EncodedRow.snhRst : EncodedRow.Statement .snhRst :=
  EncodedRow.of _ 0x70 0 0 0 0 0 0 0 0 _ rfl rfl rfl rfl
    rfl rfl rfl rfl rfl

theorem EncodedRow.snhStep (gf : GateFlags) (track : Bool) (a : Word) : EncodedRow.Statement (.snhStep gf track a) :=
  EncodedRow.of _ 0x71 gf 0xF (modField track false false) 1 0 0 a 0 _ rfl rfl rfl rfl
    (and_all4 _) (modField_one _) rfl (and_all32 _) rfl

theorem EncodedRow.dlyRst : EncodedRow.Statement .dlyRst :=
  EncodedRow.of _ 0x80 0 0 0 0 0 0 0 0 _ rfl rfl rfl rfl
    rfl rfl rfl rfl rfl

theorem EncodedRow.dlyStep (imm : BitVec 16) (a : Word) : EncodedRow.Statement (.dlyStep imm a) :=
  EncodedRow.of _ 0x81 0 0 0 0 imm 0xFFFF a 0 _ rfl rfl rfl rfl
    rfl rfl (and_all16 _) (and_all32 _) rfl

theorem EncodedRow.dlyRd (imm : BitVec 16) : EncodedRow.Statement (.dlyRd imm) :=
  EncodedRow.of _ 0x82 0 0 0 0 imm 0xFFFF 0 0 _ rfl rfl rfl rfl
    rfl rfl (and_all16 _) rfl rfl

end Sys2Proof.Laws
end

