-- ==== Sys2Proof/Laws/Phase.lean ====
section
/-! SUPPORT. What the integrator, the phase results, the tap increment and the rate clamp can give. -/

namespace Sys2Proof.Machine

/-- The integrator leaves the phase at most 1.0 unless it is told to hold. -/
theorem integrate_le (ph0 inc : Nat) (loop : Bool) : (integrate ph0 inc loop false).1 ≤ 2 ^ 32 := by
  unfold integrate
  cases loop
  · exact Nat.min_le_right _ _
  · simp only [Bool.false_eq_true, if_false, if_true]
    exact (Nat.mod_lt _ (by norm_num)).le

@[simp] theorem integrate_hold (ph0 inc : Nat) (loop : Bool) : integrate ph0 inc loop true = (ph0, false) := rfl

theorem phaseWord_u32 (ph : Nat) : ((u32 (phaseWord ph)).toNat : Nat) = ph % 2 ^ 32 := by
  simp only [phaseWord, u32, BitVec.toNat_ofInt]
  omega

theorem phaseQ16_eq (ph : Nat) : phaseQ16 ph = ((ph / 65536 : Nat) : Int) := by
  simp [phaseQ16, asr]

theorem tapIncrement_lt (period : Nat) : tapIncrement period < 2 ^ 32 :=
  lt_of_le_of_lt (Nat.min_le_right _ _) (by norm_num)

theorem rateWith_bounds (rom : Config.Roms) (range : RangeSel) (a : Word) :
    1 ≤ rateWith rom range a ∧ rateWith rom range a ≤ 2 ^ 31 :=
  clamp_bounds _ _ _ (by norm_num)

theorem finishPhase_eq (s : State) (ph : Nat) (f : Flags) :
    s.finishPhase ph f = s.finish (phaseWord ph) (phaseQ16 ph) (flByte f) := rfl

/-- The interpolated rate lies between the two entries it is interpolated from (`44_phase_ramp.md` R192). -/
theorem rateCurve_between (rom : Config.Roms) (t lo hi : Int)
    (h1 : lo ≤ rateRom rom (asr t 8).toNat ∧ rateRom rom (asr t 8).toNat ≤ hi)
    (h2 : lo ≤ rateRom rom (min ((asr t 8).toNat + 1) 256) ∧ rateRom rom (min ((asr t 8).toNat + 1) 256) ≤ hi) :
    lo ≤ rateCurve rom t ∧ rateCurve rom t ≤ hi := by
  have hf := fmod_bounds t 256 (by norm_num)
  have hb := asr_bounds ((rateRom rom (min ((asr t 8).toNat + 1) 256) - rateRom rom (asr t 8).toNat) * fmod t 256) 8
  unfold rateCurve
  simp only [Config.NRATE]
  norm_num at hb ⊢
  constructor
  · by_contra hc
    nlinarith
  · by_contra hc
    nlinarith

end Sys2Proof.Machine
end

