-- ==== Sys2Proof/Laws/Quantizer.lean ====
section
/-! SUPPORT. What the scan of `QNT.PROC` finds, for any function in the codebook's place. -/

namespace Sys2Proof.Machine

/-- The scan gives the first of the nearest among `best` and the `count` candidates from `k` on. -/
theorem scanNearest_first_nearest (C : Int → Int) (p : Int) (count : Nat) (k best : Int) (hb : best < k) :
    let r := scanNearest C p count k best
    (r = best ∨ (k ≤ r ∧ r < k + count)) ∧
    ∀ j, (j = best ∨ (k ≤ j ∧ j < k + count)) →
      (p - C r).natAbs ≤ (p - C j).natAbs ∧ (j < r → (p - C r).natAbs < (p - C j).natAbs) := by
  induction count generalizing k best with
  | zero =>
    refine ⟨.inl rfl, ?_⟩
    rintro j (rfl | ⟨h1, h2⟩)
    · exact ⟨le_rfl, fun h => absurd h (lt_irrefl _)⟩
    · exfalso; push_cast at h2; omega
  | succ n ih =>
    simp only [scanNearest]
    by_cases hd : (p - C k).natAbs < (p - C best).natAbs
    · rw [if_pos hd]
      obtain ⟨hr, hj⟩ := ih (k + 1) k (by omega)
      refine ⟨?_, ?_⟩
      · rcases hr with hr | hr
        · right; push_cast; omega
        · right; push_cast; omega
      · have hk := hj k (.inl rfl)
        rintro j (rfl | ⟨h1, h2⟩)
        · exact ⟨by omega, fun _ => by omega⟩
        · rcases eq_or_lt_of_le h1 with rfl | h
          · exact hk
          · exact hj j (.inr ⟨by omega, by push_cast at h2; omega⟩)
    · rw [if_neg hd]
      obtain ⟨hr, hj⟩ := ih (k + 1) best (by omega)
      refine ⟨?_, ?_⟩
      · rcases hr with hr | hr
        · exact .inl hr
        · right; push_cast; omega
      · have hbst := hj best (.inl rfl)
        rintro j (rfl | ⟨h1, h2⟩)
        · exact hbst
        · rcases eq_or_lt_of_le h1 with rfl | h
          · refine ⟨by omega, fun hlt => ?_⟩
            rcases hr with hr | hr
            · omega
            · have := hbst.2 (by omega)
              omega
          · exact hj j (.inr ⟨by omega, by push_cast at h2; omega⟩)

/-- Record `s + 1` begins after `s` records of 18 words (`20_memory.md` R65). -/
@[simp] theorem scaleBase_succ (s : Nat) : scaleBase (s + 1) = 18 * s := rfl

theorem scaleCount_le (rom : Config.Roms) (sc : Nat) : scaleCount rom sc ≤ 16 := Nat.min_le_right _ _

theorem scaleSpan_bounds (rom : Config.Roms) (sc : Nat) :
    -2 ^ 31 ≤ scaleSpan rom sc ∧ scaleSpan rom sc < 2 ^ 31 := by
  have h1 := BitVec.le_toInt (rom.scaleWord (scaleBase sc))
  have h2 := BitVec.toInt_lt (x := rom.scaleWord (scaleBase sc))
  exact ⟨by simpa [scaleSpan] using h1, by simpa [scaleSpan] using h2⟩

theorem scaleNote_bounds (rom : Config.Roms) (sc j : Nat) :
    -2 ^ 31 ≤ scaleNote rom sc j ∧ scaleNote rom sc j < 2 ^ 31 := by
  have h1 := BitVec.le_toInt (rom.scaleWord (scaleBase sc + 2 + j))
  have h2 := BitVec.toInt_lt (x := rom.scaleWord (scaleBase sc + 2 + j))
  exact ⟨by simpa [scaleNote] using h1, by simpa [scaleNote] using h2⟩

theorem scaleUsable_iff (rom : Config.Roms) (sc : Nat) :
    scaleUsable rom sc = true ↔ sc ≠ 0 ∧ 1 ≤ scaleCount rom sc ∧ 0 < scaleSpan rom sc := by
  simp [scaleUsable]

theorem inCell_iff (s : State) (p : Int) :
    s.inCell p = true ↔ s.qv = true ∧ s.qpb.toInt ≤ p ∧ p ≤ s.qnb.toInt := by
  simp [State.inCell]

/-- What a search gives: the first of the nearest among the `n + 2` candidates of R132. -/
theorem searchNearest_first_nearest (rom : Config.Roms) (sc : Nat) (p : Int) :
    let n : Int := scaleCount rom sc
    let oct : Int := p / scaleSpan rom sc
    let r := searchNearest rom sc p
    (oct * n - 1 ≤ r ∧ r ≤ oct * n + n) ∧
    ∀ j, oct * n - 1 ≤ j → j ≤ oct * n + n →
      (p - codebook rom sc r).natAbs ≤ (p - codebook rom sc j).natAbs ∧
      (j < r → (p - codebook rom sc r).natAbs < (p - codebook rom sc j).natAbs) := by
  intro n oct r
  have h := scanNearest_first_nearest (codebook rom sc) p (scaleCount rom sc + 1) (oct * n) (oct * n - 1) (by omega)
  have hr : scanNearest (codebook rom sc) p (scaleCount rom sc + 1) (oct * n) (oct * n - 1) = r := rfl
  have hc : ((scaleCount rom sc + 1 : Nat) : Int) = n + 1 := by push_cast; rfl
  have hn : 0 ≤ n := Int.natCast_nonneg _
  rw [hc, hr] at h
  obtain ⟨h1, h2⟩ := h
  exact ⟨by omega, fun j hj1 hj2 => h2 j (by omega)⟩

theorem codebook_def (rom : Config.Roms) (sc : Nat) (k : Int) :
    codebook rom sc k = k / (scaleCount rom sc : Int) * scaleSpan rom sc +
      scaleNote rom sc (k % (scaleCount rom sc : Int)).toNat := rfl

theorem cellBoundary_def (c cw : Int) : cellBoundary c cw = (9 * c + 7 * cw) / 16 := rfl

theorem quantized_eq (s : State) (b : Word) (chg : Bool) :
    s.quantized b chg = s.finish (sat32 (s.qcw.toInt + sview b)) s.qix.toNat (flByte { qen := true, chg := chg }) := rfl

end Sys2Proof.Machine
end

