-- ==== Sys2Proof/Laws/Random.lean ====
section
/-! SUPPORT. The ranges of the random primitives. -/

namespace Sys2Proof.Machine

theorem top16_bounds (r : Word) : 0 ≤ top16 r ∧ top16 r ≤ 65535 := by
  have h := uview_bounds r
  unfold top16 asr
  omega

theorem drawSum_bounds (k : Nat) (rs : Word) : 0 ≤ (drawSum k rs).1 ∧ (drawSum k rs).1 ≤ 65535 * k := by
  induction k generalizing rs with
  | zero => simp [drawSum]
  | succ k ih =>
    have h1 := top16_bounds (draw rs)
    have h2 := ih (draw rs)
    simp only [drawSum]
    push_cast
    omega

theorem drawSum_succ (k : Nat) (rs : Word) :
    drawSum (k + 1) rs = (top16 (draw rs) + (drawSum k (draw rs)).1, (drawSum k (draw rs)).2) := by
  rw [drawSum]

theorem drawSum_rs (k : Nat) (rs : Word) : (drawSum k rs).2 = draw^[k] rs := by
  induction k generalizing rs with
  | zero => rfl
  | succ k ih => rw [drawSum_succ, Function.iterate_succ_apply, ← ih]

theorem gauss_rs (rs : Word) : (gauss rs).rs = draw^[4] rs := by
  have h : (gauss rs).rs = (drawSum Config.NGAUSS rs).2 := by rw [gauss]
  rw [h, drawSum_rs, show Config.NGAUSS = 4 from rfl]

theorem gauss_tot_bounds (rs : Word) : 0 ≤ (gauss rs).tot ∧ (gauss rs).tot ≤ 262140 := by
  have h := drawSum_bounds Config.NGAUSS rs
  simpa [gauss, Config.NGAUSS] using h

theorem gauss_g (rs : Word) : (gauss rs).g = ((gauss rs).tot - 131072) * 113512 / 65536 := by
  simp [gauss, asr, Config.K_GAUSS]

theorem gauss_g_bounds (rs : Word) : -227024 ≤ (gauss rs).g ∧ (gauss rs).g ≤ 227017 := by
  have h := gauss_tot_bounds rs
  rw [gauss_g]
  omega

/-- A reflected position lies inside the bounds (`42_random.md` R157). -/
theorem reflect_bounds (y lo hi : Int) (h : lo ≤ hi) : lo ≤ reflect y lo hi ∧ reflect y lo hi ≤ hi :=
  clamp_bounds _ _ _ h

theorem draw_def (rs : Word) : draw rs = BitVec.ofNat 32 (rs.toNat * 1664525 + 1013904223) := rfl

theorem top16_def (r : Word) : top16 r = ((r.toNat / 65536 : Nat) : Int) := by
  simp [top16, asr, uview]

end Sys2Proof.Machine
end

