-- ==== Sys2Proof/Laws/SampleHold.lean ====
section
/-! SUPPORT. What one sample does to the hold register. -/

namespace Sys2Proof.Machine

/-- With the gate absent nothing is captured and nothing reported (`46_sample_hold.md` R241). -/
theorem snhNext_absent (gf : GateFlags) (track : Bool) (a sh : Word) (h : gfAbsent gf = true) :
    snhNext gf track a sh = (sh, false) := by
  simp [snhNext, h]

/-- Sample-and-hold captures, and reports, on a rising edge only. -/
theorem snhNext_sample (gf : GateFlags) (a sh : Word) :
    snhNext gf false a sh = if gfRising gf then (a, true) else (sh, false) := by
  cases h : gfAbsent gf <;> simp [snhNext, gfRising, gfAbsent] at h ⊢ <;> simp [h]

/-- Track-and-hold follows while the gate is up and reports its fall. -/
theorem snhNext_track (gf : GateFlags) (a sh : Word) (h : gfAbsent gf = false) :
    snhNext gf true a sh = (if gfHigh gf || gfRising gf then a else sh, gfFalling gf) := by
  simp [snhNext, h]

end Sys2Proof.Machine
end

