-- ==== Sys2Proof/Laws/State.lean ====
section
/-! SUPPORT. One lemma per field per named update of the state, so that no later proof unfolds a record
update, and the slot read of the TM bank after each update. -/

namespace Sys2Proof.Machine

/-! ## `State.finish` -/

@[simp] theorem State.finish_y0 (s : State) (y0 y1 : Int) (fl : BitVec 8) :
    (s.finish y0 y1 fl).y0 = u32 y0 := rfl
@[simp] theorem State.finish_y1 (s : State) (y0 y1 : Int) (fl : BitVec 8) :
    (s.finish y0 y1 fl).y1 = u32 y1 := rfl
@[simp] theorem State.finish_fl (s : State) (y0 y1 : Int) (fl : BitVec 8) : (s.finish y0 y1 fl).fl = fl := rfl
@[simp] theorem State.finish_qen (s : State) (y0 y1 : Int) (fl : BitVec 8) :
    (s.finish y0 y1 fl).qen = s.qen := rfl
@[simp] theorem State.finish_qv (s : State) (y0 y1 : Int) (fl : BitVec 8) :
    (s.finish y0 y1 fl).qv = s.qv := rfl
@[simp] theorem State.finish_qscl (s : State) (y0 y1 : Int) (fl : BitVec 8) :
    (s.finish y0 y1 fl).qscl = s.qscl := rfl
@[simp] theorem State.finish_qcw (s : State) (y0 y1 : Int) (fl : BitVec 8) :
    (s.finish y0 y1 fl).qcw = s.qcw := rfl
@[simp] theorem State.finish_qpb (s : State) (y0 y1 : Int) (fl : BitVec 8) :
    (s.finish y0 y1 fl).qpb = s.qpb := rfl
@[simp] theorem State.finish_qnb (s : State) (y0 y1 : Int) (fl : BitVec 8) :
    (s.finish y0 y1 fl).qnb = s.qnb := rfl
@[simp] theorem State.finish_qix (s : State) (y0 y1 : Int) (fl : BitVec 8) :
    (s.finish y0 y1 fl).qix = s.qix := rfl
@[simp] theorem State.finish_rs (s : State) (y0 y1 : Int) (fl : BitVec 8) :
    (s.finish y0 y1 fl).rs = s.rs := rfl
@[simp] theorem State.finish_wx (s : State) (y0 y1 : Int) (fl : BitVec 8) :
    (s.finish y0 y1 fl).wx = s.wx := rfl
@[simp] theorem State.finish_wlo (s : State) (y0 y1 : Int) (fl : BitVec 8) :
    (s.finish y0 y1 fl).wlo = s.wlo := rfl
@[simp] theorem State.finish_whi (s : State) (y0 y1 : Int) (fl : BitVec 8) :
    (s.finish y0 y1 fl).whi = s.whi := rfl
@[simp] theorem State.finish_tm (s : State) (y0 y1 : Int) (fl : BitVec 8) :
    (s.finish y0 y1 fl).tm = s.tm := rfl
@[simp] theorem State.finish_ph (s : State) (y0 y1 : Int) (fl : BitVec 8) :
    (s.finish y0 y1 fl).ph = s.ph := rfl
@[simp] theorem State.finish_rxp (s : State) (y0 y1 : Int) (fl : BitVec 8) :
    (s.finish y0 y1 fl).rxp = s.rxp := rfl
@[simp] theorem State.finish_rxf (s : State) (y0 y1 : Int) (fl : BitVec 8) :
    (s.finish y0 y1 fl).rxf = s.rxf := rfl
@[simp] theorem State.finish_rxc (s : State) (y0 y1 : Int) (fl : BitVec 8) :
    (s.finish y0 y1 fl).rxc = s.rxc := rfl
@[simp] theorem State.finish_rxv (s : State) (y0 y1 : Int) (fl : BitVec 8) :
    (s.finish y0 y1 fl).rxv = s.rxv := rfl
@[simp] theorem State.finish_sh (s : State) (y0 y1 : Int) (fl : BitVec 8) :
    (s.finish y0 y1 fl).sh = s.sh := rfl
@[simp] theorem State.finish_dwp (s : State) (y0 y1 : Int) (fl : BitVec 8) :
    (s.finish y0 y1 fl).dwp = s.dwp := rfl
@[simp] theorem State.finish_dfc (s : State) (y0 y1 : Int) (fl : BitVec 8) :
    (s.finish y0 y1 fl).dfc = s.dfc := rfl
@[simp] theorem State.finish_ram (s : State) (y0 y1 : Int) (fl : BitVec 8) :
    (s.finish y0 y1 fl).ram = s.ram := rfl
@[simp] theorem State.finish_port (s : State) (y0 y1 : Int) (fl : BitVec 8) :
    (s.finish y0 y1 fl).port = s.port := rfl
@[simp] theorem State.finish_slot (s : State) (y0 y1 : Int) (fl : BitVec 8) (i : Fin Config.NSLOT) :
    (s.finish y0 y1 fl).slot i = s.slot i := rfl

/-! ## `State.setSlot` -/

@[simp] theorem State.setSlot_y0 (s : State) (i : Fin Config.NSLOT) (x : TmSlot) :
    (s.setSlot i x).y0 = s.y0 := rfl
@[simp] theorem State.setSlot_y1 (s : State) (i : Fin Config.NSLOT) (x : TmSlot) :
    (s.setSlot i x).y1 = s.y1 := rfl
@[simp] theorem State.setSlot_fl (s : State) (i : Fin Config.NSLOT) (x : TmSlot) :
    (s.setSlot i x).fl = s.fl := rfl
@[simp] theorem State.setSlot_qen (s : State) (i : Fin Config.NSLOT) (x : TmSlot) :
    (s.setSlot i x).qen = s.qen := rfl
@[simp] theorem State.setSlot_qv (s : State) (i : Fin Config.NSLOT) (x : TmSlot) :
    (s.setSlot i x).qv = s.qv := rfl
@[simp] theorem State.setSlot_qscl (s : State) (i : Fin Config.NSLOT) (x : TmSlot) :
    (s.setSlot i x).qscl = s.qscl := rfl
@[simp] theorem State.setSlot_qcw (s : State) (i : Fin Config.NSLOT) (x : TmSlot) :
    (s.setSlot i x).qcw = s.qcw := rfl
@[simp] theorem State.setSlot_qpb (s : State) (i : Fin Config.NSLOT) (x : TmSlot) :
    (s.setSlot i x).qpb = s.qpb := rfl
@[simp] theorem State.setSlot_qnb (s : State) (i : Fin Config.NSLOT) (x : TmSlot) :
    (s.setSlot i x).qnb = s.qnb := rfl
@[simp] theorem State.setSlot_qix (s : State) (i : Fin Config.NSLOT) (x : TmSlot) :
    (s.setSlot i x).qix = s.qix := rfl
@[simp] theorem State.setSlot_rs (s : State) (i : Fin Config.NSLOT) (x : TmSlot) :
    (s.setSlot i x).rs = s.rs := rfl
@[simp] theorem State.setSlot_wx (s : State) (i : Fin Config.NSLOT) (x : TmSlot) :
    (s.setSlot i x).wx = s.wx := rfl
@[simp] theorem State.setSlot_wlo (s : State) (i : Fin Config.NSLOT) (x : TmSlot) :
    (s.setSlot i x).wlo = s.wlo := rfl
@[simp] theorem State.setSlot_whi (s : State) (i : Fin Config.NSLOT) (x : TmSlot) :
    (s.setSlot i x).whi = s.whi := rfl
@[simp] theorem State.setSlot_tm (s : State) (i : Fin Config.NSLOT) (x : TmSlot) :
    (s.setSlot i x).tm = s.tm.set i x := rfl
@[simp] theorem State.setSlot_ph (s : State) (i : Fin Config.NSLOT) (x : TmSlot) :
    (s.setSlot i x).ph = s.ph := rfl
@[simp] theorem State.setSlot_rxp (s : State) (i : Fin Config.NSLOT) (x : TmSlot) :
    (s.setSlot i x).rxp = s.rxp := rfl
@[simp] theorem State.setSlot_rxf (s : State) (i : Fin Config.NSLOT) (x : TmSlot) :
    (s.setSlot i x).rxf = s.rxf := rfl
@[simp] theorem State.setSlot_rxc (s : State) (i : Fin Config.NSLOT) (x : TmSlot) :
    (s.setSlot i x).rxc = s.rxc := rfl
@[simp] theorem State.setSlot_rxv (s : State) (i : Fin Config.NSLOT) (x : TmSlot) :
    (s.setSlot i x).rxv = s.rxv := rfl
@[simp] theorem State.setSlot_sh (s : State) (i : Fin Config.NSLOT) (x : TmSlot) :
    (s.setSlot i x).sh = s.sh := rfl
@[simp] theorem State.setSlot_dwp (s : State) (i : Fin Config.NSLOT) (x : TmSlot) :
    (s.setSlot i x).dwp = s.dwp := rfl
@[simp] theorem State.setSlot_dfc (s : State) (i : Fin Config.NSLOT) (x : TmSlot) :
    (s.setSlot i x).dfc = s.dfc := rfl
@[simp] theorem State.setSlot_ram (s : State) (i : Fin Config.NSLOT) (x : TmSlot) :
    (s.setSlot i x).ram = s.ram := rfl
@[simp] theorem State.setSlot_port (s : State) (i : Fin Config.NSLOT) (x : TmSlot) :
    (s.setSlot i x).port = s.port := rfl
@[simp] theorem State.setSlot_slot_same (s : State) (i : Fin Config.NSLOT) (x : TmSlot) :
    (s.setSlot i x).slot i = x := by
  simp [State.slot]

theorem State.setSlot_slot_other (s : State) (i j : Fin Config.NSLOT) (x : TmSlot) (h : j ≠ i) :
    (s.setSlot i x).slot j = s.slot j := by
  have : (i : Nat) ≠ (j : Nat) := fun e => h (Fin.ext e.symm)
  simp [State.slot, Vector.getElem_set_ne _ _ this]

/-! ## `State.resetRegisters` and `State.hardwareReset` -/

@[simp] theorem State.resetRegisters_y0 (s : State) : (s.resetRegisters).y0 = State.reset.y0 := rfl
@[simp] theorem State.resetRegisters_y1 (s : State) : (s.resetRegisters).y1 = State.reset.y1 := rfl
@[simp] theorem State.resetRegisters_fl (s : State) : (s.resetRegisters).fl = State.reset.fl := rfl
@[simp] theorem State.resetRegisters_qen (s : State) : (s.resetRegisters).qen = State.reset.qen := rfl
@[simp] theorem State.resetRegisters_qv (s : State) : (s.resetRegisters).qv = State.reset.qv := rfl
@[simp] theorem State.resetRegisters_qscl (s : State) : (s.resetRegisters).qscl = State.reset.qscl := rfl
@[simp] theorem State.resetRegisters_qcw (s : State) : (s.resetRegisters).qcw = State.reset.qcw := rfl
@[simp] theorem State.resetRegisters_qpb (s : State) : (s.resetRegisters).qpb = State.reset.qpb := rfl
@[simp] theorem State.resetRegisters_qnb (s : State) : (s.resetRegisters).qnb = State.reset.qnb := rfl
@[simp] theorem State.resetRegisters_qix (s : State) : (s.resetRegisters).qix = State.reset.qix := rfl
@[simp] theorem State.resetRegisters_rs (s : State) : (s.resetRegisters).rs = State.reset.rs := rfl
@[simp] theorem State.resetRegisters_wx (s : State) : (s.resetRegisters).wx = State.reset.wx := rfl
@[simp] theorem State.resetRegisters_wlo (s : State) : (s.resetRegisters).wlo = State.reset.wlo := rfl
@[simp] theorem State.resetRegisters_whi (s : State) : (s.resetRegisters).whi = State.reset.whi := rfl
@[simp] theorem State.resetRegisters_tm (s : State) : (s.resetRegisters).tm = State.reset.tm := rfl
@[simp] theorem State.resetRegisters_ph (s : State) : (s.resetRegisters).ph = State.reset.ph := rfl
@[simp] theorem State.resetRegisters_rxp (s : State) : (s.resetRegisters).rxp = State.reset.rxp := rfl
@[simp] theorem State.resetRegisters_rxf (s : State) : (s.resetRegisters).rxf = State.reset.rxf := rfl
@[simp] theorem State.resetRegisters_rxc (s : State) : (s.resetRegisters).rxc = State.reset.rxc := rfl
@[simp] theorem State.resetRegisters_rxv (s : State) : (s.resetRegisters).rxv = State.reset.rxv := rfl
@[simp] theorem State.resetRegisters_sh (s : State) : (s.resetRegisters).sh = State.reset.sh := rfl
@[simp] theorem State.resetRegisters_dwp (s : State) : (s.resetRegisters).dwp = State.reset.dwp := rfl
@[simp] theorem State.resetRegisters_dfc (s : State) : (s.resetRegisters).dfc = State.reset.dfc := rfl
@[simp] theorem State.resetRegisters_ram (s : State) : (s.resetRegisters).ram = s.ram := rfl
@[simp] theorem State.resetRegisters_port (s : State) : (s.resetRegisters).port = s.port := rfl
@[simp] theorem State.hardwareReset_y0 (s : State) : (s.hardwareReset).y0 = State.reset.y0 := rfl
@[simp] theorem State.hardwareReset_y1 (s : State) : (s.hardwareReset).y1 = State.reset.y1 := rfl
@[simp] theorem State.hardwareReset_fl (s : State) : (s.hardwareReset).fl = State.reset.fl := rfl
@[simp] theorem State.hardwareReset_qen (s : State) : (s.hardwareReset).qen = State.reset.qen := rfl
@[simp] theorem State.hardwareReset_qv (s : State) : (s.hardwareReset).qv = State.reset.qv := rfl
@[simp] theorem State.hardwareReset_qscl (s : State) : (s.hardwareReset).qscl = State.reset.qscl := rfl
@[simp] theorem State.hardwareReset_qcw (s : State) : (s.hardwareReset).qcw = State.reset.qcw := rfl
@[simp] theorem State.hardwareReset_qpb (s : State) : (s.hardwareReset).qpb = State.reset.qpb := rfl
@[simp] theorem State.hardwareReset_qnb (s : State) : (s.hardwareReset).qnb = State.reset.qnb := rfl
@[simp] theorem State.hardwareReset_qix (s : State) : (s.hardwareReset).qix = State.reset.qix := rfl
@[simp] theorem State.hardwareReset_rs (s : State) : (s.hardwareReset).rs = State.reset.rs := rfl
@[simp] theorem State.hardwareReset_wx (s : State) : (s.hardwareReset).wx = State.reset.wx := rfl
@[simp] theorem State.hardwareReset_wlo (s : State) : (s.hardwareReset).wlo = State.reset.wlo := rfl
@[simp] theorem State.hardwareReset_whi (s : State) : (s.hardwareReset).whi = State.reset.whi := rfl
@[simp] theorem State.hardwareReset_tm (s : State) : (s.hardwareReset).tm = State.reset.tm := rfl
@[simp] theorem State.hardwareReset_ph (s : State) : (s.hardwareReset).ph = State.reset.ph := rfl
@[simp] theorem State.hardwareReset_rxp (s : State) : (s.hardwareReset).rxp = State.reset.rxp := rfl
@[simp] theorem State.hardwareReset_rxf (s : State) : (s.hardwareReset).rxf = State.reset.rxf := rfl
@[simp] theorem State.hardwareReset_rxc (s : State) : (s.hardwareReset).rxc = State.reset.rxc := rfl
@[simp] theorem State.hardwareReset_rxv (s : State) : (s.hardwareReset).rxv = State.reset.rxv := rfl
@[simp] theorem State.hardwareReset_sh (s : State) : (s.hardwareReset).sh = State.reset.sh := rfl
@[simp] theorem State.hardwareReset_dwp (s : State) : (s.hardwareReset).dwp = State.reset.dwp := rfl
@[simp] theorem State.hardwareReset_dfc (s : State) : (s.hardwareReset).dfc = State.reset.dfc := rfl
@[simp] theorem State.hardwareReset_ram (s : State) : (s.hardwareReset).ram = State.reset.ram := rfl
@[simp] theorem State.hardwareReset_port (s : State) : (s.hardwareReset).port = s.port := rfl
@[simp] theorem State.reset_slot (i : Fin Config.NSLOT) : State.reset.slot i = TmSlot.reset := by
  simp [State.slot, State.reset]

/-! ## `State.setCell` -/

@[simp] theorem State.setCell_y0 (s : State) (rom : Config.Roms) (k : Int) :
    (s.setCell rom k).y0 = s.y0 := rfl
@[simp] theorem State.setCell_y1 (s : State) (rom : Config.Roms) (k : Int) :
    (s.setCell rom k).y1 = s.y1 := rfl
@[simp] theorem State.setCell_fl (s : State) (rom : Config.Roms) (k : Int) :
    (s.setCell rom k).fl = s.fl := rfl
@[simp] theorem State.setCell_qen (s : State) (rom : Config.Roms) (k : Int) :
    (s.setCell rom k).qen = s.qen := rfl
@[simp] theorem State.setCell_qv (s : State) (rom : Config.Roms) (k : Int) :
    (s.setCell rom k).qv = true := rfl
@[simp] theorem State.setCell_qscl (s : State) (rom : Config.Roms) (k : Int) :
    (s.setCell rom k).qscl = s.qscl := rfl
@[simp] theorem State.setCell_qcw (s : State) (rom : Config.Roms) (k : Int) :
    (s.setCell rom k).qcw = BitVec.ofInt 40 (codebook rom s.qscl.toNat k) := rfl
@[simp] theorem State.setCell_qpb (s : State) (rom : Config.Roms) (k : Int) :
    (s.setCell rom k).qpb = BitVec.ofInt 40 (cellBoundary (codebook rom s.qscl.toNat (k - 1)) (codebook rom s.qscl.toNat k)) := rfl
@[simp] theorem State.setCell_qnb (s : State) (rom : Config.Roms) (k : Int) :
    (s.setCell rom k).qnb = BitVec.ofInt 40 (cellBoundary (codebook rom s.qscl.toNat (k + 1)) (codebook rom s.qscl.toNat k)) := rfl
@[simp] theorem State.setCell_qix (s : State) (rom : Config.Roms) (k : Int) :
    (s.setCell rom k).qix = BitVec.ofInt 4 (fmod k (scaleCount rom s.qscl.toNat)) := rfl
@[simp] theorem State.setCell_rs (s : State) (rom : Config.Roms) (k : Int) :
    (s.setCell rom k).rs = s.rs := rfl
@[simp] theorem State.setCell_wx (s : State) (rom : Config.Roms) (k : Int) :
    (s.setCell rom k).wx = s.wx := rfl
@[simp] theorem State.setCell_wlo (s : State) (rom : Config.Roms) (k : Int) :
    (s.setCell rom k).wlo = s.wlo := rfl
@[simp] theorem State.setCell_whi (s : State) (rom : Config.Roms) (k : Int) :
    (s.setCell rom k).whi = s.whi := rfl
@[simp] theorem State.setCell_tm (s : State) (rom : Config.Roms) (k : Int) :
    (s.setCell rom k).tm = s.tm := rfl
@[simp] theorem State.setCell_ph (s : State) (rom : Config.Roms) (k : Int) :
    (s.setCell rom k).ph = s.ph := rfl
@[simp] theorem State.setCell_rxp (s : State) (rom : Config.Roms) (k : Int) :
    (s.setCell rom k).rxp = s.rxp := rfl
@[simp] theorem State.setCell_rxf (s : State) (rom : Config.Roms) (k : Int) :
    (s.setCell rom k).rxf = s.rxf := rfl
@[simp] theorem State.setCell_rxc (s : State) (rom : Config.Roms) (k : Int) :
    (s.setCell rom k).rxc = s.rxc := rfl
@[simp] theorem State.setCell_rxv (s : State) (rom : Config.Roms) (k : Int) :
    (s.setCell rom k).rxv = s.rxv := rfl
@[simp] theorem State.setCell_sh (s : State) (rom : Config.Roms) (k : Int) :
    (s.setCell rom k).sh = s.sh := rfl
@[simp] theorem State.setCell_dwp (s : State) (rom : Config.Roms) (k : Int) :
    (s.setCell rom k).dwp = s.dwp := rfl
@[simp] theorem State.setCell_dfc (s : State) (rom : Config.Roms) (k : Int) :
    (s.setCell rom k).dfc = s.dfc := rfl
@[simp] theorem State.setCell_ram (s : State) (rom : Config.Roms) (k : Int) :
    (s.setCell rom k).ram = s.ram := rfl
@[simp] theorem State.setCell_port (s : State) (rom : Config.Roms) (k : Int) :
    (s.setCell rom k).port = s.port := rfl

/-! ## `State.withFetchWord` -/

@[simp] theorem State.withFetchWord_y0 (s : State) (nbits w : Nat) :
    (s.withFetchWord nbits w).y0 = s.y0 := rfl
@[simp] theorem State.withFetchWord_y1 (s : State) (nbits w : Nat) :
    (s.withFetchWord nbits w).y1 = s.y1 := rfl
@[simp] theorem State.withFetchWord_fl (s : State) (nbits w : Nat) :
    (s.withFetchWord nbits w).fl = s.fl := rfl
@[simp] theorem State.withFetchWord_qen (s : State) (nbits w : Nat) :
    (s.withFetchWord nbits w).qen = s.qen := rfl
@[simp] theorem State.withFetchWord_qv (s : State) (nbits w : Nat) :
    (s.withFetchWord nbits w).qv = s.qv := rfl
@[simp] theorem State.withFetchWord_qscl (s : State) (nbits w : Nat) :
    (s.withFetchWord nbits w).qscl = s.qscl := rfl
@[simp] theorem State.withFetchWord_qcw (s : State) (nbits w : Nat) :
    (s.withFetchWord nbits w).qcw = s.qcw := rfl
@[simp] theorem State.withFetchWord_qpb (s : State) (nbits w : Nat) :
    (s.withFetchWord nbits w).qpb = s.qpb := rfl
@[simp] theorem State.withFetchWord_qnb (s : State) (nbits w : Nat) :
    (s.withFetchWord nbits w).qnb = s.qnb := rfl
@[simp] theorem State.withFetchWord_qix (s : State) (nbits w : Nat) :
    (s.withFetchWord nbits w).qix = s.qix := rfl
@[simp] theorem State.withFetchWord_rs (s : State) (nbits w : Nat) :
    (s.withFetchWord nbits w).rs = s.rs := rfl
@[simp] theorem State.withFetchWord_wx (s : State) (nbits w : Nat) :
    (s.withFetchWord nbits w).wx = s.wx := rfl
@[simp] theorem State.withFetchWord_wlo (s : State) (nbits w : Nat) :
    (s.withFetchWord nbits w).wlo = s.wlo := rfl
@[simp] theorem State.withFetchWord_whi (s : State) (nbits w : Nat) :
    (s.withFetchWord nbits w).whi = s.whi := rfl
@[simp] theorem State.withFetchWord_tm (s : State) (nbits w : Nat) :
    (s.withFetchWord nbits w).tm = s.tm := rfl
@[simp] theorem State.withFetchWord_ph (s : State) (nbits w : Nat) :
    (s.withFetchWord nbits w).ph = s.ph := rfl
@[simp] theorem State.withFetchWord_rxp (s : State) (nbits w : Nat) :
    (s.withFetchWord nbits w).rxp = s.rxp := rfl
@[simp] theorem State.withFetchWord_rxf (s : State) (nbits w : Nat) :
    (s.withFetchWord nbits w).rxf = s.rxf := rfl
@[simp] theorem State.withFetchWord_rxc (s : State) (nbits w : Nat) :
    (s.withFetchWord nbits w).rxc = s.rxc := rfl
@[simp] theorem State.withFetchWord_rxv (s : State) (nbits w : Nat) :
    (s.withFetchWord nbits w).rxv = s.rxv := rfl
@[simp] theorem State.withFetchWord_sh (s : State) (nbits w : Nat) :
    (s.withFetchWord nbits w).sh = s.sh := rfl
@[simp] theorem State.withFetchWord_dwp (s : State) (nbits w : Nat) :
    (s.withFetchWord nbits w).dwp = s.dwp := rfl
@[simp] theorem State.withFetchWord_dfc (s : State) (nbits w : Nat) :
    (s.withFetchWord nbits w).dfc = s.dfc := rfl
@[simp] theorem State.withFetchWord_ram (s : State) (nbits w : Nat) :
    (s.withFetchWord nbits w).ram = s.ram := rfl
@[simp] theorem State.withFetchWord_port (s : State) (nbits w : Nat) :
    (s.withFetchWord nbits w).port = Command.ofTableBits nbits w :: s.port := rfl

/-! ## The register space at the TM bank's numbers -/

theorem readReg_tmsr (s : State) (k : Fin 36) : s.readReg (0x0300 + k) = (s.slot k).sr.zeroExtend 64 := by
  have hk := k.isLt
  have hi : (⟨0x0300 + k - 0x0300, by simp⟩ : Fin Config.NSLOT) = k := Fin.ext (by simp)
  unfold State.readReg
  rw [if_neg (by omega), dif_pos (by simp only [Config.NSLOT]; omega), hi]

theorem readReg_tmv (s : State) (k : Fin 36) : s.readReg (0x0340 + k) = (s.slot k).v.signExtend 64 := by
  have hk := k.isLt
  have hi : (⟨0x0340 + k - 0x0340, by simp⟩ : Fin Config.NSLOT) = k := Fin.ext (by simp)
  unfold State.readReg
  rw [if_neg (by omega), dif_neg (by simp only [Config.NSLOT]; omega), dif_pos (by simp only [Config.NSLOT]; omega), hi]

theorem readReg_tmn (s : State) (k : Fin 36) : s.readReg (0x0380 + k) = (s.slot k).n.zeroExtend 64 := by
  have hk := k.isLt
  have hi : (⟨0x0380 + k - 0x0380, by simp⟩ : Fin Config.NSLOT) = k := Fin.ext (by simp)
  unfold State.readReg
  rw [if_neg (by omega), dif_neg (by simp only [Config.NSLOT]; omega), dif_neg (by simp only [Config.NSLOT]; omega),
    dif_pos (by simp only [Config.NSLOT]; omega), hi]

end Sys2Proof.Machine
end

