-- ==== Sys2Proof/Laws/Turing.lean ====
section
/-! SUPPORT. The value function, the sequence length and the shift of the TM unit. -/

namespace Sys2Proof.Machine

theorem tmVal_unipolar_bounds (sr : BitVec 16) : 0 ≤ tmVal sr false ∧ tmVal sr false ≤ 65536 := by
  have h := sr.isLt
  have hb : (sr.getLsbD 15).toNat ≤ 1 := Bool.toNat_le _
  simp only [tmVal, Bool.false_eq_true, if_false]
  omega

theorem tmVal_bipolar (sr : BitVec 16) : tmVal sr true = 2 * tmVal sr false - 65536 := by
  simp [tmVal]

theorem tmVal_bounds (sr : BitVec 16) (bip : Bool) : -65536 ≤ tmVal sr bip ∧ tmVal sr bip ≤ 65536 := by
  have h := tmVal_unipolar_bounds sr
  cases bip
  · omega
  · rw [tmVal_bipolar]; omega

theorem tmSteps_bounds (b : Word) : 1 ≤ tmSteps b ∧ tmSteps b ≤ 16 := clamp_bounds _ _ _ (by norm_num)

theorem tmShift_top (sr : BitVec 16) (steps : Int) (flip : Bool) :
    (tmShift sr steps flip).getLsbD 15 = (sr.getLsbD (16 - steps).toNat ^^ flip) := by
  rw [tmShift, BitVec.getLsbD_cons]
  simp

theorem tmShift_low (sr : BitVec 16) (steps : Int) (flip : Bool) (j : Nat) (hj : j < 15) :
    (tmShift sr steps flip).getLsbD j = sr.getLsbD (j + 1) := by
  have : j ≠ 15 := by omega
  rw [tmShift, BitVec.getLsbD_cons]
  simp [this, hj, Nat.add_comm]

theorem tmFlip_iff (a r : Word) : tmFlip a r = true ↔ top16 r < tmProb a := by
  simp [tmFlip]

/-- The rescaled probability lies in -1024..66560 (`43_turing.md` R176). -/
theorem tmProb_bounds (a : Word) : -1024 ≤ tmProb a ∧ tmProb a ≤ 66560 := by
  have h := unitParam_bounds a
  unfold tmProb asr
  simp only [Config.TM_PSLOPE, Config.TM_POFF]
  omega

end Sys2Proof.Machine
end

