-- ==== Sys2Proof/Tests/Slice0.lean ====
section
/-! SUPPORT. Tests: words written out from the spec's encoding, ill-formed terms for each check, at most
two small steps per command with the results that `spec/` gives, and for each obligation with
hypotheses a state and operands that meet them. Expected values come from the rules' examples and from
`95_test_vectors.md`. -/

namespace Sys2Proof.Tests

open Sys2Proof Sys2Proof.Machine

/-! ## Decoding: words from `30_encoding.md` and from the examples of files 40 to 47 -/

theorem test_decode_sys_nop : decodeListed ⟨0x00000000, 0, 0⟩ = .ok .sysNop := by decide
theorem test_decode_sys_rst : decodeListed ⟨0x01000000, 0, 0⟩ = .ok .sysRst := by decide
theorem test_decode_sys_rd : decodeListed ⟨0x02000023, 0, 0⟩ = .ok (.sysRd 0x23) := by decide
theorem test_decode_qnt_cfg : decodeListed ⟨0x10000001, 0, 0⟩ = .ok (.qntCfg 1) := by decide
theorem test_decode_qnt_proc :
    decodeListed ⟨0x11000000, 0x12042, 0x20000⟩ = .ok (.qntProc 0x12042 0x20000) := by decide
theorem test_decode_rng_seed : decodeListed ⟨0x20000000, 5, 0⟩ = .ok (.rngSeed 5) := by decide
theorem test_decode_rng_next : decodeListed ⟨0x21000000, 0, 0⟩ = .ok .rngNext := by decide
theorem test_decode_rng_gauss : decodeListed ⟨0x22000000, 0, 0⟩ = .ok .rngGauss := by decide
theorem test_decode_rng_wbnd : decodeListed ⟨0x23000000, 1, 2⟩ = .ok (.rngWbnd 1 2) := by decide
theorem test_decode_rng_wset : decodeListed ⟨0x24000000, 7, 0⟩ = .ok (.rngWset 7) := by decide
theorem test_decode_rng_walk : decodeListed ⟨0x25000000, 7, 0⟩ = .ok (.rngWalk 7) := by decide
/-- Bits 16 and 15:0 of the word and bits 15:0 of `A`. -/
theorem test_decode_tm_load :
    decodeListed ⟨0x30010028, 0x12341235, 0⟩ = .ok (.tmLoad true 40 0x1235) := by decide
theorem test_decode_tm_adv : decodeListed ⟨0x31000001, 3, 4⟩ = .ok (.tmAdv false 1 3 4) := by decide
theorem test_decode_tm_get : decodeListed ⟨0x3200FFFF, 0, 0⟩ = .ok (.tmGet 0xFFFF) := by decide
theorem test_decode_pha_rst : decodeListed ⟨0x40000000, 0, 0⟩ = .ok .phaRst := by decide
/-- R104's example: `PHA.STEP.L.R gf=RISE A=0x01000000`. -/
theorem test_decode_pha_step :
    decodeListed ⟨0x41330000, 0x01000000, 0⟩ = .ok (.phaStep 0x3 true true false 0x01000000) := by decide
theorem test_decode_pha_rate_slow : decodeListed ⟨0x42000000, 9, 0⟩ = .ok (.phaRate .slow 9) := by decide
theorem test_decode_pha_rate_audio : decodeListed ⟨0x42030000, 9, 0⟩ = .ok (.phaRate .audio 9) := by decide
theorem test_decode_pha_set : decodeListed ⟨0x43000000, 9, 0⟩ = .ok (.phaSet 9) := by decide
theorem test_decode_pha_get : decodeListed ⟨0x44000000, 0, 0⟩ = .ok .phaGet := by decide
theorem test_decode_rx_rst : decodeListed ⟨0x50000000, 0, 0⟩ = .ok .rxRst := by decide
theorem test_decode_rx_step : decodeListed ⟨0x51800000, 6, 0⟩ = .ok (.rxStep 0x8 6) := by decide
theorem test_decode_osc_sin : decodeListed ⟨0x60010000, 6, 0⟩ = .ok (.oscSin true 6) := by decide
theorem test_decode_osc_saw : decodeListed ⟨0x61000000, 6, 0⟩ = .ok (.oscSaw false 6) := by decide
theorem test_decode_osc_tri : decodeListed ⟨0x62010000, 6, 0⟩ = .ok (.oscTri true 6) := by decide
theorem test_decode_snh_rst : decodeListed ⟨0x70000000, 0, 0⟩ = .ok .snhRst := by decide
theorem test_decode_snh_step : decodeListed ⟨0x71410000, 6, 0⟩ = .ok (.snhStep 0x4 true 6) := by decide
theorem test_decode_dly_rst : decodeListed ⟨0x80000000, 0, 0⟩ = .ok .dlyRst := by decide
theorem test_decode_dly_step : decodeListed ⟨0x810007D0, 6, 0⟩ = .ok (.dlyStep 2000 6) := by decide
theorem test_decode_dly_rd : decodeListed ⟨0x820003FF, 0, 0⟩ = .ok (.dlyRd 1023) := by decide
/-- Reserved pairs are rejected by name (R100). -/
theorem test_decode_reserved_unit : decodeListed ⟨0x90000000, 0, 0⟩ = .error (.reservedUnit 9) := by decide
theorem test_decode_reserved_op : decodeListed ⟨0x83000000, 0, 0⟩ = .error (.reservedOp 8 3) := by decide
/-- The opcode table's numbering: the command word is the lowest word, then `A`, then `B`. -/
theorem test_table_word :
    decodeTableWord 96 0x000200000001204211000000 = some (.qntProc 0x12042 0x20000) := by rfl

/-- The assembler line of R104's example. -/
theorem test_assemble_line :
    AsmLine.assemble { mnemonic := "PHA.STEP", suffixes := [.l, .r], gf := 0x3, a := 0x01000000 } =
      some ⟨0x41330000, 0x01000000, 0⟩ := by rfl
/-- R171's example line, with operand bits that the command ignores. -/
theorem test_assemble_ignored_bits :
    AsmLine.assemble { mnemonic := "TM.LOAD", imm := 40, a := 0x12341234 } =
      some ⟨0x30000028, 0x12341234, 0⟩ := by rfl
/-- A suffix that R104 does not allow on a command, and `PHA.RATE` without its range, are no lines. -/
theorem test_assemble_refuses :
    AsmLine.assemble { mnemonic := "TM.GET", suffixes := [.b] } = none ∧
    AsmLine.assemble { mnemonic := "PHA.RATE" } = none := by decide +kernel

/-! ## Well-formedness: each check refuses an ill-formed term (R309) -/

theorem test_wf_accepts : Instr.wellFormed (.phaStep 0x3 true true false 5) = true := by decide
theorem test_wf_pha_step_gate : Instr.wellFormed (.phaStep 0x6 true true false 5) = false := by decide
theorem test_wf_rx_step_gate : Instr.wellFormed (.rxStep 0xF 5) = false := by decide
theorem test_wf_snh_step_gate : Instr.wellFormed (.snhStep 0x5 true 5) = false := by decide
theorem test_wf_tm_adv_probability : Instr.wellFormed (.tmAdv false 0 0x10001 0) = false := by decide
theorem test_wf_tm_adv_length : Instr.wellFormed (.tmAdv false 0 0 0xFFFFFFFF) = false := by decide
theorem test_wf_pha_rate_time : Instr.wellFormed (.phaRate .slow 0x80000000) = false := by decide
theorem test_wf_pha_set_phase : Instr.wellFormed (.phaSet 0x10001) = false := by decide
theorem test_wf_ignored_field : Command.ignoredZero ⟨0x21000001, 0, 0⟩ = false := by decide
theorem test_wf_ignored_operand : Command.ignoredZero ⟨0x20000000, 5, 1⟩ = false := by decide
theorem test_wf_ignored_half : Command.ignoredZero ⟨0x30000000, 0x10000, 0⟩ = false := by decide
theorem test_wf_reserved : Command.ignoredZero ⟨0x90000000, 0, 0⟩ = false := by decide

/-! ## One step per command -/

/-- The results of one step that takes the given words from the port. -/
def results (s : State) (w a b : Word) : Option (Word × Word × BitVec 8) :=
  match step { s with port := [⟨w, a, b⟩] } with
  | .next t => some (t.y0, t.y1, t.fl)
  | _ => none

/-- The value of a field after one step. -/
def after {α : Type} (s : State) (w a b : Word) (f : State → α) : Option α :=
  match step { s with port := [⟨w, a, b⟩] } with
  | .next t => some (f t)
  | _ => none

/-- The results of a state. -/
def shown (t : State) : Word × Word × BitVec 8 := (t.y0, t.y1, t.fl)

/-- The fixture `SCALE_T` of `95_test_vectors.md` with `NSCALE_T`, and its `RATE_T`. -/
def romT : Config.Roms where
  nscale := 3
  scaleWord := fun i =>
    ([0x000C0000, 7, 0, 0x20000, 0x40000, 0x50000, 0x70000, 0x90000, 0xB0000] ++ List.replicate 9 0 ++
      [0x000C0000, 1] ++ List.replicate 16 0 ++ [0x000C0000] : List Word).getD i 0
  rateWord := fun i => BitVec.ofNat 32 ((300 - i) * 65536)

/-- The fixture `RATE_UP`. -/
def romUp : Config.Roms where
  nscale := 0
  scaleWord := fun _ => 0
  rateWord := fun i => if i = 256 then 0xFFFFFFFF else BitVec.ofNat 32 (i * 0x01000000)

/-- After `QNT.CFG #1` with the fixture. -/
def bound : State := qntCfgWith romT 1 State.reset
/-- After `QNT.PROC A=0x00006666` then, from R132's example: codeword 0. -/
def held : State := qntProcWith romT 0x00006666 0 bound

theorem test_sys_nop : results { State.reset with y0 := 5, fl := 7 } 0 0 0 = some (0, 0, 0) := by rfl
theorem test_reserved : results { State.reset with y0 := 5 } 0xF3123456 1 2 = some (0, 0, 0) := by rfl
theorem test_sys_rst : after { State.reset with rs := 0x3FB51B0C, ph := 9 } 0x01000000 0 0
    (fun t => (t.rs, t.ph, t.whi)) = some (0x21, 0, 0x10000) := by rfl
theorem test_sys_rd_id : results State.reset 0x02000000 0 0 = some (0x51535031, 0, 0) := by rfl
theorem test_sys_rd_signed : results { State.reset with qcw := -65536 } 0x02000013 0 0 =
    some (0xFFFF0000, 0xFFFFFFFF, 0) := by rfl
/-- R131's examples: `QNT.CFG #1`, and `QNT.CFG #9`, which binds scale 3, one without notes. -/
theorem test_qnt_cfg : shown bound = (1, 0, 8) ∧ bound.qen = true := by decide +kernel
theorem test_qnt_cfg_degenerate : shown (qntCfgWith romT 9 State.reset) = (0, 0, 0) ∧
    (qntCfgWith romT 9 State.reset).qscl = 3 := by decide +kernel
/-- R132's examples; the pitch -0.6 (floor of -0.6 * 65536 is -39322) finds the note -1.0. -/
theorem test_qnt_proc : shown held = (0, 0, 9) ∧ held.qpb.toInt = -36864 ∧ held.qnb.toInt = 73728 ∧
    shown (qntProcWith romT 0x00011FBE 0 held) = (0, 0, 8) ∧
    shown (qntProcWith romT 0x00012042 0 held) = (0x20000, 1, 9) ∧
    (qntProcWith romT (-39322) 0 bound).y0 = 0xFFFF0000 := by decide +kernel
theorem test_qnt_pass : results State.reset 0x11000000 0xFFFF1234 7 = some (0xFFFF1234, 0, 0) := by rfl
theorem test_rng_seed : after State.reset 0x20000000 7 0 State.rs = some 7 := by rfl
theorem test_rng_next : results State.reset 0x21000000 0 0 = some (0x3FB51B0C, 0x3FB5, 0) := by rfl
theorem test_rng_next_wraps : results { State.reset with rs := 0xFFFFFFFF } 0x21000000 0 0 =
    some (0x3C558D52, 0x3C55, 0) := by rfl
theorem test_rng_gauss : results State.reset 0x22000000 0 0 = some (0xFFFFB261, 0x0001D330, 0) := by rfl
theorem test_rng_wbnd : after State.reset 0x23000000 0x00010000 0xFFFF0000
    (fun t => (t.wlo, t.whi, t.wx)) = some (0xFFFF0000, 0x00010000, 0) := by rfl
theorem test_rng_wset : results State.reset 0x24000000 0x00020000 0 = some (0x10000, 0, 0) := by rfl
theorem test_rng_walk : results { State.reset with wx := 0x8000 } 0x25000000 0x4000 0 =
    some (0x6C98, 0xFFFFB261, 0) := by rfl
/-- R157's last example: reflected past the other bound, then clamped. -/
theorem test_rng_walk_clamped :
    after { State.reset with wlo := 0xFFFF0000, wx := 0x10000 } 0x25000000 0x00100000 0 State.wx =
      some 0x10000 := by rfl
theorem test_tm_load : results State.reset 0x30000000 0xACE1 0 = some (0xACE2, 0xACE1, 0) := by rfl
theorem test_tm_load_bipolar : results State.reset 0x30010000 0xACE1 0 = some (0x59C4, 0xACE1, 0) := by rfl
theorem test_tm_adv : results State.reset 0x31000001 0x8000 0x10000 = some (0x8001, 0x8000, 1) := by rfl
/-- R175's example: p = 0, four steps, 0xACE1 becomes 0x5670. -/
theorem test_tm_adv_locked :
    results (State.setSlot State.reset 0 { sr := 0xACE1, v := 0, n := 0 }) 0x31000000 0 0x3000 =
      some (0x5670, 0x5670, 1) := by rfl
theorem test_tm_get :
    results (State.setSlot State.reset 35 { sr := 0x1234, v := 0xFFFF0000, n := 0 }) 0x3200FFFF 0 0 =
      some (0xFFFF0000, 0x1234, 0) := by rfl
theorem test_pha_rst : after { State.reset with ph := 5 } 0x40000000 0 0 State.ph = some 0 := by rfl
/-- R191: the fourth step saturates; a looping step from 1.0 wraps. -/
theorem test_pha_step_done : results { State.reset with ph := 0xC0000000 } 0x41000000 0x40000000 0 =
    some (0, 0x10000, 2) := by rfl
theorem test_pha_step_wrap : results { State.reset with ph := 0x100000000 } 0x41010000 0x60000000 0 =
    some (0x60000000, 0x6000, 4) := by rfl
/-- R192: `PHA.RATE.DEF A=0x000080C0` and `PHA.RATE.FAST A=0x00008000` with the fixture `RATE_T`. -/
theorem test_pha_rate : rateWith romT .default 0x000080C0 = 0x00AB4000 ∧
    rateWith romT .fast 0x00008000 = 0x05600000 := by decide +kernel
/-- V-PHA: a table of zeros gives the floor, one of all ones the ceiling. -/
theorem test_pha_rate_clamp : rateWith { romT with rateWord := fun _ => 0 } .audio 0x8000 = 1 ∧
    rateWith { romT with rateWord := fun _ => 0xFFFFFFFF } .default 0x8000 = 0x80000000 := by decide +kernel
theorem test_pha_set : results State.reset 0x43000000 0x00020000 0 = some (0, 0x10000, 2) := by rfl
theorem test_pha_set_half : results State.reset 0x43000000 0x4001 0 = some (0x40010000, 0x4001, 0) := by rfl
theorem test_pha_get : results { State.reset with ph := 0x100000000 } 0x44000000 0 0 =
    some (0, 0x10000, 2) := by rfl
theorem test_rx_rst : after { State.reset with rxp := 1, rxf := 1, rxc := 1, rxv := true } 0x50000000 0 0
    (fun t => (t.rxp, t.rxf, t.rxc, t.rxv)) = some (0, 0, 0, false) := by rfl
/-- R202: a tap 7 samples after the last one. -/
theorem test_rx_step_tap : after { State.reset with rxc := 6, rxv := true } 0x51300000 0 0
    (fun t => (t.rxf, t.rxp, t.rxc, t.fl)) = some (0x24924924, 0, 0, 1) := by rfl
theorem test_rx_step_free : results { State.reset with rxp := 0xC0000000 } 0x51800000 0x60000000 0 =
    some (0x20000000, 0x2000, 4) := by rfl
/-- R220's examples: floor below 0 at 0x80008000 and the guard entry at 0xFFFFFFFF. -/
theorem test_osc_sin : results State.reset 0x60010000 0x80008000 0 = some (0xFFFFFFFC, 0, 0) := by rfl
theorem test_osc_sin_last : results State.reset 0x60000000 0xFFFFFFFF 0 = some (32767, 0, 0) := by rfl
theorem test_osc_saw : results State.reset 0x61010000 0x40008000 0 = some (-32767, 0, 0) := by rfl
theorem test_osc_tri : results State.reset 0x62000000 0x80008000 0 = some (0xFFFF, 0, 0) := by rfl
theorem test_osc_tri_bipolar : results State.reset 0x62010000 0xFFFFFFFF 0 = some (0xFFFF0002, 0, 0) := by rfl
theorem test_snh_rst : after { State.reset with sh := 0xBBB } 0x70000000 0 0 State.sh = some 0 := by rfl
/-- R241: ABSENT wins over RISING (0xB); high and falling (0x5) follows, then reports. -/
theorem test_snh_step : results { State.reset with sh := 0x222 } 0x71B00000 0x777 0 = some (0x222, 0, 0) := by rfl
theorem test_snh_step_track : results { State.reset with sh := 0x777 } 0x71510000 0x888 0 = some (0x888, 0, 1) := by rfl
theorem test_dly_rst : after { State.reset with dwp := 5, dfc := 5, ram := [(0, 0xA0)] } 0x80000000 0 0
    (fun t => (t.dwp, t.dfc, t.ram)) = some (0, 0, [(0, 0xA0)]) := by rfl
/-- R252: the second step of the first example, and the pointer's wrap at 1023. -/
theorem test_dly_step : results { State.reset with dwp := 1, dfc := 1, ram := [(0, 0xA0)] } 0x81000001 0xA1 0 =
    some (0xA0, 2, 0) := by rfl
theorem test_dly_step_wraps : after { State.reset with dwp := 1023, dfc := 1023 } 0x81000000 9 0
    (fun t => (t.dwp, t.dfc, t.y0, t.fl)) = some (0, 1024, 9, 0x10) := by rfl
/-- R253: across the wrap, and beyond the history. -/
theorem test_dly_rd : results { State.reset with dwp := 0, dfc := 1024, ram := [(1023, 0x77)] } 0x82000000 0 0 =
    some (0x77, 1024, 0x10) := by rfl
theorem test_dly_rd_short : results { State.reset with dwp := 5, dfc := 5 } 0x82000005 0 0 =
    some (0, 5, 0) := by rfl

/-! ## States and operands that meet the hypotheses of the statements -/

theorem scaleT_wellFormed : ScaleWellFormed romT 1 where
  index := by decide
  span := by decide +kernel
  count := by decide +kernel
  first := by decide +kernel
  rising := by
    have h : scaleCount romT 1 = 7 := by decide +kernel
    have h' : ∀ j, j < 6 → scaleNote romT 1 j < scaleNote romT 1 (j + 1) := by decide +kernel
    intro j hj
    exact h' j (by omega)
  last := by decide +kernel

/-- `ReservedWordsExecuteAsNop`: reserved pairs at the edges of R100's ranges, and listed neighbours. -/
theorem test_witness_reserved :
    (reservedPair 9 0 && reservedPair 15 15 && reservedPair 0 3 && reservedPair 1 2 && reservedPair 2 6 &&
      reservedPair 3 3 && reservedPair 4 5 && reservedPair 5 2 && reservedPair 6 3 && reservedPair 7 2 &&
      reservedPair 8 3) = true ∧
    (reservedPair 0 2 || reservedPair 1 1 || reservedPair 2 5 || reservedPair 3 2 || reservedPair 4 4 ||
      reservedPair 5 1 || reservedPair 6 2 || reservedPair 7 1 || reservedPair 8 2) = false := by decide

/-- `EncodingADecodedWordKeepsItsUsedBits` and `IgnoredBitsHaveNoEffect`: two words of TM.LOAD that
differ in every ignored bit. -/
theorem test_witness_ignored :
    ∃ c c' m : Command, c ≠ c' ∧ c.opcode = c'.opcode ∧ usedBits c.opcode = some m ∧ c.masked m = c'.masked m ∧
      c.a.extractLsb' 0 16 = c'.a.extractLsb' 0 16 ∧ c.cmd.extractLsb' 24 8 = 0x30 :=
  ⟨⟨0x30010028, 0x00001234, 0⟩, ⟨0x30FF0028, 0xFFFF1234, 0xFFFFFFFF⟩, ⟨0x0001FFFF, 0x0000FFFF, 0⟩, by decide⟩

/-- `StepRunsTheCommandAtThePort`: a state with a command at its port, and one without. -/
theorem test_witness_port : { State.reset with port := [⟨0, 0, 0⟩] }.port = [⟨0, 0, 0⟩] ∧ State.reset.port = [] := by
  decide

/-- `FlagBitsComeFromTheirCommandsOnly`: commands after which each of the five bits is 1. -/
theorem test_witness_flags :
    after State.reset 0x41320000 5 0 State.fl = some 0x01 ∧
    after State.reset 0x43000000 0x10000 0 State.fl = some 0x02 ∧
    after { State.reset with rxp := 0x80000000 } 0x51800000 0x80000000 0 State.fl = some 0x04 ∧
    after { State.reset with qen := true, qv := true } 0x11000000 0 0 State.fl = some 0x08 ∧
    after { State.reset with dfc := 1024, ram := [(1023, 0)] } 0x82000000 0 0 State.fl = some 0x10 ∧
    after { State.reset with rxf := 1, rxp := 0xFFFFFFFF } 0x51000000 0 0 State.fl = some 0x02 ∧
    (Instr.sysRd 0x0002 ≠ .sysRd 0x0003) := by decide +kernel

/-- `ResultRegistersAreNeverOperands`, `UnitsKeepToTheirOwnState`, `DrawsDependOnTheCommandOnly`,
`DelayRamIsReachedByDelayCommandsOnly`: RX.RST is none of the commands they leave out, and is of none of
the units other than RX. -/
theorem test_witness_plain_command :
    (∀ n, Instr.rxRst ≠ .sysRd n) ∧ Instr.rxRst ≠ .sysRst ∧ Instr.rxRst ≠ .rngNext ∧ Instr.rxRst ≠ .rngGauss ∧
    (∀ a, Instr.rxRst ≠ .rngSeed a) ∧ (∀ a, Instr.rxRst ≠ .rngWalk a) ∧
    (∀ p i a b, Instr.rxRst ≠ .tmAdv p i a b) ∧ (∀ i a, Instr.rxRst ≠ .dlyStep i a) ∧
    (∀ i, Instr.rxRst ≠ .dlyRd i) ∧ unitOf .rxRst ≠ .qnt ∧ unitOf .rxRst ≠ .rng ∧ unitOf .rxRst ≠ .tm ∧
    unitOf .rxRst ≠ .pha ∧ unitOf .rxRst ≠ .snh ∧ unitOf .rxRst ≠ .dly ∧ unitOf .snhRst ≠ .rx := by
  refine ⟨?_, ?_, ?_, ?_, ?_, ?_, ?_, ?_, ?_, ?_, ?_, ?_, ?_, ?_, ?_, ?_⟩ <;> intros <;> nofun

/-- `ResetLeavesEveryRegisterAtItsListedValue`: the two states it speaks of. -/
theorem test_witness_reset :
    ∃ s t : State, t ≠ State.reset ∧ t = s.hardwareReset :=
  ⟨{ State.reset with port := [⟨0, 0, 0⟩] }, { State.reset with port := [⟨0, 0, 0⟩] }, by decide +kernel⟩

/-- `SysRdReturnsTheNumberedRegister`: the edges of the three ranges of the TM bank, and the numbers
next to them, which read 0; a boundary register at -2^32 and one unit below. -/
theorem test_witness_sys_rd :
    let s := { State.reset with tm := Vector.replicate 36 { sr := 0x8001, v := 0xFFFFFFFF, n := 16 } }
    after s 0x02000300 0 0 State.y0 = some 0x8001 ∧ after s 0x02000323 0 0 State.y0 = some 0x8001 ∧
    after s 0x02000340 0 0 State.y1 = some 0xFFFFFFFF ∧ after s 0x02000363 0 0 State.y1 = some 0xFFFFFFFF ∧
    after s 0x02000380 0 0 State.y0 = some 16 ∧ after s 0x020003A3 0 0 State.y0 = some 16 ∧
    after s 0x02000324 0 0 State.y0 = some 0 ∧ after s 0x02000364 0 0 State.y0 = some 0 ∧
    after s 0x020003A4 0 0 State.y0 = some 0 ∧ after s 0x020002FF 0 0 State.y0 = some 0 ∧
    after { s with qpb := -0x100000000 } 0x02000014 0 0 State.y1 = some 0xFFFFFFFF ∧
    after { s with qpb := -0x100000001 } 0x02000014 0 0 State.y1 = some 0xFFFFFFFE := by decide +kernel

/-- `QntProcPassesKeepsOrSearches`: disabled; inside the cell at each boundary; just outside each; no
codeword held. -/
theorem test_witness_qnt_proc :
    State.reset.qen = false ∧
    (held.qen = true ∧ held.qv = true ∧ held.qpb.toInt = (-36864 : Word).toInt - (0 : Word).toInt ∧
      held.qnb.toInt = (73728 : Word).toInt - (0 : Word).toInt) ∧
    (held.inCell (-36864) = true ∧ held.inCell 73728 = true ∧ held.inCell (-36865) = false ∧
      held.inCell 73729 = false) ∧
    bound.qen = true ∧ bound.qv = false := by decide +kernel

/-- `QuantizerRegistersHoldExactValues`, `SearchFindsTheNearestMember`: an enabled quantizer with a
usable, well-formed scale that searches. -/
theorem test_witness_search :
    ScaleWellFormed romT bound.qscl.toNat ∧ bound.qen = true ∧ scaleUsable romT bound.qscl.toNat = true ∧
    bound.inCell ((0x6666 : Word).toInt - (0 : Word).toInt) = false ∧ 1 ≤ scaleCount romT 1 := by
  refine ⟨?_, ?_⟩
  · have h : bound.qscl.toNat = 1 := by decide +kernel
    rw [h]
    exact scaleT_wellFormed
  · decide +kernel

/-- `QuantizingAQuantizedPitchKeepsIt`: a held cell of a well-formed scale, and no saturation. -/
theorem test_witness_idempotence :
    ScaleWellFormed romT held.qscl.toNat ∧ held.qen = true ∧ held.qv = true ∧ held.CellOf romT ∧
    (-2147483648 ≤ (qntProcWith romT 0x12042 0 held).qcw.toInt + (0 : Word).toInt ∧
      (qntProcWith romT 0x12042 0 held).qcw.toInt + (0 : Word).toInt ≤ 2147483647) := by
  refine ⟨?_, by decide +kernel, by decide +kernel, ⟨0, ?_⟩, by decide +kernel⟩
  · have h : held.qscl.toNat = 1 := by decide +kernel
    rw [h]
    exact scaleT_wellFormed
  · decide +kernel

/-- `HysteresisKeepsTheCodewordPastTheMidpoint`: codeword 0 is member 0; pitches at both ends of the
upper and of the lower outer part of its cell (R140's example above). -/
theorem test_witness_hysteresis :
    held.qen = true ∧ held.qv = true ∧ held.qcw.toInt = codebook romT held.qscl.toNat 0 ∧
    held.qpb.toInt = cellBoundary (codebook romT held.qscl.toNat (0 - 1)) (codebook romT held.qscl.toNat 0) ∧
    held.qnb.toInt = cellBoundary (codebook romT held.qscl.toNat (0 + 1)) (codebook romT held.qscl.toNat 0) ∧
    (codebook romT 1 0 + codebook romT 1 (0 + 1) < 2 * 65537 ∧ (65537 : Int) ≤ held.qnb.toInt ∧
      (73728 : Int) ≤ held.qnb.toInt) ∧
    (2 * (-32768) ≤ codebook romT 1 (0 - 1) + codebook romT 1 0 ∧ held.qpb.toInt ≤ (-32768 : Int) ∧
      held.qpb.toInt ≤ (-36864 : Int)) := by decide +kernel

/-- `RngWalkReflectsOnceThenClamps`: bounds in order, a walk inside them, and a zero scale. -/
theorem test_witness_walk :
    State.reset.wlo.toInt ≤ State.reset.whi.toInt ∧ State.reset.wlo.toInt ≤ State.reset.wx.toInt ∧
    State.reset.wx.toInt ≤ State.reset.whi.toInt ∧ (0 : Word) = 0 := by decide

/-- `LengthAndProbabilityMapsAreTheTables`, each clause at the ends of its range. -/
theorem test_witness_maps :
    (0x0FFF : Word).toInt < 4096 ∧ (0x80000000 : Word).toInt < 4096 ∧
    (0 * 4096 ≤ (0 : Word).toInt ∧ (0xFFF : Word).toInt ≤ 0 * 4096 + 4095) ∧
    (15 * 4096 ≤ (0xF000 : Word).toInt ∧ (0xFFFF : Word).toInt ≤ 15 * 4096 + 4095) ∧
    65536 ≤ (0x10000 : Word).toInt ∧ tmSteps 0xFFF = 1 ∧ tmSteps 0x1000 = 2 ∧ tmSteps 0xEFFF = 15 ∧
    tmSteps 0xF000 = 16 ∧ tmSteps 0x10000 = 16 ∧
    tmFlip 993 0 = false ∧ tmFlip 994 0 = true ∧ tmFlip 64543 0xFFFFFFFF = false ∧ tmFlip 64544 0xFFFFFFFF = true := by
  decide +kernel

/-- `LockedRegisterRepeatsItsFirstBits`: both locks at their ends. -/
theorem test_witness_lock :
    max 0 (min 65536 (993 : Word).toInt) ≤ 993 ∧ 64544 ≤ max 0 (min 65536 (64544 : Word).toInt) := by decide

/-- `RateCurveIsMonotonicForAMonotonicTable`: the fixtures `RATE_T`, falling, and `RATE_UP`, rising. -/
theorem test_witness_rate : RateFalling romT ∧ RateRising romUp ∧ (0x8000 : Word).toInt ≤ (0x80C0 : Word).toInt := by
  refine ⟨?_, ?_, by decide⟩
  · unfold RateFalling
    decide +kernel
  · unfold RateRising
    decide +kernel

/-- `RampEndsAtItsStepAndHoldsThere`: a run that ends exactly at its last step, one a step short, an
empty run, and a rising flag. -/
theorem test_witness_ramp :
    State.reset.ph = 0 ∧ 1 ≤ (0x40000000 : Word).toNat ∧
    (∀ g ∈ ([0x0, 0x1, 0x4, 0x8] : List GateFlags), g.getLsbD 3 = true ∨ g.getLsbD 1 = false) ∧
    (2 ^ 32 + 0x40000000 - 1) / 0x40000000 = 4 ∧ ¬ (2 ^ 32 + 0x40000000 - 1) / 0x40000000 ≤ 3 ∧
    (0x3 : GateFlags).getLsbD 3 = false ∧ (0x3 : GateFlags).getLsbD 1 = true := by decide

/-- `TapRampFollowsTheTapPeriod`: two taps on successive samples (N = 1), or with three samples between
(N = 4), then samples between taps. -/
theorem test_witness_taps :
    (0x3 : GateFlags).getLsbD 3 = false ∧ (0x3 : GateFlags).getLsbD 1 = true ∧
    (0x2 : GateFlags).getLsbD 3 = false ∧ (0x2 : GateFlags).getLsbD 1 = true ∧
    (∀ g ∈ ([(0x1, 0), (0x4, 5), (0x0, 9)] ++ [(0x5, 1)] : List (GateFlags × Word)),
      g.1.getLsbD 3 = false ∧ g.1.getLsbD 1 = false) ∧
    ([(0x1, 0), (0x4, 5), (0x0, 9)] : List (GateFlags × Word)).length + 1 ≤ 2 ^ 32 ∧
    ([] : List (GateFlags × Word)).length + 1 ≤ 2 ^ 32 := by
  refine ⟨by decide, by decide, by decide, by decide, by simp, by norm_num, by norm_num⟩

/-- `TapRampFollowsTheTapPeriod`: samples between two taps that are `2 ^ 32 + 1` samples apart. -/
theorem test_witness_taps_far : ∃ gap : List (GateFlags × Word),
    (∀ g ∈ gap ++ [], g.1.getLsbD 3 = false ∧ g.1.getLsbD 1 = false) ∧ 2 ^ 32 < gap.length + 1 := by
  refine ⟨List.replicate (2 ^ 32) (0x1, 0), fun g hg => ?_, by rw [List.length_replicate]; omega⟩
  rw [List.append_nil] at hg
  rw [List.eq_of_mem_replicate hg]
  decide

/-- `FreeRunningRampAdvancesModuloOne`: the gate absent, the ramp at the top of its range. -/
theorem test_witness_free :
    (0x8 : GateFlags).getLsbD 3 = true ∧ { State.reset with rxp := 0xFFFFFFFF }.rxp.toNat < 2 ^ 32 := by decide

/-- `OscTriFoldsAtHalfACycle`, `OscillatorShapesKeepRangeOrderAndSymmetry`: phases at the edges of the
clauses. -/
theorem test_witness_phases :
    ((0x8000 : Word) ≠ 0 ∧ (0x8000 : Word).toNat % 2 ^ 15 = 0) ∧ ((0xFF0000FF : Word).toNat / 2 ^ 8 % 2 ^ 16 = 0 ∧
      (0xFF000000 : Word).toNat / 2 ^ 8 % 2 ^ 16 = 0 ∧ (0xFF000000 : Word).toNat % 2 ^ 8 = 0) ∧
    ((0x7FFFFFFF : Word).toNat ≤ (0x80000000 : Word).toNat ∧ (0x80000000 : Word).toNat ≤ 2 ^ 31) ∧
    (2 ^ 31 ≤ (0x80000000 : Word).toNat ∧ (0x80000000 : Word).toNat ≤ (0xFFFFFFFF : Word).toNat) := by decide

/-- `DlyStepWritesCountsThenReads`, `DelayLineReturnsTheSampleDStepsBack`: a zero delay and another index;
a run of two samples with the delays 0 and 1, and 2, which is beyond it. -/
theorem test_witness_delay :
    min (0 : BitVec 16).toNat 1023 = 0 ∧ 1 ≠ State.reset.dwp.toNat ∧
    1 < ([(0, 7), (3, 8)] : List (BitVec 16 × Word)).length ∧
    ([(0, 7), (3, 8)] : List (BitVec 16 × Word)).length ≤ 2 ∧ 2 ≤ 1023 := by decide

/-- One sample written; the rest of the RAM differs from `stale`. -/
def oneSample : State := { State.reset with dwp := 1, dfc := 1, ram := [(0, 0xA0)] }

/-- `StaleAndUnwrittenWordsAreNeverObserved`: two different RAMs that agree on the one valid word. -/
theorem test_witness_stale :
    oneSample.dfc.toNat ≤ 1024 ∧ oneSample.ram ≠ [(0, 0xA0), (5, 9)] ∧
    (∀ j, j < oneSample.dfc.toNat → Memory.read oneSample.ram ((oneSample.dwp.toNat + 1023 - j) % 1024) =
      Memory.read [(0, 0xA0), (5, 9)] ((oneSample.dwp.toNat + 1023 - j) % 1024)) ∧
    oneSample.DelayFilled ∧ execAll [.snhRst] oneSample = .next { oneSample with sh := 0 } := by
  refine ⟨by decide, by decide, ?_, ⟨by decide, by decide, by decide +kernel⟩, rfl⟩
  intro j hj
  have h : j = 0 := by
    have : oneSample.dfc.toNat = 1 := rfl
    omega
  subst h
  decide +kernel

/-- `EveryStepKeepsTheInvariant`: a state other than the reset state that meets the invariant and a step
from it. -/
theorem test_witness_invariant :
    ∃ s t : State, s.Inv ∧ step s = .next t ∧ t ≠ s := by
  refine ⟨{ oneSample with ph := 0x100000000, fl := 0x10, port := [⟨0x41010000, 1, 0⟩] }, _, ?_, rfl, ?_⟩
  · refine ⟨by decide, by decide, by decide, ?_, by decide, by decide, Nat.zero_le _, rfl, nofun,
      ⟨by decide, by decide, by decide +kernel⟩⟩
    have h : ∀ i, (oneSample.slot i).v.toInt = tmVal (oneSample.slot i).sr false ∧ (oneSample.slot i).n.toNat ≤ 16 := by
      decide +kernel
    exact fun i => ⟨.inl (h i).1, (h i).2⟩
  · decide +kernel

end Sys2Proof.Tests
end

/-! # Decoding what was encoded (`30_encoding.md` R91 to R99) -/

namespace Sys2Proof

/-- The unit's number, bits 31:28 of the command word, is the upper half of the opcode byte (R91). -/
theorem Command.unitNumber_eq (c : Command) : c.cmd.toNat / 2 ^ 28 = c.opcode.toNat / 16 := by
  have hlt := c.cmd.isLt
  simp only [Command.opcode, BitVec.extractLsb'_toNat, Nat.shiftRight_eq_div_pow]
  omega

/-- The unit's number in a word built from its fields. -/
theorem cmdWord_unitNumber (op : BitVec 8) (gf : GateFlags) (m : BitVec 4) (imm : BitVec 16) :
    (cmdWord op gf m imm).toNat / 2 ^ 28 = op.toNat / 16 := by
  rw [Command.unitNumber_eq ⟨cmdWord op gf m imm, 0, 0⟩, cmdWord_opcode]

/-- The three `mod` bits of a word built by `modField`, read back (R95). -/
theorem cmdWord_modField (op : BitVec 8) (gf : GateFlags) (b0 b1 b2 : Bool) (imm : BitVec 16) (a b : Word) :
    Command.modBit ⟨cmdWord op gf (modField b0 b1 b2) imm, a, b⟩ 0 = b0 ∧
    Command.modBit ⟨cmdWord op gf (modField b0 b1 b2) imm, a, b⟩ 1 = b1 ∧
    Command.modBit ⟨cmdWord op gf (modField b0 b1 b2) imm, a, b⟩ 2 = b2 := by
  obtain ⟨h0, h1, h2, -⟩ := modField_bits b0 b1 b2
  simp only [Command.modBit, cmdWord_mod]
  exact ⟨h0, h1, h2⟩

/-- The low half of a zero-extended half word is that half word (`TM.LOAD`, R97). -/
theorem extractLsb'_setWidth_half (x : BitVec 16) : (x.setWidth 32).extractLsb' 0 16 = x := by
  rw [← BitVec.setWidth_eq_extractLsb' (by decide), BitVec.setWidth_setWidth_of_le _ (by decide), BitVec.setWidth_eq]

/-- The opcode byte of an encoded command selects its own row of the decoder (R98), and each field the
row reads was written by the encoder; `PHA.RATE` is the one row that decodes a field further. -/
theorem decodeListed_encode (i : Instr) : decodeListed (encode i) = .ok i := by
  cases i with
  | phaRate range a =>
    simp only [decodeListed, encode, cmdWord_opcode, cmdWord_mod]
    exact congrArg (fun r => Except.ok (Instr.phaRate r a)) (RangeSel.ofBits_toBits range)
  | _ =>
    simp [decodeListed, encode, cmdWord_opcode, cmdWord_gf, cmdWord_imm, cmdWord_modField, extractLsb'_setWidth_half]

@[simp] theorem decode_encode (i : Instr) : decode (encode i) = i := by
  rw [decode, decodeListed_encode]

end Sys2Proof

namespace Sys2Proof.Machine

/-! # What the commands of each unit can write (`00_scope.md` R2)

One lemma per unit: the next state is the old one with new values for registers of that unit only, and
then the results every command writes (`40_system.md` R120). The frame of a command is read off from it. -/

section Writes

variable (i : Instr) (s : State)

/-- SYS has no state of its own; `SYS.RST`, which writes every register, is set apart. -/
theorem exec_sys_writes (hu : unitOf i = .sys) (hr : i ≠ .sysRst) :
    ∃ y0 y1 fl, exec i s = .next (s.finish y0 y1 fl) := by
  cases i with
  | sysNop => exact ⟨_, _, _, rfl⟩
  | sysRst => exact absurd rfl hr
  | sysRd imm => exact ⟨_, _, _, rfl⟩
  | _ => cases hu

/-- `QNT.PROC` searches, keeps the held codeword or passes its operand (`41_quantizer.md` R132). -/
theorem exec_qnt_writes (hu : unitOf i = .qnt) :
    ∃ qen qv qscl qcw qpb qnb qix y0 y1 fl, exec i s = .next
      ({ s with qen := qen, qv := qv, qscl := qscl, qcw := qcw, qpb := qpb, qnb := qnb, qix := qix }.finish
        y0 y1 fl) := by
  cases i with
  | qntCfg imm => exact ⟨_, _, _, _, _, _, _, _, _, _, rfl⟩
  | qntProc a b =>
    simp only [exec, execQntProc, qntProcWith]
    split
    · exact ⟨s.qen, s.qv, s.qscl, s.qcw, s.qpb, s.qnb, s.qix, _, _, _, rfl⟩
    · split
      · exact ⟨s.qen, s.qv, s.qscl, s.qcw, s.qpb, s.qnb, s.qix, _, _, _, rfl⟩
      · exact ⟨_, _, _, _, _, _, _, _, _, _, rfl⟩
  | _ => cases hu

theorem exec_rng_writes (hu : unitOf i = .rng) :
    ∃ rs wx wlo whi y0 y1 fl, exec i s = .next
      ({ s with rs := rs, wx := wx, wlo := wlo, whi := whi }.finish y0 y1 fl) := by
  cases i with
  | rngSeed a => exact ⟨_, s.wx, s.wlo, s.whi, _, _, _, rfl⟩
  | rngNext => exact ⟨_, s.wx, s.wlo, s.whi, _, _, _, rfl⟩
  | rngGauss => exact ⟨_, s.wx, s.wlo, s.whi, _, _, _, rfl⟩
  | rngWbnd a b => exact ⟨s.rs, _, _, _, _, _, _, rfl⟩
  | rngWset a => exact ⟨s.rs, _, s.wlo, s.whi, _, _, _, rfl⟩
  | rngWalk a => exact ⟨_, _, s.wlo, s.whi, _, _, _, rfl⟩
  | _ => cases hu

/-- `TM.ADV` draws from the generator of RNG, the exception R2 names; no other command of TM does. -/
theorem exec_tm_writes (hu : unitOf i = .tm) :
    ∃ rs tm y0 y1 fl, exec i s = .next ({ s with rs := rs, tm := tm }.finish y0 y1 fl) ∧
      ((∀ bip imm a b, i ≠ .tmAdv bip imm a b) → rs = s.rs) := by
  cases i with
  | tmLoad bip imm sr => exact ⟨s.rs, _, _, _, _, rfl, fun _ => rfl⟩
  | tmAdv bip imm a b => exact ⟨_, _, _, _, _, rfl, fun hn => absurd rfl (hn bip imm a b)⟩
  | tmGet imm => exact ⟨s.rs, s.tm, _, _, _, rfl, fun _ => rfl⟩
  | _ => cases hu

theorem exec_pha_writes (hu : unitOf i = .pha) :
    ∃ ph y0 y1 fl, exec i s = .next ({ s with ph := ph }.finish y0 y1 fl) := by
  cases i with
  | phaRst => exact ⟨_, _, _, _, rfl⟩
  | phaStep gf loop retrig hold a => exact ⟨_, _, _, _, rfl⟩
  | phaRate range a => exact ⟨s.ph, _, _, _, rfl⟩
  | phaSet a => exact ⟨_, _, _, _, rfl⟩
  | phaGet => exact ⟨s.ph, _, _, _, rfl⟩
  | _ => cases hu

/-- Each of the three branches of `RX.STEP` (`44_phase_ramp.md` R202) writes the ramp's registers only. -/
theorem exec_rx_writes (hu : unitOf i = .rx) :
    ∃ rxp rxf rxc rxv y0 y1 fl, exec i s = .next
      ({ s with rxp := rxp, rxf := rxf, rxc := rxc, rxv := rxv }.finish y0 y1 fl) := by
  cases i with
  | rxRst => exact ⟨_, _, _, _, _, _, _, rfl⟩
  | rxStep gf a =>
    simp only [exec, execRxStep]
    split
    · exact ⟨_, s.rxf, s.rxc, s.rxv, _, _, _, rfl⟩
    · split
      · exact ⟨_, _, _, _, _, _, _, rfl⟩
      · exact ⟨_, s.rxf, _, s.rxv, _, _, _, rfl⟩
  | _ => cases hu

/-- OSC has no state (`10_state.md` R32). -/
theorem exec_osc_writes (hu : unitOf i = .osc) : ∃ y0 y1 fl, exec i s = .next (s.finish y0 y1 fl) := by
  cases i with
  | oscSin bip a => exact ⟨_, _, _, rfl⟩
  | oscSaw bip a => exact ⟨_, _, _, rfl⟩
  | oscTri bip a => exact ⟨_, _, _, rfl⟩
  | _ => cases hu

theorem exec_snh_writes (hu : unitOf i = .snh) :
    ∃ sh y0 y1 fl, exec i s = .next ({ s with sh := sh }.finish y0 y1 fl) := by
  cases i with
  | snhRst => exact ⟨_, _, _, _, rfl⟩
  | snhStep gf track a => exact ⟨_, _, _, _, rfl⟩
  | _ => cases hu

theorem exec_dly_writes (hu : unitOf i = .dly) :
    ∃ dwp dfc ram y0 y1 fl, exec i s = .next
      ({ s with dwp := dwp, dfc := dfc, ram := ram }.finish y0 y1 fl) := by
  cases i with
  | dlyRst => exact ⟨_, _, s.ram, _, _, _, rfl⟩
  | dlyStep imm a => exact ⟨_, _, _, _, _, _, rfl⟩
  | dlyRd imm => exact ⟨s.dwp, s.dfc, s.ram, _, _, _, rfl⟩
  | _ => cases hu

end Writes

/-- The number of each unit (R2, `30_encoding.md` R98). -/
theorem encode_unitNumber (i : Instr) : (encode i).cmd.toNat / 2 ^ 28 =
    match unitOf i with
    | .sys => 0 | .qnt => 1 | .rng => 2 | .tm => 3 | .pha => 4 | .rx => 5 | .osc => 6 | .snh => 7 | .dly => 8 := by
  cases i <;> exact cmdWord_unitNumber _ _ _ _

/-- Settles O10: the frame of a command is read off from the lemma that says what its unit can write. -/
theorem unitsKeepToTheirOwnState : Obligations.UnitsKeepToTheirOwnState := by
  refine ⟨encode_unitNumber, fun i s hr => ?_⟩
  cases hu : unitOf i with
  | sys =>
    obtain ⟨y0, y1, fl, h⟩ := exec_sys_writes i s hu hr
    exact ⟨_, h, by simp⟩
  | qnt =>
    obtain ⟨qen, qv, qscl, qcw, qpb, qnb, qix, y0, y1, fl, h⟩ := exec_qnt_writes i s hu
    exact ⟨_, h, by simp⟩
  | rng =>
    obtain ⟨rs, wx, wlo, whi, y0, y1, fl, h⟩ := exec_rng_writes i s hu
    exact ⟨_, h, by simp⟩
  | tm =>
    obtain ⟨rs, tm, y0, y1, fl, h, hrs⟩ := exec_tm_writes i s hu
    exact ⟨_, h, by simpa using hrs⟩
  | pha =>
    obtain ⟨ph, y0, y1, fl, h⟩ := exec_pha_writes i s hu
    exact ⟨_, h, by simp⟩
  | rx =>
    obtain ⟨rxp, rxf, rxc, rxv, y0, y1, fl, h⟩ := exec_rx_writes i s hu
    exact ⟨_, h, by simp⟩
  | osc =>
    obtain ⟨y0, y1, fl, h⟩ := exec_osc_writes i s hu
    exact ⟨_, h, by simp⟩
  | snh =>
    obtain ⟨sh, y0, y1, fl, h⟩ := exec_snh_writes i s hu
    exact ⟨_, h, by simp⟩
  | dly =>
    obtain ⟨dwp, dfc, ram, y0, y1, fl, h⟩ := exec_dly_writes i s hu
    exact ⟨_, h, by simp⟩

/-! # The command port (`10_state.md` R20, log 1) -/

/-- `QNT.PROC` does not look at the commands still at the port, in any of its branches. -/
theorem qntProcWith_port (rom : Config.Roms) (a b : Word) (s : State) (p : List Command) :
    qntProcWith rom a b { s with port := p } = { qntProcWith rom a b s with port := p } := by
  have hcell : State.inCell { s with port := p } (pitchOf a b) = s.inCell (pitchOf a b) := rfl
  simp only [qntProcWith, hcell]
  split
  · rfl
  · split <;> rfl

/-- What a command does to the registers and the delay RAM does not depend on the commands still at the
port, and it leaves those there. -/
theorem exec_withPort (i : Instr) (s : State) :
    ∃ t, exec i s = .next t ∧ ∀ p, exec i { s with port := p } = .next { t with port := p } := by
  cases i with
  | qntProc a b => exact ⟨_, rfl, fun p => congrArg _ (qntProcWith_port Config.roms a b s p)⟩
  | rxStep gf a =>
    simp only [exec, execRxStep]
    split
    · exact ⟨_, rfl, fun _ => rfl⟩
    · split <;> exact ⟨_, rfl, fun _ => rfl⟩
  | rngGauss =>
    simp only [exec, execRngGauss]
    exact ⟨_, rfl, fun _ => rfl⟩
  | rngWalk a =>
    simp only [exec, execRngWalk]
    exact ⟨_, rfl, fun _ => rfl⟩
  | _ => exact ⟨_, rfl, fun _ => rfl⟩

theorem exec_keeps_port (i : Instr) (s : State) : ∃ t, exec i s = .next t ∧ t.port = s.port := by
  obtain ⟨t, -, hport⟩ := exec_withPort i s
  exact ⟨_, hport s.port, rfl⟩

theorem step_of_port_nil (s : State) (h : s.port = []) : step s = .next s := by
  rw [step, h]

theorem step_of_port_cons (s : State) (c : Command) (rest : List Command) (h : s.port = c :: rest) :
    step s = exec (decode c) { s with port := rest } := by
  rw [step, h]

theorem step_encode_cons (s : State) (i : Instr) (rest : List Command) :
    step { s with port := encode i :: rest } = exec i { s with port := rest } := by
  rw [step_of_port_cons _ (encode i) rest rfl, decode_encode]

/-- The command issued by `withFetchWord` is the one the next step executes (`20_memory.md` R75). -/
theorem step_withFetchWord (s : State) (nbits w : Nat) :
    step (s.withFetchWord nbits w) = exec (decode (Command.ofTableBits nbits w)) s :=
  step_of_port_cons _ _ _ (State.withFetchWord_port s nbits w)

/-- A machine whose first step answers `t` runs on from `t`. -/
theorem run_succ_of_next (M : Host.Core) {s t : M.State} (k : Nat) (h : M.step s = .next t) :
    M.run (k + 1) s = M.run k t := by
  simp only [Host.Core.run, h]

theorem execAll_cons_of_next {i : Instr} {s t : State} (is : List Instr) (h : exec i s = .next t) :
    execAll (i :: is) s = execAll is t := by
  rw [execAll, h]

/-- A run of the machine and the execution of its commands, by induction on the commands: the port that
the first leaves is the one the others begin with (`exec_withPort`). -/
theorem run_encode_append (is : List Instr) (s : State) (rest : List Command) :
    Host.Core.run Sys2Proof.core is.length { s with port := is.map encode ++ rest } =
      execAll is { s with port := rest } := by
  induction is generalizing s with
  | nil => rfl
  | cons i is ih =>
    obtain ⟨t, -, hport⟩ := exec_withPort i s
    have hstep : step { s with port := encode i :: (is.map encode ++ rest) } =
        .next { t with port := is.map encode ++ rest } := by
      rw [step_encode_cons, hport]
    rw [execAll_cons_of_next is (hport rest), ← ih t]
    exact run_succ_of_next Sys2Proof.core is.length hstep

/-- Settles O6: the clauses are the rules of `step` above, the run by induction on its commands. -/
theorem stepRunsTheCommandAtThePort : Obligations.StepRunsTheCommandAtThePort :=
  ⟨step_of_port_cons, step_encode_cons, run_encode_append, step_of_port_nil,
    fun s nbits w => congrArg some (step_withFetchWord s nbits w), exec_keeps_port⟩

end Sys2Proof.Machine

namespace Sys2Proof.Machine

/-! # The legal values of the registers (`10_state.md` R25, R27 to R34)

One rule per named update of the state first: what keeps the invariant when only these registers are
written. Then what each command writes, and the invariant of its next state read off from the rules. -/

section Rules

variable {s : State}

/-- The fill state of the delay line reads the registers of unit DLY and the RAM only. -/
theorem State.DelayFilled.congr {t : State} (h : s.DelayFilled) (hdwp : t.dwp = s.dwp) (hdfc : t.dfc = s.dfc)
    (hram : t.ram = s.ram) : t.DelayFilled where
  count := hdfc ▸ h.count
  filling := by simpa only [hdfc, hdwp] using h.filling
  written := by simpa only [hdfc, hdwp, hram] using h.written

/-- The three result registers are free but for bits 7:5 of `FL` (`40_system.md` R120). -/
theorem State.Inv.finish {y0 y1 : Int} {fl : BitVec 8} (h : s.Inv) (hfl : fl.toNat < 32) :
    (s.finish y0 y1 fl).Inv :=
  { h with flags := hfl, delay := h.delay.congr rfl rfl rfl }

/-- The end of a command whose flags are `f`. -/
theorem State.Inv.finish_flByte {y0 y1 : Int} {f : Flags} (h : s.Inv) : (s.finish y0 y1 (flByte f)).Inv :=
  h.finish (flByte_lt f)

theorem State.Inv.withPort (h : s.Inv) (p : List Command) : State.Inv { s with port := p } :=
  { h with delay := h.delay.congr rfl rfl rfl }

theorem State.Inv.withRs (h : s.Inv) (rs : Word) : State.Inv { s with rs := rs } :=
  { h with delay := h.delay.congr rfl rfl rfl }

theorem State.Inv.withSh (h : s.Inv) (sh : Word) : State.Inv { s with sh := sh } :=
  { h with delay := h.delay.congr rfl rfl rfl }

/-- A walk set to integers in order that 32 bits hold. -/
theorem State.Inv.withWalk {lo x hi : Int} (h : s.Inv) (hlo : -2 ^ 31 ≤ lo) (hx : lo ≤ x ∧ x ≤ hi)
    (hhi : hi < 2 ^ 31) : State.Inv { s with wlo := u32 lo, whi := u32 hi, wx := u32 x } := by
  refine { h with walk := ?_, delay := h.delay.congr rfl rfl rfl }
  change (u32 lo).toInt ≤ (u32 x).toInt ∧ (u32 x).toInt ≤ (u32 hi).toInt
  rw [u32_toInt lo hlo (by omega), u32_toInt x (by omega) (by omega), u32_toInt hi (by omega) hhi]
  exact hx

/-- A new position between the bounds that stand. -/
theorem State.Inv.withWx {x : Int} (h : s.Inv) (hx : s.wlo.toInt ≤ x ∧ x ≤ s.whi.toInt) :
    State.Inv { s with wx := u32 x } := by
  have hset := h.withWalk (lo := s.wlo.toInt) (hi := s.whi.toInt) (sview_bounds s.wlo).1 hx
    (sview_bounds s.whi).2
  rwa [u32_toInt_word, u32_toInt_word] at hset

/-- A phase register that holds `n` holds at most 1.0 if `n` does (`10_state.md` R30, R31). -/
theorem ofNat33_toNat_of_le {n : Nat} (hn : n ≤ 2 ^ 32) : (BitVec.ofNat 33 n).toNat = n := by
  rw [BitVec.toNat_ofNat, Nat.mod_eq_of_lt (by omega)]

theorem State.Inv.withPh {n : Nat} (h : s.Inv) (hn : n ≤ 2 ^ 32) : State.Inv { s with ph := BitVec.ofNat 33 n } :=
  { h with phase := (ofNat33_toNat_of_le hn).trans_le hn, delay := h.delay.congr rfl rfl rfl }

theorem State.Inv.withRamp {n : Nat} {rxf rxc : Word} {rxv : Bool} (h : s.Inv) (hn : n ≤ 2 ^ 32) :
    State.Inv { s with rxp := BitVec.ofNat 33 n, rxf := rxf, rxc := rxc, rxv := rxv } :=
  { h with ramp := (ofNat33_toNat_of_le hn).trans_le hn, delay := h.delay.congr rfl rfl rfl }

/-- What R29 says of one record of the TM bank. -/
def TmSlot.Legal (x : TmSlot) : Prop :=
  (x.v.toInt = tmVal x.sr false ∨ x.v.toInt = tmVal x.sr true) ∧ x.n.toNat ≤ 16

/-- A record written by a TM command: its value is that of its register, in either variant. -/
theorem TmSlot.legal_of_tmVal (sr : BitVec 16) (bip : Bool) {n : BitVec 5} (hn : n.toNat ≤ 16) :
    TmSlot.Legal { sr := sr, v := u32 (tmVal sr bip), n := n } := by
  have hb := tmVal_bounds sr bip
  have hv : (u32 (tmVal sr bip)).toInt = tmVal sr bip := u32_toInt _ (by omega) (by omega)
  refine ⟨?_, hn⟩
  cases bip with
  | false => exact .inl hv
  | true => exact .inr hv

/-- The sequence length, 1 to 16, fits the 5 bits of `TMN`. -/
theorem tmSteps_toNat_le (b : Word) : (BitVec.ofInt 5 (tmSteps b)).toNat ≤ 16 := by
  have h := tmSteps_bounds b
  rw [BitVec.toNat_ofInt]
  omega

theorem State.Inv.setSlot {i : Fin Config.NSLOT} {x : TmSlot} (h : s.Inv) (hx : x.Legal) : (s.setSlot i x).Inv := by
  refine { h with turing := fun j => ?_, delay := h.delay.congr rfl rfl rfl }
  by_cases hj : j = i
  · rw [hj, State.setSlot_slot_same]
    exact hx
  · rw [State.setSlot_slot_other s i j x hj]
    exact h.turing j

end Rules

/-! ## The quantizer's cell (`41_quantizer.md` R132, R133) -/

section Cell

variable {rom : Config.Roms} {sc : Nat}

/-- The scale index fits the 16 bits of `QSCL`, `NSCALE` being at most 65535 (`00_scope.md` R9). -/
theorem scaleIndex_toNat (rom : Config.Roms) (imm : BitVec 16) :
    (BitVec.ofNat 16 (scaleIndex rom imm)).toNat = scaleIndex rom imm := by
  have hle := scaleIndex_le rom imm
  rw [BitVec.toNat_ofNat, Nat.mod_eq_of_lt (by omega)]

theorem pitchOf_bounds (a b : Word) : -2 ^ 32 < pitchOf a b ∧ pitchOf a b < 2 ^ 32 := by
  have ha := sview_bounds a
  have hb := sview_bounds b
  unfold pitchOf
  omega

/-- A member at most one index away from the candidates of a search lies within a few spans of the pitch,
so that 40 bits hold it: the division by the span that picks the octave bounds the multiple of the span,
and the note is a 32-bit word. -/
theorem codebook_near_pitch {p k : Int} (hu : scaleUsable rom sc = true) (hp : -2 ^ 32 < p ∧ p < 2 ^ 32)
    (hlo : p / scaleSpan rom sc * scaleCount rom sc - 2 ≤ k)
    (hhi : k ≤ p / scaleSpan rom sc * scaleCount rom sc + scaleCount rom sc + 1) :
    -2 ^ 35 ≤ codebook rom sc k ∧ codebook rom sc k < 2 ^ 35 := by
  obtain ⟨-, hn, hspan⟩ := (scaleUsable_iff rom sc).mp hu
  have hspan' := (scaleSpan_bounds rom sc).2
  have hnote := scaleNote_bounds rom sc (k % scaleCount rom sc).toNat
  rw [codebook_def]
  generalize scaleNote rom sc (k % scaleCount rom sc).toNat = note at hnote ⊢
  have hn' : (1 : Int) ≤ scaleCount rom sc := by exact_mod_cast hn
  generalize (scaleCount rom sc : Int) = n at hn' hlo hhi ⊢
  generalize scaleSpan rom sc = span at hspan hspan' hlo hhi ⊢
  have hoct : p / span - 2 ≤ k / n ∧ k / n ≤ p / span + 2 := by
    constructor
    · exact (Int.le_ediv_iff_mul_le (by omega)).mpr (by nlinarith)
    · exact Int.lt_add_one_iff.mp ((Int.ediv_lt_iff_lt_mul (by omega)).mpr (by nlinarith))
  have hlow : (p / span - 2) * span ≤ k / n * span := mul_le_mul_of_nonneg_right hoct.1 hspan.le
  have hhigh : k / n * span ≤ (p / span + 2) * span := mul_le_mul_of_nonneg_right hoct.2 hspan.le
  have hmod := Int.emod_nonneg p hspan.ne'
  have hmod' := Int.emod_lt_of_pos p hspan
  have hdiv := Int.emod_add_ediv_mul p span
  constructor <;> linarith

/-- A boundary lies between the two members it separates, so that 40 bits hold it too. -/
theorem cellBoundary_bounds {c cw : Int} (hc : -2 ^ 35 ≤ c ∧ c < 2 ^ 35) (hcw : -2 ^ 35 ≤ cw ∧ cw < 2 ^ 35) :
    -2 ^ 35 ≤ cellBoundary c cw ∧ cellBoundary c cw < 2 ^ 35 := by
  rw [cellBoundary_def]
  omega

theorem ofInt40_toInt_of_mem35 {x : Int} (hx : -2 ^ 35 ≤ x ∧ x < 2 ^ 35) : (BitVec.ofInt 40 x).toInt = x :=
  ofInt40_toInt x (by omega) (by omega)

/-- The note index of a member fits the 4 bits of `QIX`. -/
theorem noteIndex_toNat (rom : Config.Roms) (k : Int) (hn : 1 ≤ scaleCount rom sc) :
    ((BitVec.ofInt 4 (fmod k (scaleCount rom sc))).toNat : Int) = fmod k (scaleCount rom sc) := by
  have hle := scaleCount_le rom sc
  have hmod := fmod_bounds k (scaleCount rom sc) (by omega)
  rw [BitVec.toNat_ofInt]
  omega

/-- The cell registers hold the cell of the member that a search found, none of its integers cut (R133). -/
theorem State.setCell_cellOf (s : State) {p : Int} (hu : scaleUsable rom s.qscl.toNat = true)
    (hp : -2 ^ 32 < p ∧ p < 2 ^ 32) :
    (s.setCell rom (searchNearest rom s.qscl.toNat p)).CellOf rom := by
  obtain ⟨⟨hlo, hhi⟩, -⟩ := searchNearest_first_nearest rom s.qscl.toNat p
  have hcw := codebook_near_pitch (k := searchNearest rom s.qscl.toNat p) hu hp (by omega) (by omega)
  have hprev := codebook_near_pitch (k := searchNearest rom s.qscl.toNat p - 1) hu hp (by omega) (by omega)
  have hnext := codebook_near_pitch (k := searchNearest rom s.qscl.toNat p + 1) hu hp (by omega) (by omega)
  exact ⟨searchNearest rom s.qscl.toNat p, ofInt40_toInt_of_mem35 hcw,
    ofInt40_toInt_of_mem35 (cellBoundary_bounds hprev hcw), ofInt40_toInt_of_mem35 (cellBoundary_bounds hnext hcw),
    noteIndex_toNat rom _ ((scaleUsable_iff _ _).mp hu).2.1⟩

end Cell

/-- `QNT.CFG` binds a scale of the table and drops the cell (`41_quantizer.md` R131). -/
theorem State.Inv.qntCfg {s : State} (h : s.Inv) (imm : BitVec 16) : (qntCfgWith Config.roms imm s).Inv := by
  have hsc := scaleIndex_toNat Config.roms imm
  refine State.Inv.finish_flByte { h with
    scale := hsc.trans_le (scaleIndex_le Config.roms imm)
    enabled := ?_
    cell := nofun
    delay := h.delay.congr rfl rfl rfl }
  exact (congrArg (scaleUsable Config.roms) hsc).symm

/-- Of the three branches of `QNT.PROC` (`41_quantizer.md` R132) only the search writes the cell. -/
theorem State.Inv.qntProc {s : State} (h : s.Inv) (a b : Word) : (qntProcWith Config.roms a b s).Inv := by
  unfold qntProcWith
  split
  next => exact h.finish_flByte
  next hen =>
    have hqen : s.qen = true := by simpa using hen
    dsimp only
    split
    next => exact h.finish_flByte
    next =>
      have hcell := s.setCell_cellOf (h.enabled.symm.trans hqen) (pitchOf_bounds a b)
      exact State.Inv.finish_flByte
        { h with cell := fun _ => ⟨hqen, hcell⟩, delay := h.delay.congr rfl rfl rfl }

/-! ## The phase and the ramp (`44_phase_ramp.md` R191, R202) -/

/-- With `HOLD` the integrator keeps a phase that was legal, without it the sum wraps or saturates at 1.0. -/
theorem integrate_le_of_le {ph0 : Nat} (inc : Nat) (loop hold : Bool) (h : ph0 ≤ 2 ^ 32) :
    (integrate ph0 inc loop hold).1 ≤ 2 ^ 32 := by
  cases hold with
  | true => exact h
  | false => exact integrate_le ph0 inc loop

theorem unitPhase_le (a : Word) : (unitParam a * 2 ^ 16).toNat ≤ 2 ^ 32 := by
  have h := unitParam_bounds a
  omega

/-- Each of the three branches of `RX.STEP` leaves a ramp of at most 1.0 (R202, R203). -/
theorem State.Inv.rxStep {s : State} (h : s.Inv) (gf : GateFlags) (a : Word) :
    ∃ t, execRxStep gf a s = .next t ∧ t.Inv := by
  refine ⟨_, rfl, ?_⟩
  split
  next => exact (h.withRamp (Nat.mod_lt _ (by decide)).le).finish_flByte
  next =>
    split
    next => exact (h.withRamp (n := 0) (Nat.zero_le _)).finish_flByte
    next => exact (h.withRamp (Nat.min_le_right _ _)).finish_flByte

/-! ## The delay line (`47_delay.md` R250 to R252) -/

/-- The words behind `DWP` after a write at `DWP`: the newest is the one written, and the one `j + 1` back
is the one that was `j` back, or was just overwritten. -/
theorem read?_write_behind {m : Memory} {w : Nat} {a : Word} {dfc : Nat} (hw : w < 1024)
    (h : ∀ j, j < dfc → (Memory.read? m (dlyIndex ((w : Int) - 1 - j))).isSome = true)
    (j : Nat) (hj : j < dfc + 1) :
    (Memory.read? (Memory.write m w a) (dlyIndex ((w : Int) - j))).isSome = true := by
  by_cases hi : dlyIndex ((w : Int) - j) = w
  · rw [hi, Memory.read?_write_same]
    rfl
  · rw [Memory.read?_write_other _ _ _ _ hi]
    cases j with
    | zero => exact absurd (by simpa using dlyIndex_of_lt w hw) hi
    | succ j =>
      have hprev := h j (by omega)
      rwa [show (w : Int) - 1 - j = w - (j + 1 : Nat) by push_cast; ring] at hprev

/-- Stepping the pointer and looking back `j + 1` samples from it is looking back `j` from before. -/
theorem dlyIndex_succ_back (w : Nat) (j : Nat) :
    dlyIndex ((dlyIndex ((w : Int) + 1) : Int) - 1 - j) = dlyIndex ((w : Int) - j) := by
  change ((((((w : Int) + 1) % 1024).toNat : Int) - 1 - j) % 1024).toNat = (((w : Int) - j) % 1024).toNat
  omega

/-- The pointer fits the 10 bits of `DWP`, the fill count the 11 bits of `DFC`. -/
theorem ofNat10_dlyIndex_toNat (x : Int) : (BitVec.ofNat 10 (dlyIndex x)).toNat = dlyIndex x := by
  rw [BitVec.toNat_ofNat, Nat.mod_eq_of_lt (dlyIndex_lt x)]

theorem ofNat11_fill_toNat (n : Nat) : (BitVec.ofNat 11 (min n 1024)).toNat = min n 1024 := by
  rw [BitVec.toNat_ofNat, Nat.mod_eq_of_lt (by omega)]

/-- The state that `DLY.STEP` leaves, before the results (`47_delay.md` R252). -/
def State.pushSample (s : State) (a : Word) : State :=
  { s with
    ram := Memory.write s.ram s.dwp.toNat a
    dfc := BitVec.ofNat 11 (min (s.dfc.toNat + 1) 1024)
    dwp := BitVec.ofNat 10 (dlyIndex ((s.dwp.toNat : Int) + 1)) }

theorem State.pushSample_dfc (s : State) (a : Word) : (s.pushSample a).dfc.toNat = min (s.dfc.toNat + 1) 1024 :=
  ofNat11_fill_toNat _

theorem State.pushSample_dwp (s : State) (a : Word) :
    (s.pushSample a).dwp.toNat = dlyIndex ((s.dwp.toNat : Int) + 1) := ofNat10_dlyIndex_toNat _

theorem execDlyStep_eq (imm : BitVec 16) (a : Word) (s : State) : ∃ y : Word,
    execDlyStep imm a s = .next ((s.pushSample a).finishDelay y (min (s.dfc.toNat + 1) 1024)) := ⟨_, rfl⟩

theorem State.DelayFilled.pushSample {s : State} (h : s.DelayFilled) (a : Word) :
    (s.pushSample a).DelayFilled where
  count := by
    rw [s.pushSample_dfc]
    omega
  filling := by
    have hfill := h.filling
    rw [s.pushSample_dfc, s.pushSample_dwp]
    intro hlt
    have hnext := dlyIndex_of_lt (s.dwp.toNat + 1) (by omega)
    push_cast at hnext
    omega
  written := by
    intro j hj
    rw [s.pushSample_dfc] at hj
    rw [s.pushSample_dwp, dlyIndex_succ_back]
    exact read?_write_behind s.dwp.isLt h.written j (by omega)

theorem State.Inv.pushSample {s : State} (h : s.Inv) (a : Word) : (s.pushSample a).Inv :=
  { h with ram := Memory.wf_write _ _ _ s.dwp.isLt h.ram, delay := h.delay.pushSample a }

/-- Of an empty line no word behind `DWP` has to be written, whatever the RAM holds (R251). -/
theorem State.DelayFilled.of_empty {s : State} (hdwp : s.dwp = 0) (hdfc : s.dfc = 0) : s.DelayFilled where
  count := by simp [hdfc]
  filling := by simp [hdwp, hdfc]
  written := by simp [hdfc]

theorem State.Inv.emptyDelay {s : State} {m : Memory} (h : s.Inv) (hm : Memory.wf m = true) :
    State.Inv { s with dwp := 0, dfc := 0, ram := m } :=
  { h with ram := hm, delay := .of_empty rfl rfl }

/-! ## Reset (`10_state.md` R36) -/

/-- After reset no cell is valid and no scale is bound, the delay line is empty and its RAM unwritten. -/
theorem State.reset_inv : State.reset.Inv where
  ram := State.reset_ram_wf
  flags := by decide
  walk := by decide
  turing := by
    intro i
    have hslot : State.reset.slot i = TmSlot.reset := by simp [State.slot, State.reset]
    rw [hslot]
    exact TmSlot.legal_of_tmVal 0 false (by decide)
  phase := by decide
  ramp := by decide
  scale := Nat.zero_le _
  enabled := rfl
  cell := nofun
  delay := .of_empty rfl rfl

/-- `SYS.RST` leaves the RAM as it was under the reset registers (`40_system.md` R122). -/
theorem State.Inv.resetRegisters {s : State} (h : s.Inv) : s.resetRegisters.Inv :=
  (State.reset_inv.emptyDelay h.ram).withPort s.port

/-- Settles O58: the hardware reset leaves the reset state, but for the commands still at the port. -/
theorem resetMeetsTheInvariant : Obligations.ResetMeetsTheInvariant :=
  ⟨State.reset_inv, fun s => State.reset_inv.withPort s.port⟩

/-! ## Every command -/

/-- Each command writes its registers by one of the rules above and then the results. -/
theorem exec_keeps_inv (i : Instr) {s : State} (h : s.Inv) : ∃ t, exec i s = .next t ∧ t.Inv := by
  cases i with
  | sysRst => exact ⟨_, rfl, h.resetRegisters.finish_flByte⟩
  | qntCfg imm => exact ⟨_, rfl, h.qntCfg imm⟩
  | qntProc a b => exact ⟨_, rfl, h.qntProc a b⟩
  | rngSeed a => exact ⟨_, rfl, (h.withRs a).finish_flByte⟩
  | rngNext => exact ⟨_, rfl, (h.withRs (draw s.rs)).finish_flByte⟩
  | rngGauss =>
    simp only [exec, execRngGauss]
    exact ⟨_, rfl, (h.withRs (gauss s.rs).rs).finish_flByte⟩
  | rngWbnd a b =>
    have ha := sview_bounds a
    have hb := sview_bounds b
    have hx := clamp_bounds s.wx.toInt (min (sview a) (sview b)) (max (sview a) (sview b)) (by omega)
    exact ⟨_, rfl, (h.withWalk (by omega) hx (by omega)).finish_flByte⟩
  | rngWset a =>
    have hx := clamp_bounds (sview a) _ _ (h.walk.1.trans h.walk.2)
    exact ⟨_, rfl, (h.withWx hx).finish_flByte⟩
  | rngWalk a =>
    simp only [exec, execRngWalk]
    have hx := reflect_bounds (s.wx.toInt + asr ((gauss s.rs).g * sview a) 16) _ _ (h.walk.1.trans h.walk.2)
    exact ⟨_, rfl, ((h.withWx hx).withRs (gauss s.rs).rs).finish_flByte⟩
  | tmLoad bip imm sr =>
    have hn := (h.turing (slotIndex imm)).2
    exact ⟨_, rfl, (h.setSlot (TmSlot.legal_of_tmVal sr bip hn)).finish_flByte⟩
  | tmAdv bip imm a b =>
    exact ⟨_, rfl, ((h.withRs (draw s.rs)).setSlot
      (TmSlot.legal_of_tmVal _ bip (tmSteps_toNat_le b))).finish_flByte⟩
  | phaRst => exact ⟨_, rfl, (h.withPh (n := 0) (Nat.zero_le _)).finish_flByte⟩
  | phaStep gf loop retrig hold a =>
    have hph0 : (if (retrig && gfRising gf) = true then 0 else s.ph.toNat) ≤ 2 ^ 32 := by
      have := h.phase
      split <;> omega
    exact ⟨_, rfl, (h.withPh (integrate_le_of_le a.toNat loop hold hph0)).finish_flByte⟩
  | phaSet a => exact ⟨_, rfl, (h.withPh (unitPhase_le a)).finish_flByte⟩
  | rxRst => exact ⟨_, rfl, (h.withRamp (n := 0) (Nat.zero_le _)).finish_flByte⟩
  | rxStep gf a => exact h.rxStep gf a
  | snhRst => exact ⟨_, rfl, (h.withSh 0).finish_flByte⟩
  | snhStep gf track a => exact ⟨_, rfl, (h.withSh (snhNext gf track a s.sh).1).finish_flByte⟩
  | dlyRst => exact ⟨_, rfl, (h.emptyDelay h.ram).finish_flByte⟩
  | dlyStep imm a =>
    obtain ⟨y, hy⟩ := execDlyStep_eq imm a s
    exact ⟨_, hy, (h.pushSample a).finish_flByte⟩
  | sysNop | sysRd | tmGet | phaRate | phaGet | oscSin | oscSaw | oscTri | dlyRd =>
    exact ⟨_, rfl, h.finish_flByte⟩

/-- Settles O57: a step that finds no command changes nothing; any other executes one. -/
theorem everyStepKeepsTheInvariant : Obligations.EveryStepKeepsTheInvariant := by
  intro s t h hstep
  rcases step_next_cases s t hstep with ⟨-, rfl⟩ | ⟨c, rest, -, hexec⟩
  · exact h
  · obtain ⟨u, hu, hinv⟩ := exec_keeps_inv (decode c) (h.withPort rest)
    cases hu.symm.trans hexec
    exact hinv

end Sys2Proof.Machine

namespace Sys2Proof.Machine

/-! # The result registers (`10_state.md` R23, R25)

Every command ends by writing `Y0`, `Y1` and `FL`; only `SYS.RD` reads one of them. -/

/-- `QNT.PROC` takes its branch by the quantizer's registers. -/
theorem qntProcWith_withResults (rom : Config.Roms) (a b : Word) (s : State) (u v : Word) (x : BitVec 8) :
    qntProcWith rom a b { s with y0 := u, y1 := v, fl := x } = qntProcWith rom a b s := by
  have hcell : State.inCell { s with y0 := u, y1 := v, fl := x } (pitchOf a b) = s.inCell (pitchOf a b) := rfl
  simp only [qntProcWith, hcell]
  split
  · rfl
  · split <;> rfl

/-- Settles O9: each command other than `SYS.RD` reads registers of its unit and then writes the results. -/
theorem resultRegistersAreNeverOperands : Obligations.ResultRegistersAreNeverOperands := by
  intro i s u v x hi
  cases i with
  | sysRd n => exact absurd rfl (hi n)
  | qntProc a b => exact congrArg Host.Outcome.next (qntProcWith_withResults Config.roms a b s u v x)
  | rxStep gf a =>
    simp only [exec, execRxStep]
    split
    · rfl
    · split <;> rfl
  | rngGauss =>
    simp only [exec, execRngGauss]
    rfl
  | rngWalk a =>
    simp only [exec, execRngWalk]
    rfl
  | _ => rfl

/-! # The flag byte (`10_state.md` R25) -/

/-- What R25 says of the flags `f` that the command `i` sets when it leaves the state `t`. -/
structure FlagsLegal (i : Instr) (t : State) (f : Flags) : Prop where
  chg : f.chg = true → setsChg i = true
  done : f.done = true → setsDone i = true ∧
    (unitOf i = .pha → t.ph.toNat = 2 ^ 32) ∧ (unitOf i = .rx → t.rxp.toNat = 2 ^ 32)
  wrap : f.wrap = true → setsWrap i = true
  qen : f.qen = true → setsQen i = true ∧ t.qen = true
  dfull : f.dfull = true → setsDfull i = true ∧ t.dfc.toNat = 1024

/-- A command that sets no bit. -/
theorem flagsLegal_none (i : Instr) (t : State) : FlagsLegal i t {} := ⟨nofun, nofun, nofun, nofun, nofun⟩

/-- A command listed for `CHG` that sets no other bit. -/
theorem flagsLegal_chg {i : Instr} (hi : setsChg i = true) (t : State) (c : Bool) : FlagsLegal i t { chg := c } :=
  ⟨fun _ => hi, nofun, nofun, nofun, nofun⟩

/-- A command of the delay line, which reports the fill count it leaves. -/
theorem flagsLegal_dfull {i : Instr} {t : State} {n : Nat} (hi : setsDfull i = true) (ht : t.dfc.toNat = n) :
    FlagsLegal i t { dfull := decide (n = 1024) } :=
  ⟨nofun, nofun, nofun, nofun, fun hn => ⟨hi, ht.trans (of_decide_eq_true hn)⟩⟩

/-- The end of `QNT.PROC`: with the quantizer off it sets no bit, with it on always `QEN`
(`41_quantizer.md` R132). -/
theorem qntProc_flags (a b : Word) (s : State) :
    ∃ f, (qntProcWith Config.roms a b s).fl = flByte f ∧
      FlagsLegal (.qntProc a b) (qntProcWith Config.roms a b s) f := by
  unfold qntProcWith
  split
  next => exact ⟨_, rfl, flagsLegal_none _ _⟩
  next hen =>
    have hqen : s.qen = true := by simpa using hen
    dsimp only
    split <;> exact ⟨_, rfl, fun _ => rfl, nofun, nofun, fun _ => ⟨rfl, hqen⟩, nofun⟩

/-- `DONE` of `RX.STEP` is 1 only between taps, where it compares the ramp register it writes
(`44_phase_ramp.md` R202). -/
theorem rxStep_flags (gf : GateFlags) (a : Word) (s : State) :
    ∃ t f, execRxStep gf a s = .next t ∧ t.fl = flByte f ∧ FlagsLegal (.rxStep gf a) t f := by
  unfold execRxStep
  split
  next => exact ⟨_, _, rfl, rfl, nofun, nofun, fun _ => rfl, nofun, nofun⟩
  next =>
    split
    next => exact ⟨_, _, rfl, rfl, flagsLegal_chg rfl _ _⟩
    next =>
      refine ⟨_, _, rfl, rfl, nofun, fun hd => ⟨rfl, nofun, fun _ => ?_⟩, nofun, nofun, nofun⟩
      exact (ofNat33_toNat_of_le (Nat.min_le_right _ _)).trans (of_decide_eq_true hd)

/-- Every command writes the whole byte, each bit as R25 lists it. -/
theorem exec_flags (i : Instr) (s : State) :
    ∃ t f, exec i s = .next t ∧ t.fl = flByte f ∧ FlagsLegal i t f := by
  cases i with
  | qntCfg imm => exact ⟨_, _, rfl, rfl, nofun, nofun, nofun, fun hen => ⟨rfl, hen⟩, nofun⟩
  | qntProc a b =>
    obtain ⟨f, hfl, hf⟩ := qntProc_flags a b s
    exact ⟨_, f, rfl, hfl, hf⟩
  | rngGauss =>
    simp only [exec, execRngGauss]
    exact ⟨_, _, rfl, rfl, flagsLegal_none _ _⟩
  | rngWalk a =>
    simp only [exec, execRngWalk]
    exact ⟨_, _, rfl, rfl, flagsLegal_none _ _⟩
  | tmAdv bip imm a b => exact ⟨_, _, rfl, rfl, flagsLegal_chg rfl _ _⟩
  | phaStep gf loop retrig hold a =>
    refine ⟨_, _, rfl, rfl, fun _ => rfl, fun hd => ⟨rfl, fun _ => ?_, nofun⟩, fun _ => rfl, nofun, nofun⟩
    have hone := of_decide_eq_true (Bool.and_eq_true_iff.mp hd).2
    exact (ofNat33_toNat_of_le hone.le).trans hone
  | phaSet a =>
    refine ⟨_, _, rfl, rfl, nofun, fun hd => ⟨rfl, fun _ => ?_, nofun⟩, nofun, nofun, nofun⟩
    exact (ofNat33_toNat_of_le (unitPhase_le a)).trans (of_decide_eq_true hd)
  | phaGet =>
    refine ⟨_, _, rfl, rfl, nofun, fun hd => ⟨rfl, fun _ => ?_, nofun⟩, nofun, nofun, nofun⟩
    exact of_decide_eq_true hd
  | rxStep gf a => exact rxStep_flags gf a s
  | snhStep gf track a => exact ⟨_, _, rfl, rfl, flagsLegal_chg rfl _ _⟩
  | dlyStep imm a => exact ⟨_, _, rfl, rfl, flagsLegal_dfull rfl (ofNat11_fill_toNat _)⟩
  | dlyRd imm => exact ⟨_, _, rfl, rfl, flagsLegal_dfull rfl rfl⟩
  | _ => exact ⟨_, _, rfl, rfl, flagsLegal_none _ _⟩

/-- Bits 7:5 of the flag byte (R25). -/
theorem flByte_reserved (f : Flags) : (flByte f).extractLsb' 5 3 = 0 := by
  have hlt := flByte_lt f
  apply BitVec.eq_of_toNat_eq
  simp only [BitVec.extractLsb'_toNat, Nat.shiftRight_eq_div_pow]
  rw [Nat.div_eq_of_lt hlt]
  rfl

/-- `FL` is the register numbered 0x0003 and no other (`10_state.md` R26). -/
theorem readReg_withFl (s : State) (x : BitVec 8) {num : Nat} (h : num ≠ 0x0003) :
    State.readReg { s with fl := x } num = s.readReg num := by
  unfold State.readReg
  split
  next =>
    split
    case h_4 => exact absurd rfl h
    all_goals rfl
  next => rfl

theorem exec_sysRd_withFl (s : State) (x : BitVec 8) {n : BitVec 16} (h : n ≠ 0x0003) :
    exec (.sysRd n) { s with fl := x } = exec (.sysRd n) s := by
  have hn : n.toNat ≠ 0x0003 := fun e => h (BitVec.eq_of_toNat_eq e)
  simp only [exec, execSysRd, readReg_withFl s x hn]
  rfl

/-- No command reads `FL` but a `SYS.RD` of it. -/
theorem exec_withFl (i : Instr) (s : State) (x : BitVec 8) (hi : i ≠ .sysRd 0x0003) :
    exec i { s with fl := x } = exec i s := by
  by_cases hrd : ∃ n, i = .sysRd n
  · obtain ⟨n, rfl⟩ := hrd
    exact exec_sysRd_withFl s x (fun hn => hi (congrArg _ hn))
  · exact resultRegistersAreNeverOperands i s s.y0 s.y1 x (fun n hn => hrd ⟨n, hn⟩)

/-- Settles O8: each bit of the byte is the flag that `exec_flags` speaks of. -/
theorem flagBitsComeFromTheirCommandsOnly : Obligations.FlagBitsComeFromTheirCommandsOnly := by
  refine ⟨fun i s => ?_, exec_withFl, rfl⟩
  obtain ⟨t, f, hexec, hfl, hf⟩ := exec_flags i s
  refine ⟨t, hexec, ?_⟩
  rw [hfl, flByte_chg, flByte_done, flByte_wrap, flByte_qen, flByte_dfull]
  exact ⟨flByte_reserved f, hf.chg, hf.done, hf.wrap, hf.qen, hf.dfull⟩

end Sys2Proof.Machine

namespace Sys2Proof.Machine

/-! # The delay RAM among the commands (`20_memory.md` R66, R74) -/

/-- `QNT.PROC` reads the tables and the quantizer's registers, in all of its branches. -/
theorem qntProcWith_withRam (rom : Config.Roms) (a b : Word) (s : State) (m : Memory) :
    qntProcWith rom a b { s with ram := m } = { qntProcWith rom a b s with ram := m } := by
  have hcell : State.inCell { s with ram := m } (pitchOf a b) = s.inCell (pitchOf a b) := rfl
  simp only [qntProcWith, hcell]
  split
  · rfl
  · split <;> rfl

/-- A command other than the two that reach the delay RAM does the same to the registers whatever the RAM
holds, and hands the RAM on. -/
theorem exec_withRam (i : Instr) (s : State) (hstep : ∀ imm a, i ≠ .dlyStep imm a) (hrd : ∀ imm, i ≠ .dlyRd imm) :
    ∃ t, exec i s = .next t ∧ ∀ m, exec i { s with ram := m } = .next { t with ram := m } := by
  cases i with
  | dlyStep imm a => exact absurd rfl (hstep imm a)
  | dlyRd imm => exact absurd rfl (hrd imm)
  | qntProc a b => exact ⟨_, rfl, fun m => congrArg _ (qntProcWith_withRam Config.roms a b s m)⟩
  | rxStep gf a =>
    simp only [exec, execRxStep]
    split
    · exact ⟨_, rfl, fun _ => rfl⟩
    · split <;> exact ⟨_, rfl, fun _ => rfl⟩
  | rngGauss =>
    simp only [exec, execRngGauss]
    exact ⟨_, rfl, fun _ => rfl⟩
  | rngWalk a =>
    simp only [exec, execRngWalk]
    exact ⟨_, rfl, fun _ => rfl⟩
  | _ => exact ⟨_, rfl, fun _ => rfl⟩

/-- `DLY.RD` reads the RAM; every other command but `DLY.STEP` hands on whatever RAM it finds. -/
theorem exec_keeps_ram (i : Instr) (s : State) (hstep : ∀ imm a, i ≠ .dlyStep imm a) :
    ∃ t, exec i s = .next t ∧ t.ram = s.ram := by
  by_cases hrd : ∃ imm, i = .dlyRd imm
  · obtain ⟨imm, rfl⟩ := hrd
    exact ⟨_, rfl, rfl⟩
  · obtain ⟨t, -, hram⟩ := exec_withRam i s hstep (fun imm hi => hrd ⟨imm, hi⟩)
    exact ⟨_, hram s.ram, rfl⟩

/-- Settles O12: the frame is `exec_keeps_ram`, the independence `exec_withRam`. -/
theorem delayRamIsReachedByDelayCommandsOnly : Obligations.DelayRamIsReachedByDelayCommandsOnly := by
  refine ⟨exec_keeps_ram, fun i s m hstep hrd => ?_⟩
  obtain ⟨t, ht, hram⟩ := exec_withRam i s hstep hrd
  exact ⟨t, ht, hram m⟩

/-! # The rate curve (`44_phase_ramp.md` R192) -/

theorem clamp_mono {x y : Int} (lo hi : Int) (h : x ≤ y) : clamp x lo hi ≤ clamp y lo hi :=
  max_le_max_left lo (min_le_min_left hi h)

theorem unitParam_mono {a b : Word} (h : a.toInt ≤ b.toInt) : unitParam a ≤ unitParam b := clamp_mono _ _ h

theorem asr_mono {x y : Int} (n : Nat) (h : x ≤ y) : asr x n ≤ asr y n :=
  Int.ediv_le_ediv (by positivity) h

/-- Each range shifts by a constant. -/
theorem rangeShift_mono (range : RangeSel) {f g : Int} (h : f ≤ g) : rangeShift range f ≤ rangeShift range g := by
  cases range with
  | slow => exact asr_mono _ h
  | default | fast | audio => exact mul_le_mul_of_nonneg_right h (by positivity)

/-- The increment follows the order of the interpolated table values. -/
theorem rateWith_le_of_rateCurve_le {rom : Config.Roms} (range : RangeSel) {a b : Word}
    (h : rateCurve rom (unitParam a) ≤ rateCurve rom (unitParam b)) : rateWith rom range a ≤ rateWith rom range b :=
  clamp_mono _ _ (rangeShift_mono range h)

/-- The value `fr` 256ths of the way from entry `i` of `RATE_ROM` to the next one, floored. -/
def rateSegment (rom : Config.Roms) (i : Nat) (fr : Int) : Int :=
  rateRom rom i + asr ((rateRom rom (i + 1) - rateRom rom i) * fr) 8

/-- A segment ends where the next one begins. -/
theorem rateSegment_full (rom : Config.Roms) (i : Nat) : rateSegment rom i 256 = rateRom rom (i + 1) := by
  rw [rateSegment, asr_def]
  omega

/-- Below the top of the parameter's range the curve is on the segment of `t / 256`. -/
theorem rateCurve_eq_rateSegment (rom : Config.Roms) {t : Int} (h0 : 0 ≤ t) (h1 : t < 65536) :
    rateCurve rom t = rateSegment rom (t / 256).toNat (t % 256) := by
  have hnext : min ((t / 256).toNat + 1) 256 = (t / 256).toNat + 1 := by omega
  simp only [rateCurve, rateSegment, asr_def, fmod, Config.NRATE, Int.reducePow, hnext]

/-- At a table entry the fraction is 0. -/
theorem rateCurve_entry (rom : Config.Roms) (i : Nat) : rateCurve rom (256 * i) = rateRom rom i := by
  have hfr : (256 * i : Int) % 256 = 0 := by omega
  simp [rateCurve, asr_def, fmod, hfr]

/-- One further in the time parameter is one 256th further on the same segment, also where the next value
is an entry of the table. -/
theorem rateCurve_succ (rom : Config.Roms) {t : Int} (h0 : 0 ≤ t) (h1 : t < 65536) :
    rateCurve rom (t + 1) = rateSegment rom (t / 256).toNat (t % 256 + 1) := by
  by_cases hend : t % 256 = 255
  · have hnext : t + 1 = 256 * (((t / 256).toNat + 1 : Nat) : Int) := by omega
    rw [hnext, rateCurve_entry, hend]
    exact (rateSegment_full rom _).symm
  · rw [rateCurve_eq_rateSegment rom (by omega) (by omega)]
    have hidx : (t + 1) / 256 = t / 256 := by omega
    have hfr : (t + 1) % 256 = t % 256 + 1 := by omega
    rw [hidx, hfr]

/-- The line to an entry that is no higher does not rise, floored or not. -/
theorem rateSegment_antitone {rom : Config.Roms} {i : Nat} (h : rateRom rom (i + 1) ≤ rateRom rom i) :
    Antitone (rateSegment rom i) := fun _ _ hfr =>
  add_le_add_right (asr_mono 8 (mul_le_mul_of_nonpos_left hfr (by omega))) _

/-- The line to an entry that is no lower does not fall. -/
theorem rateSegment_monotone {rom : Config.Roms} {i : Nat} (h : rateRom rom i ≤ rateRom rom (i + 1)) :
    Monotone (rateSegment rom i) := fun _ _ hfr =>
  add_le_add_right (asr_mono 8 (mul_le_mul_of_nonneg_left hfr (by omega))) _

theorem rateCurve_antitoneOn {rom : Config.Roms} (h : RateFalling rom) :
    AntitoneOn (rateCurve rom) (Set.Icc 0 65536) := by
  refine antitoneOn_of_add_one_le Set.ordConnected_Icc fun t _ ht ht' => ?_
  obtain ⟨h0, -⟩ := ht
  obtain ⟨-, h1⟩ := ht'
  rw [rateCurve_succ rom h0 (by omega), rateCurve_eq_rateSegment rom h0 (by omega)]
  have hidx : (t / 256).toNat < 256 := by omega
  exact rateSegment_antitone (h _ hidx) (by omega)

theorem rateCurve_monotoneOn {rom : Config.Roms} (h : RateRising rom) :
    MonotoneOn (rateCurve rom) (Set.Icc 0 65536) := by
  refine monotoneOn_of_le_add_one Set.ordConnected_Icc fun t _ ht ht' => ?_
  obtain ⟨h0, -⟩ := ht
  obtain ⟨-, h1⟩ := ht'
  rw [rateCurve_succ rom h0 (by omega), rateCurve_eq_rateSegment rom h0 (by omega)]
  have hidx : (t / 256).toNat < 256 := by omega
  exact rateSegment_monotone (h _ hidx) (by omega)

/-- Settles O38: the clamp of the parameter, the range and the clamp of the result keep the order that the
curve gives to the parameters. -/
theorem rateCurveIsMonotonicForAMonotonicTable : Obligations.RateCurveIsMonotonicForAMonotonicTable :=
  ⟨fun _ _ _ => rfl,
    fun _ range a a' hrom h => rateWith_le_of_rateCurve_le range
      (rateCurve_antitoneOn hrom (unitParam_bounds a) (unitParam_bounds a') (unitParam_mono h)),
    fun _ range a a' hrom h => rateWith_le_of_rateCurve_le range
      (rateCurve_monotoneOn hrom (unitParam_bounds a) (unitParam_bounds a') (unitParam_mono h)),
    rateWith_bounds⟩

/-! # The sine table and the real sine (`20_memory.md` R62, R63) -/

/-- The sides of a right triangle in whole numbers, with an angle close to `π / 256`. -/
def rotorAdj : Int := 214282444316
/-- The side opposite that angle. -/
def rotorOpp : Int := 2629773237
/-- The longest side. -/
def rotorHyp : Int := 214298580605

/-- The angle of that triangle. Its sine and its cosine are rational, and so are those of its multiples. -/
noncomputable def rotorAngle : ℝ := Real.arcsin (rotorOpp / rotorHyp)

/-- The cosine and the sine of `n` turns by `rotorAngle`, each times `rotorHyp ^ n`. -/
def turns : Nat → Int × Int
  | 0 => (1, 0)
  | n + 1 =>
    (rotorAdj * (turns n).1 - rotorOpp * (turns n).2, rotorAdj * (turns n).2 + rotorOpp * (turns n).1)

theorem sin_rotorAngle : rotorHyp * Real.sin rotorAngle = rotorOpp := by
  rw [rotorAngle, Real.sin_arcsin (by norm_num [rotorOpp, rotorHyp]) (by norm_num [rotorOpp, rotorHyp])]
  norm_num [rotorOpp, rotorHyp]

theorem cos_rotorAngle : rotorHyp * Real.cos rotorAngle = rotorAdj := by
  have hsq : 1 - (rotorOpp / rotorHyp : ℝ) ^ 2 = (rotorAdj / rotorHyp) ^ 2 := by
    norm_num [rotorAdj, rotorOpp, rotorHyp]
  rw [rotorAngle, Real.cos_arcsin, hsq, Real.sqrt_sq (by norm_num [rotorAdj, rotorHyp])]
  norm_num [rotorAdj, rotorHyp]

/-- By the addition formulas, a turn at a time. -/
theorem turns_eq (n : Nat) :
    ((turns n).1 : ℝ) = rotorHyp ^ n * Real.cos (n * rotorAngle) ∧
    ((turns n).2 : ℝ) = rotorHyp ^ n * Real.sin (n * rotorAngle) := by
  induction n with
  | zero => simp [turns]
  | succ n ih =>
    obtain ⟨hcos, hsin⟩ := ih
    have hturn : ((n + 1 : Nat) : ℝ) * rotorAngle = n * rotorAngle + rotorAngle := by push_cast; ring
    rw [hturn, Real.cos_add, Real.sin_add]
    simp only [turns]
    push_cast
    rw [hcos, hsin, ← cos_rotorAngle, ← sin_rotorAngle]
    constructor <;> ring

/-- The table against the rational sines, entry by entry in whole numbers. -/
theorem sineTable_near_turns : ∀ i, i < 257 →
    10000 * |rotorHyp ^ (2 * i) * sineTable.getD i 0 - 65536 * (turns (2 * i)).2| ≤
      4587 * rotorHyp ^ (2 * i) := by
  decide +kernel

/-- The table against the multiples of the angle of the triangle. -/
theorem sineTable_near_rotor {i : Nat} (hi : i < 257) :
    |(sineTable.getD i 0 : ℝ) - 65536 * Real.sin ((2 * i : Nat) * rotorAngle)| ≤ 4587 / 10000 := by
  have hpos : (0 : ℝ) < rotorHyp ^ (2 * i) := pow_pos (by norm_num [rotorHyp]) _
  have hnear : (10000 : ℝ) * |rotorHyp ^ (2 * i) * (sineTable.getD i 0 : ℝ) - 65536 * ((turns (2 * i)).2 : ℝ)| ≤
      4587 * rotorHyp ^ (2 * i) := by exact_mod_cast sineTable_near_turns i hi
  rw [(turns_eq (2 * i)).2, mul_left_comm, ← mul_sub, abs_mul, abs_of_pos hpos] at hnear
  exact le_of_mul_le_mul_left (by linarith) hpos

/-- The sine of an angle enclosed in `[a, b]`, by the first terms of its series. -/
theorem sin_enclosure {x a b : ℝ} (ha : 0 ≤ a) (hax : a ≤ x) (hxb : x ≤ b) (hb : b ≤ 1) :
    a - b ^ 3 / 6 - b ^ 5 / 100 ≤ Real.sin x ∧ Real.sin x ≤ b - a ^ 3 / 6 + b ^ 5 / 100 := by
  have hx : 0 ≤ x := ha.trans hax
  have hbound := Real.sin_bound (x := x) (by rw [abs_of_nonneg hx]; exact hxb.trans hb)
  rw [abs_of_nonneg hx, abs_le] at hbound
  have ha3 : a ^ 3 ≤ x ^ 3 := pow_le_pow_left₀ ha hax 3
  have hb3 : x ^ 3 ≤ b ^ 3 := pow_le_pow_left₀ hx hxb 3
  have hb5 : x ^ 5 ≤ b ^ 5 := pow_le_pow_left₀ hx hxb 5
  constructor <;> linarith

/-- How close the angle of the triangle is: its sine, known exactly, lies between the sines of two
angles that close to `π / 256`. -/
theorem rotorAngle_near : |rotorAngle - Real.pi / 256| ≤ 8 / 10 ^ 12 := by
  have hlo := Real.pi_gt_d20
  have hhi := Real.pi_lt_d20
  have hbelow := (sin_enclosure (x := Real.pi / 256 - 8 / 10 ^ 12) (a := 3.14159265358979 / 256 - 8 / 10 ^ 12)
    (b := 3.1415926535898 / 256 - 8 / 10 ^ 12) (by norm_num) (by linarith) (by linarith) (by norm_num)).2
  have habove := (sin_enclosure (x := Real.pi / 256 + 8 / 10 ^ 12) (a := 3.14159265358979 / 256 + 8 / 10 ^ 12)
    (b := 3.1415926535898 / 256 + 8 / 10 ^ 12) (by norm_num) (by linarith) (by linarith) (by norm_num)).1
  have hge : Real.pi / 256 - 8 / 10 ^ 12 ≤ rotorAngle :=
    (Real.le_arcsin_iff_sin_le' ⟨by linarith, by linarith⟩).mpr (hbelow.trans (by norm_num [rotorOpp, rotorHyp]))
  have hle : rotorAngle ≤ Real.pi / 256 + 8 / 10 ^ 12 :=
    (Real.arcsin_le_iff_le_sin' ⟨by linarith, by linarith⟩).mpr (le_trans (by norm_num [rotorOpp, rotorHyp]) habove)
  exact abs_sub_le_iff.mpr ⟨by linarith, by linarith⟩

/-- Turning `2 i` times adds up the error of the angle. -/
theorem sin_rotor_near {i : Nat} (hi : i < 257) :
    |Real.sin ((2 * i : Nat) * rotorAngle) - Real.sin (2 * Real.pi * i / 256)| ≤ 4096 / 10 ^ 12 := by
  have hi' : ((2 * i : Nat) : ℝ) ≤ 512 := by exact_mod_cast (by omega : 2 * i ≤ 512)
  have hangle : ((2 * i : Nat) : ℝ) * rotorAngle - 2 * Real.pi * i / 256 =
      (2 * i : Nat) * (rotorAngle - Real.pi / 256) := by push_cast; ring
  calc |Real.sin ((2 * i : Nat) * rotorAngle) - Real.sin (2 * Real.pi * i / 256)|
      ≤ |((2 * i : Nat) : ℝ) * rotorAngle - 2 * Real.pi * i / 256| := Real.abs_sin_sub_sin_le _ _
    _ = (2 * i : Nat) * |rotorAngle - Real.pi / 256| := by rw [hangle, abs_mul, Nat.abs_cast]
    _ ≤ 512 * (8 / 10 ^ 12) := mul_le_mul hi' rotorAngle_near (abs_nonneg _) (by norm_num)
    _ = 4096 / 10 ^ 12 := by norm_num

theorem sineTable_near_sin {i : Nat} (hi : i < 257) :
    |(sineTable.getD i 0 : ℝ) - 65536 * Real.sin (2 * Real.pi * i / 256)| ≤ 459 / 1000 := by
  have htable := abs_le.mp (sineTable_near_rotor hi)
  have hsin := abs_le.mp (sin_rotor_near hi)
  exact abs_le.mpr ⟨by linarith, by linarith⟩

/-- Settles O59: an integer less than a half away is the nearest one. -/
theorem sineTableIsTheRoundedSine : Obligations.SineTableIsTheRoundedSine := by
  intro i x
  have hnear : |(sineTable.getD i 0 : ℝ) - x| ≤ 459 / 1000 := sineTable_near_sin i.isLt
  obtain ⟨hlo, hhi⟩ := abs_le.mp hnear
  exact ⟨(round_eq_iff.mpr ⟨by linarith, by linarith⟩).symm, hnear⟩

end Sys2Proof.Machine

/-! # What a command uses of its words (`30_encoding.md` R97 to R101)

A masked command word is a word built from masked fields, so the encoder's fields can be compared with
the mask's one by one. -/

namespace Sys2Proof

/-- A command word is its four fields, one above the other (R91). -/
theorem Command.cmd_eq_cmdWord (c : Command) : c.cmd = cmdWord c.opcode c.gf c.mod c.imm := by
  apply BitVec.eq_of_getLsbD_eq
  intro i hi
  rw [cmdWord_getLsbD]
  simp only [Command.opcode, Command.gf, Command.mod, Command.imm, BitVec.getLsbD_extractLsb']
  split_ifs with himm hmod hgf
  · simp [himm]
  · rw [decide_eq_true (by omega : i - 16 < 4), Bool.true_and, Nat.add_sub_cancel' (by omega)]
  · rw [decide_eq_true (by omega : i - 20 < 4), Bool.true_and, Nat.add_sub_cancel' (by omega)]
  · rw [decide_eq_true (by omega : i - 24 < 8), Bool.true_and, Nat.add_sub_cancel' (by omega)]

/-- Masking a word built from its fields masks each field and keeps the opcode byte. -/
theorem cmdWord_and_mask (op op' : BitVec 8) (gf gf' : GateFlags) (md md' : BitVec 4) (imm imm' : BitVec 16) :
    cmdWord op gf md imm &&& (cmdWord op' gf' md' imm' ||| 0xFF000000) =
      cmdWord op (gf &&& gf') (md &&& md') (imm &&& imm') := by
  have hbyte : (0xFF000000 : Word) = cmdWord (BitVec.allOnes 8) 0 0 0 := by decide
  rw [hbyte]
  apply BitVec.eq_of_getLsbD_eq
  intro i hi
  simp only [BitVec.getLsbD_and, BitVec.getLsbD_or, cmdWord_getLsbD]
  split_ifs
  · simp
  · simp
  · simp
  · rw [BitVec.getLsbD_allOnes, decide_eq_true (by omega : i - 24 < 8), Bool.or_true, Bool.and_true]

theorem Command.masked_eq (c m : Command) :
    c.masked m = ⟨cmdWord c.opcode (c.gf &&& m.gf) (c.mod &&& m.mod) (c.imm &&& m.imm), c.a &&& m.a, c.b &&& m.b⟩ := by
  rw [Command.masked, ← cmdWord_and_mask _ m.opcode, ← Command.cmd_eq_cmdWord, ← Command.cmd_eq_cmdWord]

/-- The fields of a command given by its words, for reading the masks of `usedBits`. -/
theorem Command.gf_mk (w a b : Word) : Command.gf ⟨w, a, b⟩ = w.extractLsb' 20 4 := rfl
theorem Command.mod_mk (w a b : Word) : Command.mod ⟨w, a, b⟩ = w.extractLsb' 16 4 := rfl
theorem Command.imm_mk (w a b : Word) : Command.imm ⟨w, a, b⟩ = w.extractLsb' 0 16 := rfl

/-! ## Fields under their masks

The masks are written `n#w`, as `simp` writes a literal. -/

theorem and_ofNat_all4 (x : BitVec 4) : x &&& 15#4 = x := Laws.and_all4 x
theorem and_ofNat_all16 (x : BitVec 16) : x &&& 65535#16 = x := Laws.and_all16 x
theorem and_ofNat_all32 (x : Word) : x &&& 4294967295#32 = x := Laws.and_all32 x

theorem modField_modBit_one (c : Command) : modField (c.modBit 0) false false = c.mod &&& 1#4 := by
  unfold Command.modBit
  generalize c.mod = md
  revert md
  decide

theorem modField_modBit_three (c : Command) :
    modField (c.modBit 0) (c.modBit 1) (c.modBit 2) = c.mod &&& 7#4 := by
  unfold Command.modBit
  generalize c.mod = md
  revert md
  decide

theorem range_ofBits (md : BitVec 4) :
    (0#2 ++ (RangeSel.ofBits (md.extractLsb' 0 2)).toBits : BitVec 4) = md &&& 3#4 := by
  rw [RangeSel.toBits_ofBits]
  revert md
  decide

/-- The half of `A` that `TM.LOAD` uses, written back as a word (R97). -/
theorem setWidth_extractLsb'_half (a : Word) : (a.extractLsb' 0 16).setWidth 32 = a &&& 65535#32 := by
  have hmask : 65535#32 = (BitVec.allOnes 16).setWidth 32 := by decide
  rw [hmask]
  apply BitVec.eq_of_getLsbD_eq
  intro i hi
  simp only [BitVec.getLsbD_and, BitVec.getLsbD_setWidth, BitVec.getLsbD_extractLsb', BitVec.getLsbD_allOnes,
    Nat.zero_add, hi, decide_true, Bool.true_and, Bool.and_comm]

/-! ## Listed words and reserved ones -/

/-- Row by row of R98's list: the encoder writes each field that the row uses as the decoder read it, and
zero where the row's mask is zero. -/
theorem encode_decode_of_listed {c m : Command} (h : usedBits c.opcode = some m) :
    encode (decode c) = c.masked m := by
  have hop : c.opcode = .ofNat 8 c.opcode.toNat := by simp
  rw [Command.masked_eq]
  unfold usedBits at h
  split at h
  case h_30 => cases h
  all_goals
    rename_i hrow
    rw [hrow] at hop
    cases h
    simp [decode, decodeListed, encode, hop, Command.gf_mk, Command.mod_mk, Command.imm_mk, modField_modBit_one,
      modField_modBit_three, range_ofBits, setWidth_extractLsb'_half, and_ofNat_all4, and_ofNat_all16, and_ofNat_all32]

/-- The lists of `usedBits` and of the decoder are the same 29 (R98). -/
theorem decodeListed_of_listed {c m : Command} (h : usedBits c.opcode = some m) :
    decodeListed c = .ok (decode c) := by
  unfold usedBits at h
  split at h
  case h_30 => cases h
  all_goals
    rename_i hrow
    simp only [decode, decodeListed, hrow]

theorem decodeListed_of_reserved {c : Command} (h : usedBits c.opcode = none) :
    decodeListed c = .error (if c.unit.toNat ≤ 8 then .reservedOp c.unit c.op else .reservedUnit c.unit) := by
  unfold usedBits at h
  split at h
  case h_30 =>
    unfold decodeListed
    split
    case h_30 => rfl
    all_goals contradiction
  all_goals cases h

theorem usedBits_encode (i : Instr) : ∃ m, usedBits (encode i).opcode = some m := by
  cases h : usedBits (encode i).opcode with
  | some m => exact ⟨m, rfl⟩
  | none => cases (decodeListed_encode i).symm.trans (decodeListed_of_reserved h)

/-- An encoded command decodes to itself, so it is its own word with the ignored fields written zero. -/
theorem encode_ignoredZero (i : Instr) : (encode i).ignoredZero = true := by
  obtain ⟨m, hm⟩ := usedBits_encode i
  have hmasked : (encode i).masked m = encode i := by rw [← encode_decode_of_listed hm, decode_encode]
  simp only [Command.ignoredZero, hm, hmasked, BEq.rfl]

theorem encode_injective : Function.Injective encode :=
  Function.LeftInverse.injective decode_encode

/-- Settles O3: the round trip is `decodeListed_encode`; the ignored fields are `encode_ignoredZero`. -/
theorem decodingAnEncodedCommandGivesItBack : Obligations.DecodingAnEncodedCommandGivesItBack :=
  fun i => ⟨decodeListed_encode i, decode_encode i, encode_ignoredZero i⟩

/-- Settles O4. -/
theorem encodingADecodedWordKeepsItsUsedBits : Obligations.EncodingADecodedWordKeepsItsUsedBits :=
  fun _ _ => encode_decode_of_listed

/-! ## Reserved words (R100) -/

theorem usedBits_eq_none_iff (op : BitVec 8) :
    usedBits op = none ↔ Machine.reservedPair (op.toNat / 16) (op.toNat % 16) = true := by
  revert op
  decide

/-- The op's number, bits 27:24 of the command word, is the lower half of the opcode byte (R91). -/
theorem Command.opNumber_eq (c : Command) : c.cmd.toNat / 2 ^ 24 % 16 = c.opcode.toNat % 16 := by
  have hlt := c.cmd.isLt
  simp only [Command.opcode, BitVec.extractLsb'_toNat, Nat.shiftRight_eq_div_pow]
  omega

theorem Command.unit_toNat (c : Command) : c.unit.toNat = c.cmd.toNat / 2 ^ 28 := by
  have hlt := c.cmd.isLt
  simp only [Command.unit, BitVec.extractLsb'_toNat, Nat.shiftRight_eq_div_pow]
  omega

/-- `reservedPair` of a word's two numbers says whether the word is listed. -/
theorem Command.reserved_iff (c : Command) :
    Machine.reservedPair (c.cmd.toNat / 2 ^ 28) (c.cmd.toNat / 2 ^ 24 % 16) = true ↔ usedBits c.opcode = none := by
  rw [usedBits_eq_none_iff, Command.unitNumber_eq, Command.opNumber_eq]

theorem decode_of_reserved {c : Command} (h : usedBits c.opcode = none) : decode c = .sysNop := by
  rw [decode, decodeListed_of_reserved h]

/-- Settles O2: a pair is reserved just where R98 lists no command, and the decoder rejects it there. -/
theorem reservedWordsExecuteAsNop : Obligations.ReservedWordsExecuteAsNop := by
  refine ⟨fun c s hres => ?_, fun c hres => ?_, by decide +kernel⟩
  · have hnone := c.reserved_iff.mp hres
    refine ⟨decode_of_reserved hnone, ?_, ?_⟩
    · rw [decodeListed_of_reserved hnone, Command.unit_toNat]
      rfl
    · rw [decode_of_reserved hnone]
      rfl
  · have hlisted : usedBits c.opcode ≠ none := fun hnone => by
      rw [c.reserved_iff.mpr hnone] at hres
      cases hres
    obtain ⟨m, hm⟩ := Option.ne_none_iff_exists'.mp hlisted
    exact decodeListed_of_listed hm

/-! ## Ignored bits (R101) -/

/-- Two listed words that agree on the bits they use encode back to one word, and `encode` is injective. -/
theorem decode_eq_of_masked_eq {c c' m : Command} (hop : c.opcode = c'.opcode) (hm : usedBits c.opcode = some m)
    (hmasked : c.masked m = c'.masked m) : decode c = decode c' := by
  apply encode_injective
  rw [encode_decode_of_listed hm, encode_decode_of_listed (hop ▸ hm), hmasked]

/-- `TM.LOAD` uses the low half of `A` and nothing of `B` (R97). -/
theorem decode_tmLoad_congr {w a a' : Word} (b b' : Word) (ha : a.extractLsb' 0 16 = a'.extractLsb' 0 16)
    (hw : w.extractLsb' 24 8 = 0x30) : decode ⟨w, a, b⟩ = decode ⟨w, a', b'⟩ := by
  have hm : usedBits (Command.opcode ⟨w, a, b⟩) = some ⟨0x0001FFFF, 0x0000FFFF, 0⟩ := congrArg usedBits hw
  refine decode_eq_of_masked_eq rfl hm ?_
  have hhalf : a &&& 65535#32 = a' &&& 65535#32 := by
    rw [← setWidth_extractLsb'_half, ha, setWidth_extractLsb'_half]
  simpa [Command.masked] using hhalf

/-- Settles O5: the first two clauses are the lemmas above, the last is that no command fails. -/
theorem ignoredBitsHaveNoEffect : Obligations.IgnoredBitsHaveNoEffect :=
  ⟨fun _ _ _ => decode_eq_of_masked_eq, fun _ _ _ b b' => decode_tmLoad_congr b b', encode_ignoredZero,
    fun c s => (Machine.exec_keeps_port (decode c) s).imp fun _ h => h.1⟩

/-! ## Words written out in the spec (R104, R105) -/

section SpecWords

open Machine

/-- A slot number is added below the opcode byte of `TM.LOAD`. -/
theorem encode_tmClr (s : BitVec 16) : encode (.tmClr s) = ⟨0x30000000 + s.setWidth 32, 0, 0⟩ := by
  have hlow : s.toNat < 2 ^ 16 := s.isLt
  have hbase : (0x30000000 : Word).toNat = 0x30000000 := rfl
  have hword : cmdWord 0x30 0 0 s = 0x30000000 + s.setWidth 32 := by
    apply BitVec.eq_of_toNat_eq
    calc (cmdWord 0x30 0 0 s).toNat = 0x3000 <<< 16 ||| s.toNat := BitVec.toNat_append ..
      _ = 0x3000 <<< 16 + s.toNat := (Nat.shiftLeft_add_eq_or_of_lt hlow _).symm
      _ = (0x30000000 + s.setWidth 32 : Word).toNat := by
        rw [BitVec.toNat_add, BitVec.toNat_setWidth, hbase]
        omega
  exact congrArg (fun w => (⟨w, 0, 0⟩ : Command)) hword

/-- The sixteen gate values, each shifted into the field `gf` below the opcode byte of `PHA.STEP`. -/
theorem encode_phaHold (g : GateFlags) : encode (.phaHold g) = ⟨0x41040000 + (g.setWidth 32 <<< 20), 0, 0⟩ := by
  revert g
  decide

theorem assemble_tmClr (s : BitVec 16) :
    AsmLine.assemble { mnemonic := "TM.CLR", imm := s } = some (encode (.tmClr s)) := rfl

theorem assemble_phaHold (g : GateFlags) :
    AsmLine.assemble { mnemonic := "PHA.HOLD", gf := g } = some (encode (.phaHold g)) := rfl

/-- Settles O1: the words without a variable are decoded by evaluation, the two pseudo-instructions with one
are the words that `encode` and the assembler give them. -/
theorem specWordsDecodeToTheirCommands : Obligations.SpecWordsDecodeToTheirCommands := by
  refine ⟨by decide, by decide, by decide, by decide, by decide, by decide, by decide, by decide, by decide,
    by decide, by decide, by decide, by decide, by decide, fun s => ?_, fun g => ?_, rfl, fun s => ?_, fun g => ?_⟩
  · rw [← encode_tmClr, decode_encode]
  · rw [← encode_phaHold, decode_encode]
  · rw [assemble_tmClr, encode_tmClr]
  · rw [assemble_phaHold, encode_phaHold]

end SpecWords

end Sys2Proof

/-! # Unit SYS (`40_system.md`) -/

namespace Sys2Proof.Machine

/-! ## The words of the unit (`30_encoding.md` R98) -/

theorem decode_sysNop_word (x : BitVec 24) (a b : Word) : decode ⟨(0x00 : BitVec 8) ++ x, a, b⟩ = .sysNop := by
  simp [decode, decodeListed, append_opcode]

theorem decode_sysRst_word (x : BitVec 24) (a b : Word) : decode ⟨(0x01 : BitVec 8) ++ x, a, b⟩ = .sysRst := by
  simp [decode, decodeListed, append_opcode]

theorem decode_sysRd_word (x : BitVec 24) (a b : Word) :
    decode ⟨(0x02 : BitVec 8) ++ x, a, b⟩ = .sysRd (x.extractLsb' 0 16) := by
  simp [decode, decodeListed, append_opcode, append_imm]

/-- Settles O13: both results and the flag byte are written with 0 (R120, R121). -/
theorem sysNopClearsTheResultsOnly : Obligations.SysNopClearsTheResultsOnly :=
  ⟨decode_sysNop_word, fun _ => rfl⟩

/-- Settles O14: the reset state with the RAM and the port of the state before; its results are 0 already. -/
theorem sysRstGivesEveryRegisterItsResetValue : Obligations.SysRstGivesEveryRegisterItsResetValue :=
  ⟨decode_sysRst_word, fun _ => rfl⟩

/-! ## `SYS.RD` (R123) -/

theorem exec_sysRd (imm : BitVec 16) (s : State) :
    exec (.sysRd imm) s = .next { s with
      y0 := (s.readReg imm.toNat).extractLsb' 0 32, y1 := (s.readReg imm.toNat).extractLsb' 32 32, fl := 0 } := by
  simp only [exec, execSysRd, State.finish, u32_uview, flByte_none]

section RegisterValues

variable {s : State} {imm num : BitVec 16} {w : Nat} {x : BitVec w}

/-- A register at the number `num` that is extended by zero is read as its unsigned value (`10_state.md` R26). -/
theorem readReg_toNat_of_zeroExtend (hw : w ≤ 64) (h : s.readReg num.toNat = x.zeroExtend 64) (hnum : imm = num) :
    (s.readReg imm.toNat).toNat = x.toNat := by
  rw [hnum, h, BitVec.toNat_setWidth_of_le hw]

/-- One that is extended by sign is read as its two's complement value (R26). -/
theorem readReg_toInt_of_signExtend (hw : w ≤ 64) (h : s.readReg num.toNat = x.signExtend 64) (hnum : imm = num) :
    (s.readReg imm.toNat).toInt = x.toInt := by
  rw [hnum, h, BitVec.toInt_signExtend_of_le hw]

theorem bit64_toNat (b : Bool) : (bit64 b).toNat = b.toNat := by
  cases b <;> rfl

theorem readReg_toNat_of_bit64 {b : Bool} (h : s.readReg num.toNat = bit64 b) (hnum : imm = num) :
    (s.readReg imm.toNat).toNat = b.toNat := by
  rw [hnum, h, bit64_toNat]

end RegisterValues

/-- A number of none of the registers of R22 and R27 to R34: below 0x0300 it is in no row of the register
list, from there on in none of the three ranges of the TM bank. -/
theorem readReg_of_unlisted (s : State) {num : Nat}
    (hlist : num ∉ [0x0000, 0x0001, 0x0002, 0x0003, 0x0010, 0x0011, 0x0012, 0x0013, 0x0014, 0x0015, 0x0016, 0x0020,
      0x0021, 0x0022, 0x0023, 0x0040, 0x0050, 0x0051, 0x0052, 0x0053, 0x0070, 0x0080, 0x0081])
    (hsr : ¬ (0x0300 ≤ num ∧ num ≤ 0x0323)) (hv : ¬ (0x0340 ≤ num ∧ num ≤ 0x0363))
    (hn : ¬ (0x0380 ≤ num ∧ num ≤ 0x03A3)) : s.readReg num = 0 := by
  unfold State.readReg
  split
  next =>
    split
    case h_24 => rfl
    all_goals exact absurd (by decide) hlist
  next =>
    rw [dif_neg (by simp only [Config.NSLOT]; omega), dif_neg (by simp only [Config.NSLOT]; omega),
      dif_neg (by simp only [Config.NSLOT]; omega)]

/-- The high word of a negative value is all ones just where the low word holds the rest of it: down to
-2^32 (log 19). -/
theorem highWord_eq_allOnes_iff {v : BitVec 64} (hneg : v.toInt < 0) :
    v.extractLsb' 32 32 = 0xFFFFFFFF ↔ -4294967296 ≤ v.toInt := by
  have hlt := v.isLt
  have hint : v.toInt = v.toNat - 2 ^ 64 := by
    rw [BitVec.toInt_eq_toNat_cond] at hneg ⊢
    split_ifs at hneg ⊢ <;> omega
  have hhigh : (v.extractLsb' 32 32).toNat = v.toNat / 2 ^ 32 := by
    rw [BitVec.extractLsb'_toNat, Nat.shiftRight_eq_div_pow]
    omega
  rw [← BitVec.toNat_inj, hhigh, hint]
  change v.toNat / 2 ^ 32 = 0xFFFFFFFF ↔ _
  omega

/-- Settles O16: the value is that of `State.readReg` in the state before, row by row of the register list. -/
theorem sysRdReturnsTheNumberedRegister : Obligations.SysRdReturnsTheNumberedRegister := by
  refine ⟨decode_sysRd_word, fun imm s => ⟨s.readReg imm.toNat, exec_sysRd imm s, ?id, ?y0, ?y1, ?fl, ?qen, ?qv,
    ?qscl, ?qcw, ?qpb, ?qnb, fun _ => highWord_eq_allOnes_iff, ?qix, ?rs, ?wx, ?wlo, ?whi, ?ph, ?rxp, ?rxf, ?rxc,
    ?rxv, ?sh, ?dwp, ?dfc, fun k hk => ?tmsr, fun k hk => ?tmv, fun k hk => ?tmn, readReg_of_unlisted s⟩⟩
  case id => rintro rfl; rfl
  case y0 | y1 | fl | qscl | qix | rs | ph | rxp | rxf | rxc | sh | dwp | dfc =>
    exact readReg_toNat_of_zeroExtend (by decide) rfl
  case qcw | qpb | qnb | wx | wlo | whi => exact readReg_toInt_of_signExtend (by decide) rfl
  case qen | qv | rxv => exact readReg_toNat_of_bit64 rfl
  case tmsr => rw [hk, readReg_tmsr, BitVec.toNat_setWidth_of_le (by decide)]
  case tmv => rw [hk, readReg_tmv, BitVec.toInt_signExtend_of_le (by decide)]
  case tmn => rw [hk, readReg_tmn, BitVec.toNat_setWidth_of_le (by decide)]

end Sys2Proof.Machine

/-! # Unit QNT (`41_quantizer.md`) -/

namespace Sys2Proof.Machine

theorem decode_qntCfg_word (x : BitVec 24) (a b : Word) :
    decode ⟨(0x10 : BitVec 8) ++ x, a, b⟩ = .qntCfg (x.extractLsb' 0 16) := by
  simp [decode, decodeListed, append_opcode, append_imm]

theorem decode_qntProc_word (x : BitVec 24) (a b : Word) :
    decode ⟨(0x11 : BitVec 8) ++ x, a, b⟩ = .qntProc a b := by
  simp [decode, decodeListed, append_opcode]

theorem exec_qntProc (a b : Word) (s : State) : exec (.qntProc a b) s = .next (qntProcWith Config.roms a b s) := rfl

theorem pitchOf_def (a b : Word) : pitchOf a b = a.toInt - b.toInt := rfl

/-! ## The three branches of `QNT.PROC` (R132) -/

section Branches

variable {rom : Config.Roms} {a b : Word} {s : State}

theorem qntProcWith_of_disabled (hen : s.qen = false) :
    qntProcWith rom a b s = { s with y0 := a, y1 := 0, fl := 0 } := by
  simp [qntProcWith, hen, State.finish]

theorem qntProcWith_of_inCell (hen : s.qen = true) (hin : s.inCell (pitchOf a b) = true) :
    qntProcWith rom a b s = s.quantized b false := by
  simp [qntProcWith, hen, hin]

theorem qntProcWith_of_search (hen : s.qen = true) (hout : s.inCell (pitchOf a b) = false) :
    qntProcWith rom a b s =
      (s.setCell rom (searchNearest rom s.qscl.toNat (pitchOf a b))).quantized b
        (!s.qv || decide (codebook rom s.qscl.toNat (searchNearest rom s.qscl.toNat (pitchOf a b)) ≠ s.qcw.toInt)) := by
  simp [qntProcWith, hen, hout]

/-- The results of the two enabled branches as words. -/
theorem State.quantized_eq_words (s : State) (b : Word) (chg : Bool) :
    s.quantized b chg = { s with
      y0 := BitVec.ofInt 32 (max (-2147483648) (min 2147483647 (s.qcw.toInt + b.toInt)))
      y1 := s.qix.setWidth 32
      fl := if chg then 0x09 else 0x08 } := by
  have hfl : flByte { qen := true, chg := chg } = if chg then 0x09 else 0x08 := by cases chg <;> rfl
  rw [quantized_eq, State.finish, hfl, u32_natCast, BitVec.ofNat_toNat]
  rfl

end Branches

/-- Settles O17: the index fits `QSCL`, and the record is usable just where the rule enables it. -/
theorem qntCfgBindsTheClampedScale : Obligations.QntCfgBindsTheClampedScale := by
  refine ⟨decode_qntCfg_word, fun imm s => ?_⟩
  intro sc span n en
  have hen : scaleUsable Config.roms sc = en := by
    rw [Bool.eq_iff_iff, scaleUsable_iff, decide_eq_true_iff]
    rfl
  have hnext : exec (.qntCfg imm) s = .next ({ s with
      qscl := BitVec.ofNat 16 sc, qen := en, qv := false, qcw := 0, qpb := 0, qnb := 0, qix := 0 }.finish
        en.toNat 0 (flByte { qen := en })) := by
    rw [← hen]
    rfl
  rw [hnext]
  cases en with
  | true => rfl
  | false => rfl

/-- Settles O18: branch by branch; the search is `searchNearest_first_nearest`. -/
theorem qntProcPassesKeepsOrSearches : Obligations.QntProcPassesKeepsOrSearches := by
  refine ⟨decode_qntProc_word, fun a b s => ?_⟩
  intro p sc span n C sat inside
  refine ⟨fun hen => ?off, fun hen hin => ?keep, fun hen hout => ?search⟩
  case off => rw [exec_qntProc, qntProcWith_of_disabled hen]
  case keep =>
    rw [exec_qntProc, qntProcWith_of_inCell hen ((inCell_iff s p).mpr hin), State.quantized_eq_words]
    rfl
  case search =>
    have hcell : s.inCell (pitchOf a b) = false := by
      rw [← Bool.not_eq_true, inCell_iff]
      exact hout
    obtain ⟨hrange, hnear⟩ := searchNearest_first_nearest Config.roms sc p
    refine ⟨searchNearest Config.roms sc p, hrange, fun j hlo hhi => ?near, ?next⟩
    case near =>
      obtain ⟨hle, hlt⟩ := hnear j hlo hhi
      rw [Int.abs_eq_natAbs, Int.abs_eq_natAbs]
      exact ⟨Int.ofNat_le.mpr hle, fun hjk => Int.ofNat_lt.mpr (hlt hjk)⟩
    case next =>
      rw [exec_qntProc, qntProcWith_of_search hen hcell, State.quantized_eq_words]
      simp only [Bool.or_eq_true, Bool.not_eq_true', decide_eq_true_eq]
      rfl

/-! ## The codebook (R130) -/

section Codebook

variable {rom : Config.Roms} {sc : Nat}

/-- One index period further is one octave further on the same note. -/
theorem codebook_add_count (k : Int) (hn : 1 ≤ scaleCount rom sc) :
    codebook rom sc (k + scaleCount rom sc) = codebook rom sc k + scaleSpan rom sc := by
  have hn' : (scaleCount rom sc : Int) ≠ 0 := by omega
  rw [codebook_def, codebook_def, Int.add_emod_right, Int.add_ediv_of_dvd_right dvd_rfl, Int.ediv_self hn']
  ring

/-- The member on note `j` of octave `q`. -/
theorem codebook_mul_add (q : Int) {j : Nat} (hj : j < scaleCount rom sc) :
    codebook rom sc (q * scaleCount rom sc + j) = q * scaleSpan rom sc + scaleNote rom sc j := by
  have hn : (scaleCount rom sc : Int) ≠ 0 := by omega
  have hdiv : (j : Int) / scaleCount rom sc = 0 := Int.ediv_eq_zero_of_lt (by omega) (by omega)
  have hmod : (j : Int) % scaleCount rom sc = j := Int.emod_eq_of_lt (by omega) (by omega)
  rw [codebook_def, add_comm (q * _) (j : Int), Int.add_mul_ediv_right _ _ hn, Int.add_mul_emod_self_right, hdiv,
    hmod, zero_add, Int.toNat_natCast]

/-- Every index is a note of an octave. -/
theorem exists_octave_note (k : Int) (hn : 1 ≤ scaleCount rom sc) :
    ∃ q : Int, ∃ j < scaleCount rom sc, k = q * scaleCount rom sc + (j : Nat) := by
  have hlo := Int.emod_nonneg k (b := scaleCount rom sc) (by omega)
  have hhi := Int.emod_lt_of_pos k (b := scaleCount rom sc) (by omega)
  have hdecomp := Int.mul_ediv_add_emod k (scaleCount rom sc)
  refine ⟨k / scaleCount rom sc, (k % scaleCount rom sc).toNat, by omega, ?_⟩
  rw [Int.toNat_of_nonneg hlo]
  linarith

theorem ScaleWellFormed.usable (h : ScaleWellFormed rom sc) : scaleUsable rom sc = true :=
  (scaleUsable_iff rom sc).mpr ⟨by have := h.index; omega, h.count, h.span⟩

/-- Within an octave the notes rise; from the last note to the next octave the span exceeds the note. -/
theorem ScaleWellFormed.codebook_lt_succ (h : ScaleWellFormed rom sc) (k : Int) :
    codebook rom sc k < codebook rom sc (k + 1) := by
  obtain ⟨q, j, hj, rfl⟩ := exists_octave_note k h.count
  rw [codebook_mul_add q hj]
  by_cases hlast : j + 1 < scaleCount rom sc
  · have hsucc := codebook_mul_add q hlast
    push_cast at hsucc
    rw [add_assoc, hsucc]
    linarith [h.rising j hlast]
  · have hj' : j = scaleCount rom sc - 1 := by omega
    have hnext : q * scaleCount rom sc + (j : Int) + 1 = (q + 1) * scaleCount rom sc + (0 : Nat) := by
      have : (j : Int) + 1 = scaleCount rom sc := by omega
      rw [add_assoc, this]
      push_cast
      ring
    rw [hnext, codebook_mul_add (q + 1) h.count, hj']
    linarith [h.first, h.last]

theorem ScaleWellFormed.codebook_strictMono (h : ScaleWellFormed rom sc) : StrictMono (codebook rom sc) :=
  strictMono_int_of_lt_succ h.codebook_lt_succ

end Codebook

/-- Settles O20. -/
theorem codebookIsPeriodicAndRises : Obligations.CodebookIsPeriodicAndRises :=
  ⟨codebook_def, fun _ _ k hn => codebook_add_count k hn, fun _ _ _ _ h hjk => h.codebook_strictMono hjk⟩

/-! ## The nearest member of the whole codebook (R141) -/

/-- `k` is the first index at which `C` comes nearest to `p`, over all integers. -/
def IsFirstNearest (C : Int → Int) (p k : Int) : Prop :=
  ∀ j, |p - C k| ≤ |p - C j| ∧ (j < k → |p - C k| < |p - C j|)

theorem IsFirstNearest.unique {C : Int → Int} {p k k' : Int} (h : IsFirstNearest C p k)
    (h' : IsFirstNearest C p k') : k = k' := by
  rcases lt_trichotomy k k' with hlt | heq | hgt
  · exact absurd ((h' k).2 hlt) (h k').1.not_gt
  · exact heq
  · exact absurd ((h k').2 hgt) (h' k).1.not_gt

/-- Of a rising codebook, a member is the first nearest if `p` lies above its lower midpoint and not above
its upper one. -/
theorem isFirstNearest_of_midpoints {C : Int → Int} {p k : Int} (hC : StrictMono C)
    (hlo : C (k - 1) + C k < 2 * p) (hhi : 2 * p ≤ C k + C (k + 1)) : IsFirstNearest C p k := by
  intro j
  rcases lt_trichotomy j k with hlt | rfl | hgt
  · have hj : C j ≤ C (k - 1) := hC.monotone (by omega)
    have hk : C (k - 1) < C k := hC (by omega)
    have hnear : |p - C k| < |p - C j| := by
      rw [abs_of_pos (by omega : 0 < p - C j)]
      exact abs_lt.mpr ⟨by omega, by omega⟩
    exact ⟨hnear.le, fun _ => hnear⟩
  · exact ⟨le_rfl, fun h => absurd h (lt_irrefl _)⟩
  · have hj : C (k + 1) ≤ C j := hC.monotone (by omega)
    have hk : C k < C (k + 1) := hC (by omega)
    refine ⟨?_, fun h => absurd h hgt.not_gt⟩
    rw [abs_of_nonpos (by omega : p - C j ≤ 0)]
    exact abs_le.mpr ⟨by omega, by omega⟩

section Search

variable {rom : Config.Roms} {sc : Nat} (h : ScaleWellFormed rom sc) (p : Int)

include h

/-- The first candidate of a search, the last note below the octave of `p`, is lower than `p`. -/
theorem ScaleWellFormed.codebook_first_lt :
    codebook rom sc (p / scaleSpan rom sc * scaleCount rom sc - 1) < p := by
  have hn := h.count
  have hidx : p / scaleSpan rom sc * scaleCount rom sc - 1 =
      (p / scaleSpan rom sc - 1) * scaleCount rom sc + (scaleCount rom sc - 1 : Nat) := by
    push_cast [hn]
    ring
  rw [hidx, codebook_mul_add _ (by omega)]
  have hfloor := Int.ediv_mul_le p h.span.ne'
  linarith [h.last]

/-- The last candidate, the first note above that octave, is higher. -/
theorem ScaleWellFormed.lt_codebook_last :
    p < codebook rom sc (p / scaleSpan rom sc * scaleCount rom sc + scaleCount rom sc) := by
  have hidx : p / scaleSpan rom sc * scaleCount rom sc + (scaleCount rom sc : Int) =
      (p / scaleSpan rom sc + 1) * scaleCount rom sc + (0 : Nat) := by
    push_cast
    ring
  rw [hidx, codebook_mul_add _ h.count]
  have hceil := Int.lt_ediv_add_one_mul_self p h.span
  linarith [h.first]

/-- The candidates reach below `p` and above it, so a member that is no candidate is farther than one that
is. -/
theorem ScaleWellFormed.searchNearest_isFirstNearest :
    IsFirstNearest (codebook rom sc) p (searchNearest rom sc p) := by
  obtain ⟨⟨hge, hle⟩, hnear⟩ := searchNearest_first_nearest rom sc p
  have hfirst := h.codebook_first_lt p
  have hlast := h.lt_codebook_last p
  have hmono := h.codebook_strictMono
  intro j
  rw [Int.abs_eq_natAbs, Int.abs_eq_natAbs]
  rcases lt_or_ge j (p / scaleSpan rom sc * scaleCount rom sc - 1) with hlow | hlow
  · obtain ⟨hcand, -⟩ := hnear _ le_rfl (by omega)
    have hj := hmono hlow
    omega
  rcases lt_or_ge (p / scaleSpan rom sc * scaleCount rom sc + scaleCount rom sc) j with hhigh | hhigh
  · obtain ⟨hcand, -⟩ := hnear _ (by omega) le_rfl
    have hj := hmono hhigh
    omega
  obtain ⟨hcand, hstrict⟩ := hnear j hlow hhigh
  exact ⟨by omega, fun hjr => by have := hstrict hjr; omega⟩

variable {p} {k : Int}

theorem ScaleWellFormed.searchNearest_eq (hk : IsFirstNearest (codebook rom sc) p k) : searchNearest rom sc p = k :=
  (h.searchNearest_isFirstNearest p).unique hk

theorem ScaleWellFormed.searchNearest_codebook : searchNearest rom sc (codebook rom sc k) = k := by
  have hprev := h.codebook_strictMono (sub_one_lt k)
  have hnext := h.codebook_strictMono (lt_add_one k)
  exact h.searchNearest_eq (isFirstNearest_of_midpoints h.codebook_strictMono (by omega) (by omega))

end Search

/-! ## What an enabled `QNT.PROC` leaves in the cell registers (R132, R133) -/

section Held

variable {rom : Config.Roms} {a b : Word} {s : State} {k : Int}

/-- The cell registers hold the cell of member `k`: `State.CellOf` for a given member. -/
def State.HoldsMember (s : State) (rom : Config.Roms) (k : Int) : Prop :=
  s.qcw.toInt = codebook rom s.qscl.toNat k ∧
  s.qpb.toInt = cellBoundary (codebook rom s.qscl.toNat (k - 1)) (codebook rom s.qscl.toNat k) ∧
  s.qnb.toInt = cellBoundary (codebook rom s.qscl.toNat (k + 1)) (codebook rom s.qscl.toNat k) ∧
  (s.qix.toNat : Int) = fmod k (scaleCount rom s.qscl.toNat)

theorem State.cellOf_iff (s : State) (rom : Config.Roms) : s.CellOf rom ↔ ∃ k, s.HoldsMember rom k := Iff.rfl

/-- The boundaries of a cell lie on the two sides of its codeword, and do not reach the neighbours. -/
theorem ScaleWellFormed.cellBoundary_between {sc : Nat} (h : ScaleWellFormed rom sc) (k : Int) :
    let C := codebook rom sc
    (C (k - 1) ≤ cellBoundary (C (k - 1)) (C k) ∧ cellBoundary (C (k - 1)) (C k) ≤ C k) ∧
    (C k ≤ cellBoundary (C (k + 1)) (C k) ∧ cellBoundary (C (k + 1)) (C k) ≤ C (k + 1)) := by
  have hprev := h.codebook_strictMono (sub_one_lt k)
  have hnext := h.codebook_strictMono (lt_add_one k)
  simp only [cellBoundary_def]
  omega

/-- A search writes the cell of the member it found (`State.setCell_cellOf`, with the member named):
the 40 bits of the registers hold the codeword and the boundaries, and 4 bits the note index. -/
theorem State.setCell_holdsMember (s : State) (hu : scaleUsable rom s.qscl.toNat = true)
    {p : Int} (hp : -2 ^ 32 < p ∧ p < 2 ^ 32) :
    (s.setCell rom (searchNearest rom s.qscl.toNat p)).HoldsMember rom (searchNearest rom s.qscl.toNat p) := by
  obtain ⟨⟨hlo, hhi⟩, -⟩ := searchNearest_first_nearest rom s.qscl.toNat p
  generalize searchNearest rom s.qscl.toNat p = k at hlo hhi ⊢
  have hcw := codebook_near_pitch (k := k) hu hp (by omega) (by omega)
  have hprev := codebook_near_pitch (k := k - 1) hu hp (by omega) (by omega)
  have hnext := codebook_near_pitch (k := k + 1) hu hp (by omega) (by omega)
  exact ⟨ofInt40_toInt_of_mem35 hcw, ofInt40_toInt_of_mem35 (cellBoundary_bounds hprev hcw),
    ofInt40_toInt_of_mem35 (cellBoundary_bounds hnext hcw), noteIndex_toNat rom k ((scaleUsable_iff _ _).mp hu).2.1⟩

theorem qntProcWith_holdsMember_of_search (hu : scaleUsable rom s.qscl.toNat = true) (hen : s.qen = true)
    (hout : s.inCell (pitchOf a b) = false) :
    (qntProcWith rom a b s).HoldsMember rom (searchNearest rom s.qscl.toNat (pitchOf a b)) := by
  rw [qntProcWith_of_search hen hout]
  exact s.setCell_holdsMember hu (pitchOf_bounds a b)

theorem qntProcWith_qscl_of_search (hen : s.qen = true) (hout : s.inCell (pitchOf a b) = false) :
    (qntProcWith rom a b s).qscl = s.qscl := by
  rw [qntProcWith_of_search hen hout]
  rfl

theorem qntProcWith_qcw_of_search (hu : scaleUsable rom s.qscl.toNat = true) (hen : s.qen = true)
    (hout : s.inCell (pitchOf a b) = false) :
    (qntProcWith rom a b s).qcw.toInt =
      codebook rom s.qscl.toNat (searchNearest rom s.qscl.toNat (pitchOf a b)) := by
  obtain ⟨hcw, -⟩ := qntProcWith_holdsMember_of_search hu hen hout
  rw [hcw, qntProcWith_qscl_of_search hen hout]

/-- What an enabled `QNT.PROC` can do: it gives the results of a state that holds a cell of the bound scale. -/
theorem qntProcWith_enabled_cases (hu : scaleUsable rom s.qscl.toNat = true) (hen : s.qen = true)
    (hcell : s.qv = true → s.CellOf rom) :
    ∃ x chg, qntProcWith rom a b s = State.quantized x b chg ∧
      x.qen = true ∧ x.qv = true ∧ x.qscl = s.qscl ∧ x.CellOf rom := by
  cases hin : s.inCell (pitchOf a b) with
  | true =>
    obtain ⟨hqv, -⟩ := (inCell_iff s _).mp hin
    exact ⟨s, _, qntProcWith_of_inCell hen hin, hen, hqv, rfl, hcell hqv⟩
  | false =>
    exact ⟨_, _, qntProcWith_of_search hen hin, hen, rfl, rfl, s.setCell_cellOf hu (pitchOf_bounds a b)⟩

/-- The held codeword lies in its own cell. -/
theorem State.HoldsMember.inCell (h : s.HoldsMember rom k) (hw : ScaleWellFormed rom s.qscl.toNat)
    (hqv : s.qv = true) : s.inCell s.qcw.toInt = true := by
  obtain ⟨hcw, hpb, hnb, -⟩ := h
  obtain ⟨⟨-, hlo⟩, hhi, -⟩ := hw.cellBoundary_between k
  rw [inCell_iff, hcw, hpb, hnb]
  exact ⟨hqv, hlo, hhi⟩

/-- The codeword and the note index of a member fix the bits of their registers. -/
theorem State.HoldsMember.setCell_eq (h : s.HoldsMember rom k) {v : State} (hv : v.qscl = s.qscl) :
    (v.setCell rom k).qcw = s.qcw ∧ (v.setCell rom k).qix = s.qix := by
  obtain ⟨hcw, -, -, hix⟩ := h
  rw [State.setCell_qcw, State.setCell_qix, hv, ← hcw, ← hix, BitVec.ofInt_toInt, BitVec.ofInt_natCast,
    BitVec.ofNat_toNat, BitVec.setWidth_eq]
  exact ⟨rfl, rfl⟩

/-- A result that is not saturated has the codeword as its pitch. -/
theorem pitchOf_quantized (x : State) (b : Word) (chg : Bool)
    (hsat : -2147483648 ≤ x.qcw.toInt + b.toInt ∧ x.qcw.toInt + b.toInt ≤ 2147483647) :
    pitchOf (x.quantized b chg).y0 b = x.qcw.toInt := by
  have hy0 : (x.quantized b chg).y0 = u32 (x.qcw.toInt + b.toInt) := by
    rw [quantized_eq, State.finish_y0, sat32_of_mem _ (by simp only [sview]; omega) (by simp only [sview]; omega)]
    rfl
  rw [pitchOf_def, hy0, u32_toInt _ (by omega) (by omega), add_sub_cancel_right]

/-- Quantizing the result of a cell again keeps the cell. -/
theorem qntProcWith_quantized {x : State} {chg : Bool} (hw : ScaleWellFormed rom x.qscl.toNat)
    (hen : x.qen = true) (hqv : x.qv = true) (hk : x.HoldsMember rom k)
    (hsat : -2147483648 ≤ x.qcw.toInt + b.toInt ∧ x.qcw.toInt + b.toInt ≤ 2147483647) :
    qntProcWith rom (x.quantized b chg).y0 b (x.quantized b chg) = { x.quantized b chg with fl := 0x08 } := by
  have hin : (x.quantized b chg).inCell (pitchOf (x.quantized b chg).y0 b) = true := by
    rw [pitchOf_quantized x b chg hsat]
    exact hk.inCell hw hqv
  rw [qntProcWith_of_inCell (s := x.quantized b chg) hen hin]
  rfl

/-- `QNT.CFG` of the well-formed scale already bound only drops the cell (R131). -/
theorem qntCfgWith_qscl (hw : ScaleWellFormed rom s.qscl.toNat) :
    (qntCfgWith rom s.qscl s).qscl = s.qscl ∧ (qntCfgWith rom s.qscl s).qen = true ∧
    (qntCfgWith rom s.qscl s).qv = false := by
  obtain ⟨-, hle⟩ := hw.index
  have hidx : scaleIndex rom s.qscl = s.qscl.toNat := Nat.min_eq_left hle
  simp [qntCfgWith, hidx, hw.usable]

/-- A search finds the member that the codeword is, whatever was held before. -/
theorem qntProcWith_search_codeword {x v : State} (hw : ScaleWellFormed rom x.qscl.toNat) (hk : x.HoldsMember rom k)
    (hscl : v.qscl = x.qscl) (hen : v.qen = true) (hqv : v.qv = false) (hp : pitchOf a b = x.qcw.toInt) :
    qntProcWith rom a b v = (v.setCell rom k).quantized b true := by
  obtain ⟨hcw, -⟩ := hk
  have hout : v.inCell (pitchOf a b) = false := by simp [State.inCell, hqv]
  rw [qntProcWith_of_search hen hout, hp, hcw, hscl, hw.searchNearest_codebook, hqv]
  rfl

end Held

/-- Settles O19. -/
theorem quantizerRegistersHoldExactValues : Obligations.QuantizerRegistersHoldExactValues := by
  intro rom a b s hen hu hout
  have hheld := qntProcWith_holdsMember_of_search (a := a) (b := b) hu hen hout
  have hcell := (State.cellOf_iff _ rom).mpr ⟨_, hheld⟩
  obtain ⟨hcw, hpb, hnb, hix⟩ := hheld
  rw [qntProcWith_qscl_of_search hen hout] at hcw hpb hnb hix
  exact ⟨_, rfl, hcw, hpb, hnb, hix, hcell⟩

/-- Settles O21: the member found is the first nearest, and a lower index is a lower member. -/
theorem searchFindsTheNearestMember : Obligations.SearchFindsTheNearestMember := by
  refine ⟨exec_qntProc, fun rom a b s hw hen hout => ?_⟩
  intro p cw
  have hcw : cw = codebook rom s.qscl.toNat (searchNearest rom s.qscl.toNat p) :=
    qntProcWith_qcw_of_search hw.usable hen hout
  refine ⟨⟨_, hcw⟩, fun j => ?_⟩
  obtain ⟨hle, hlt⟩ := hw.searchNearest_isFirstNearest p j
  rw [hcw]
  exact ⟨hle, fun heq => hw.codebook_strictMono.monotone (not_lt.mp fun hj => (hlt hj).ne heq)⟩

/-- Settles O22: the pitch of the result is the codeword, which lies in its own cell, and which a search
finds again. -/
theorem quantizingAQuantizedPitchKeepsIt : Obligations.QuantizingAQuantizedPitchKeepsIt := by
  intro rom a b s hw hen hcell t hsat
  obtain ⟨x, chg, ht, hxen, hxqv, hxscl, k, hk⟩ := qntProcWith_enabled_cases (a := a) (b := b) hw.usable hen hcell
  rw [← hxscl] at hw ⊢
  have ht' : t = x.quantized b chg := ht
  rw [ht'] at hsat ⊢
  refine ⟨qntProcWith_quantized hw hxen hxqv hk hsat, ?_⟩
  obtain ⟨hscl, hen', hqv'⟩ := qntCfgWith_qscl (s := x.quantized b chg) hw
  obtain ⟨hqcw, hqix⟩ := State.HoldsMember.setCell_eq hk hscl
  intro u
  have hu : u = _ := qntProcWith_search_codeword hw hk hscl hen' hqv' (pitchOf_quantized x b chg hsat)
  rw [hu]
  exact ⟨congrArg (fun w : BitVec 40 => u32 (sat32 (w.toInt + sview b))) hqcw,
    congrArg (fun w : BitVec 4 => u32 w.toNat) hqix, hqcw, rfl⟩

/-- Settles O23: inside the boundaries the cell is kept; without the cell the search finds the member whose
midpoints enclose the pitch. -/
theorem hysteresisKeepsTheCodewordPastTheMidpoint : Obligations.HysteresisKeepsTheCodewordPastTheMidpoint := by
  refine ⟨fun rom a b s hen hqv hlo hhi => ?keep, fun rom a b s k hw hen hqv hcw hpb hnb => ?move⟩
  case keep =>
    rw [qntProcWith_of_inCell hen ((inCell_iff s _).mpr ⟨hqv, hlo, hhi⟩), State.quantized_eq_words]
    rfl
  case move =>
    intro p C fresh
    have hmono : StrictMono C := hw.codebook_strictMono
    obtain ⟨⟨hprev, hlow⟩, hhigh, hnext⟩ := hw.cellBoundary_between k
    have hkeep : s.qpb.toInt ≤ p → p ≤ s.qnb.toInt → (qntProcWith rom a b s).qcw.toInt = C k := by
      intro hlo hhi
      rw [qntProcWith_of_inCell hen ((inCell_iff s _).mpr ⟨hqv, hlo, hhi⟩)]
      exact hcw
    have hfresh {m : Int} (hm : IsFirstNearest C p m) : fresh.qcw.toInt = C m := by
      rw [← hw.searchNearest_eq hm]
      exact qntProcWith_qcw_of_search (s := { s with qv := false }) hw.usable hen rfl
    refine ⟨fun hmid hhi => ?up, fun hmid hlo => ?down⟩
    case up =>
      have h1 : C k < C (k + 1) := hmono (by omega)
      have h2 : C (k + 1) < C (k + 1 + 1) := hmono (by omega)
      refine ⟨hfresh (isFirstNearest_of_midpoints hmono ?_ ?_), hkeep ?_ hhi⟩
      · rw [add_sub_cancel_right]
        exact hmid
      · linarith
      · linarith
    case down =>
      have h1 : C (k - 1) < C k := hmono (by omega)
      have h2 : C (k - 1 - 1) < C (k - 1) := hmono (by omega)
      refine ⟨hfresh (isFirstNearest_of_midpoints hmono ?_ ?_), hkeep hlo ?_⟩
      · linarith
      · rw [sub_add_cancel]
        exact hmid
      · linarith

end Sys2Proof.Machine

/-! # Unit RNG (`42_random.md`) -/

namespace Sys2Proof.Machine

/-! ## The words of the unit (`30_encoding.md` R98) -/

theorem decode_rngSeed_word (x : BitVec 24) (a b : Word) : decode ⟨(0x20 : BitVec 8) ++ x, a, b⟩ = .rngSeed a := by
  simp [decode, decodeListed, append_opcode]

theorem decode_rngNext_word (x : BitVec 24) (a b : Word) : decode ⟨(0x21 : BitVec 8) ++ x, a, b⟩ = .rngNext := by
  simp [decode, decodeListed, append_opcode]

theorem decode_rngGauss_word (x : BitVec 24) (a b : Word) : decode ⟨(0x22 : BitVec 8) ++ x, a, b⟩ = .rngGauss := by
  simp [decode, decodeListed, append_opcode]

theorem decode_rngWbnd_word (x : BitVec 24) (a b : Word) : decode ⟨(0x23 : BitVec 8) ++ x, a, b⟩ = .rngWbnd a b := by
  simp [decode, decodeListed, append_opcode]

theorem decode_rngWset_word (x : BitVec 24) (a b : Word) : decode ⟨(0x24 : BitVec 8) ++ x, a, b⟩ = .rngWset a := by
  simp [decode, decodeListed, append_opcode]

theorem decode_rngWalk_word (x : BitVec 24) (a b : Word) : decode ⟨(0x25 : BitVec 8) ++ x, a, b⟩ = .rngWalk a := by
  simp [decode, decodeListed, append_opcode]

/-! ## What the draws give (R150, R153) -/

/-- The uniform value of a draw as a word: the upper half of the random state. -/
theorem u32_top16 (r : Word) : u32 (top16 r) = (r.extractLsb' 16 16).setWidth 32 := by
  rw [top16_def, u32_natCast]
  apply BitVec.eq_of_toNat_eq
  simp only [BitVec.toNat_ofNat, BitVec.toNat_setWidth, BitVec.extractLsb'_toNat, Nat.shiftRight_eq_div_pow]
  omega

theorem drawSum_zero (rs : Word) : drawSum 0 rs = (0, rs) := by
  rw [drawSum]

/-- The raw sum of the four draws, in order; a draw's uniform value is its upper half. -/
theorem gauss_tot (rs : Word) : (gauss rs).tot =
    (((draw rs).toNat / 65536 + (draw (draw rs)).toNat / 65536 + (draw (draw (draw rs))).toNat / 65536 +
      (draw (draw (draw (draw rs)))).toNat / 65536 : Nat) : Int) := by
  have htot : (gauss rs).tot = (drawSum 4 rs).1 := by rw [gauss]
  rw [htot, drawSum_succ, drawSum_succ, drawSum_succ, drawSum_succ, drawSum_zero]
  simp only [top16_def]
  push_cast
  ring

/-! ## The next state of each command that draws -/

theorem exec_rngNext (s : State) : exec .rngNext s = .next { s with
    rs := draw s.rs, y0 := draw s.rs, y1 := u32 (top16 (draw s.rs)), fl := 0 } := by
  simp only [exec, execRngNext, State.finish, u32_uview, flByte_none]

theorem exec_rngGauss (s : State) : exec .rngGauss s = .next { s with
    rs := (gauss s.rs).rs, y0 := u32 (gauss s.rs).g, y1 := u32 (gauss s.rs).tot, fl := 0 } := by
  simp only [exec, execRngGauss, State.finish, flByte_none]

/-- The position after `RNG.WALK` with scale `a` and Gaussian sample `g` (R157), not yet cut to a word. -/
def State.walked (s : State) (g : Int) (a : Word) : Int :=
  reflect (s.wx.toInt + g * a.toInt / 65536) s.wlo.toInt s.whi.toInt

theorem exec_rngWalk (a : Word) (s : State) : exec (.rngWalk a) s = .next { s with
    rs := (gauss s.rs).rs, wx := u32 (s.walked (gauss s.rs).g a), y0 := u32 (s.walked (gauss s.rs).g a)
    y1 := u32 (gauss s.rs).g, fl := 0 } := by
  simp only [exec, execRngWalk, State.finish, flByte_none]
  rfl

/-! ## Draws (R158) -/

/-- Outside unit RNG only `TM.ADV` draws, and only `SYS.RST` resets the random state (R2). -/
theorem exec_keeps_rs {i : Instr} (s : State) (hr : i ≠ .sysRst) (hu : unitOf i ≠ .rng)
    (hadv : ∀ bip imm a b, i ≠ .tmAdv bip imm a b) : ∃ t, exec i s = .next t ∧ t.rs = s.rs := by
  obtain ⟨t, ht, -, -, hrs, -⟩ := unitsKeepToTheirOwnState.2 i s hr
  exact ⟨t, ht, hrs hu hadv⟩

/-- The random state after a command is that after its draws, whatever its operands and the state are. -/
theorem exec_rs_eq_iterate_draw (i : Instr) (s : State) (hr : i ≠ .sysRst) (hseed : ∀ a, i ≠ .rngSeed a) :
    ∃ t, exec i s = .next t ∧ t.rs = draw^[drawCount i] s.rs := by
  cases i with
  | sysRst => exact absurd rfl hr
  | rngSeed a => exact absurd rfl (hseed a)
  | rngNext => exact ⟨_, exec_rngNext s, rfl⟩
  | rngGauss => exact ⟨_, exec_rngGauss s, gauss_rs s.rs⟩
  | rngWalk a => exact ⟨_, exec_rngWalk a s, gauss_rs s.rs⟩
  | rngWbnd | rngWset | tmAdv => exact ⟨_, rfl, rfl⟩
  | _ => exact exec_keeps_rs s nofun nofun nofun

theorem drawCount_eq_zero {i : Instr} (hnext : i ≠ .rngNext) (hgauss : i ≠ .rngGauss) (hwalk : ∀ a, i ≠ .rngWalk a)
    (hadv : ∀ bip imm a b, i ≠ .tmAdv bip imm a b) : drawCount i = 0 := by
  cases i with
  | rngNext => exact absurd rfl hnext
  | rngGauss => exact absurd rfl hgauss
  | rngWalk a => exact absurd rfl (hwalk a)
  | tmAdv bip imm a b => exact absurd rfl (hadv bip imm a b)
  | _ => rfl

/-- Settles O11: command by command; a Gaussian sample takes four draws (`gauss_rs`). -/
theorem drawsDependOnTheCommandOnly : Obligations.DrawsDependOnTheCommandOnly :=
  ⟨exec_rs_eq_iterate_draw, fun _ => ⟨_, rfl, rfl⟩, fun _ _ => ⟨_, rfl, rfl⟩,
    ⟨rfl, rfl, fun _ => rfl, fun _ _ _ _ => rfl⟩, fun _ => drawCount_eq_zero⟩

/-! ## Seed and uniform draw (R151, R152) -/

/-- Settles O24: the seed is loaded as it stands, and both results and the flag byte are written with 0. -/
theorem rngSeedLoadsTheRandomState : Obligations.RngSeedLoadsTheRandomState :=
  ⟨decode_rngSeed_word, fun _ _ => rfl⟩

/-- Settles O25: the second result is the uniform value of the draw. -/
theorem rngNextReturnsOneDraw : Obligations.RngNextReturnsOneDraw := by
  refine ⟨decode_rngNext_word, fun s => ?_⟩
  intro r
  rw [exec_rngNext, u32_top16]
  rfl

/-! ## The Gaussian sample (R153, R154) -/

/-- Settles O26: the four draws are those of `gauss`, and its laws bound the sum and the sample. -/
theorem rngGaussSumsFourDraws : Obligations.RngGaussSumsFourDraws := by
  refine ⟨decode_rngGauss_word, fun s => ?_⟩
  intro next r1 r2 r3 r4 tot g
  have hrs : (gauss s.rs).rs = r4 := gauss_rs s.rs
  have htot : (gauss s.rs).tot = tot := gauss_tot s.rs
  have hg : (gauss s.rs).g = g := by rw [gauss_g, htot]
  have htotBound := (gauss_tot_bounds s.rs).2
  have hgBounds := gauss_g_bounds s.rs
  rw [htot] at htotBound
  rw [hg] at hgBounds
  refine ⟨?_, by exact_mod_cast htotBound, hgBounds⟩
  rw [exec_rngGauss, hrs, hg, htot, u32_natCast]
  rfl

/-! ## The random walk (R155 to R157) -/

/-- An integer between two words is the value of the word that holds it. -/
theorem u32_toInt_of_between {x : Int} {lo hi : Word} (h : lo.toInt ≤ x ∧ x ≤ hi.toInt) : (u32 x).toInt = x :=
  u32_toInt x ((sview_bounds lo).1.trans h.1) (h.2.trans_lt (sview_bounds hi).2)

/-- Settles O27: the two operands in order are the bounds, so that the clamp puts the position between them. -/
theorem rngWbndSetsTheBoundsInEitherOrder : Obligations.RngWbndSetsTheBoundsInEitherOrder := by
  refine ⟨decode_rngWbnd_word, fun a b s => ?_⟩
  intro lo hi x
  have ha := sview_bounds a
  have hb := sview_bounds b
  have hlo : -2 ^ 31 ≤ lo := le_min ha.1 hb.1
  have hhi : hi < 2 ^ 31 := max_lt ha.2 hb.2
  have hx : lo ≤ x ∧ x ≤ hi := clamp_bounds s.wx.toInt lo hi min_le_max
  exact ⟨rfl, u32_toInt lo hlo (by omega), u32_toInt hi (by omega) hhi, u32_toInt x (by omega) (by omega), hx⟩

/-- Settles O28: the position and the first result are the same clamped operand. -/
theorem rngWsetClampsThePosition : Obligations.RngWsetClampsThePosition :=
  ⟨decode_rngWset_word, fun _ _ => rfl⟩

/-- A position inside the bounds is reflected in neither of them and not clamped. -/
theorem reflect_of_mem {y lo hi : Int} (hlo : lo ≤ y) (hhi : y ≤ hi) : reflect y lo hi = y := by
  rw [reflect, if_neg hhi.not_gt, if_neg hlo.not_gt, clamp_of_mem y lo hi hlo hhi]

theorem State.walked_bounds (s : State) (g : Int) (a : Word) (h : s.wlo.toInt ≤ s.whi.toInt) :
    s.wlo.toInt ≤ s.walked g a ∧ s.walked g a ≤ s.whi.toInt := reflect_bounds _ _ _ h

/-- With scale 0 the step is 0, whatever the sample is. -/
theorem State.walked_zero (s : State) (g : Int) (hlo : s.wlo.toInt ≤ s.wx.toInt) (hhi : s.wx.toInt ≤ s.whi.toInt) :
    s.walked g 0 = s.wx.toInt := by
  have hstep : s.wx.toInt + g * (0 : Word).toInt / 65536 = s.wx.toInt := by simp
  rw [State.walked, hstep, reflect_of_mem hlo hhi]

/-- Settles O29: the pseudocode is that of `reflect`, the sample that of `gauss`. -/
theorem rngWalkReflectsOnceThenClamps : Obligations.RngWalkReflectsOnceThenClamps := by
  refine ⟨decode_rngWalk_word, fun a s => ?_⟩
  intro next r1 r2 r3 r4 tot g lo hi y y' x
  have hrs : (gauss s.rs).rs = r4 := gauss_rs s.rs
  have htot : (gauss s.rs).tot = tot := gauss_tot s.rs
  have hg : (gauss s.rs).g = g := by rw [gauss_g, htot]
  have hx : s.walked g a = x := rfl
  refine ⟨?next, fun hle => ?bounds, fun ha hlo hhi => ?still⟩
  case next =>
    rw [exec_rngWalk, hrs, hg, hx]
    rfl
  case bounds =>
    have hbetween : lo ≤ x ∧ x ≤ hi := s.walked_bounds g a hle
    have hword : (BitVec.ofInt 32 x).toInt = x := u32_toInt_of_between hbetween
    rwa [hword]
  case still =>
    subst ha
    rw [← hx, s.walked_zero g hlo hhi, BitVec.ofInt_toInt]

end Sys2Proof.Machine

/-! # Unit TM (`43_turing.md`) -/

namespace Sys2Proof.Machine

/-! ## The words of the unit (`30_encoding.md` R98) -/

theorem decode_tmLoad_word (x : BitVec 24) (a b : Word) : decode ⟨(0x30 : BitVec 8) ++ x, a, b⟩ =
    .tmLoad (x.getLsbD 16) (x.extractLsb' 0 16) (a.extractLsb' 0 16) := by
  simp [decode, decodeListed, append_opcode, append_imm, append_modBit]

theorem decode_tmAdv_word (x : BitVec 24) (a b : Word) : decode ⟨(0x31 : BitVec 8) ++ x, a, b⟩ =
    .tmAdv (x.getLsbD 16) (x.extractLsb' 0 16) a b := by
  simp [decode, decodeListed, append_opcode, append_imm, append_modBit]

theorem decode_tmGet_word (x : BitVec 24) (a b : Word) :
    decode ⟨(0x32 : BitVec 8) ++ x, a, b⟩ = .tmGet (x.extractLsb' 0 16) := by
  simp [decode, decodeListed, append_opcode, append_imm]

/-! ## The maps and the register (R170, R172, R176) -/

theorem tmVal_def (sr : BitVec 16) (bip : Bool) :
    tmVal sr bip =
      if bip then 2 * ((sr.toNat : Int) + if sr.getLsbD 15 then 1 else 0) - 65536
      else (sr.toNat : Int) + if sr.getLsbD 15 then 1 else 0 := by
  have hbit : ((sr.getLsbD 15).toNat : Int) = if sr.getLsbD 15 then 1 else 0 := by
    cases sr.getLsbD 15 <;> rfl
  rw [← hbit]
  rfl

theorem tmSteps_def (b : Word) : tmSteps b = max 1 (min 16 (1 + max 0 (min 65536 b.toInt) * 16 / 65536)) := rfl

theorem tmProb_def (a : Word) :
    tmProb a = max 0 (min 65536 a.toInt) + max 0 (min 65536 a.toInt) / 32 - 1024 := rfl

/-- The shift toward bit 0 with the new bit put in at the top, as the pseudocode writes it. -/
theorem tmShift_eq_or (sr : BitVec 16) (steps : Int) (flip : Bool) :
    tmShift sr steps flip =
      (sr >>> 1) ||| (if sr.getLsbD (16 - steps).toNat ^^ flip then 0x8000 else 0x0000) := by
  apply BitVec.eq_of_getLsbD_eq
  intro j hj
  by_cases htop : j = 15
  · subst htop
    rw [tmShift_top]
    cases sr.getLsbD (16 - steps).toNat ^^ flip <;> simp
  · rw [tmShift_low sr steps flip j (by omega)]
    have hzero : (0x8000#16).getLsbD j = false := by
      rw [show 0x8000#16 = BitVec.twoPow 16 15 from rfl, BitVec.getLsbD_twoPow]
      simp [Ne.symm htop]
    cases sr.getLsbD (16 - steps).toNat ^^ flip <;> simp [hzero, Nat.add_comm]

/-- The smallest uniform value is 0, so the draw never flips exactly if the rescaled probability is not positive. -/
theorem forall_tmFlip_eq_false_iff (a : Word) : (∀ r, tmFlip a r = false) ↔ max 0 (min 65536 a.toInt) ≤ 993 := by
  have hprob := tmProb_def a
  constructor
  · intro h
    have hzero : ¬ (0 : Int) < tmProb a := of_decide_eq_false (h 0)
    omega
  · intro h r
    have hr := top16_bounds r
    exact decide_eq_false (by omega)

/-- The largest uniform value is 65535, so the draw always flips exactly if the rescaled probability exceeds it. -/
theorem forall_tmFlip_eq_true_iff (a : Word) : (∀ r, tmFlip a r = true) ↔ 64544 ≤ max 0 (min 65536 a.toInt) := by
  have hprob := tmProb_def a
  constructor
  · intro h
    have hones : (65535 : Int) < tmProb a := (tmFlip_iff a 0xFFFFFFFF).mp (h _)
    omega
  · intro h r
    have hr := top16_bounds r
    exact (tmFlip_iff a r).mpr (by omega)

/-! ## The next state of each command -/

theorem u32_register (sr : BitVec 16) : u32 (sr.toNat : Int) = sr.setWidth 32 := by
  rw [u32_natCast, BitVec.ofNat_toNat]

theorem flByte_chg_only (p : Prop) [Decidable p] : flByte { chg := decide p } = if p then 0x01 else 0x00 := by
  split
  next hp => rw [decide_eq_true hp]; rfl
  next hp => rw [decide_eq_false hp]; rfl

theorem exec_tmLoad (bip : Bool) (imm sr : BitVec 16) (s : State) :
    exec (.tmLoad bip imm sr) s = .next ({ s with
        y0 := u32 (tmVal sr bip), y1 := sr.setWidth 32, fl := 0 }.setSlot (slotIndex imm)
      { sr := sr, v := u32 (tmVal sr bip), n := (s.slot (slotIndex imm)).n }) := by
  rw [← u32_register, ← flByte_none]
  rfl

/-- The record that `TM.ADV` leaves in its slot (R172). -/
def State.advanced (s : State) (bip : Bool) (imm : BitVec 16) (a b : Word) : TmSlot :=
  let sr := tmShift (s.slot (slotIndex imm)).sr (tmSteps b) (tmFlip a (draw s.rs))
  { sr := sr, v := u32 (tmVal sr bip), n := BitVec.ofInt 5 (tmSteps b) }

theorem exec_tmAdv (bip : Bool) (imm : BitVec 16) (a b : Word) (s : State) :
    exec (.tmAdv bip imm a b) s = .next ({ s with
        rs := draw s.rs, y0 := (s.advanced bip imm a b).v, y1 := (s.advanced bip imm a b).sr.setWidth 32
        fl := if (s.advanced bip imm a b).sr ≠ (s.slot (slotIndex imm)).sr then 0x01 else 0x00 }.setSlot
      (slotIndex imm) (s.advanced bip imm a b)) := by
  simp only [← u32_register, ← flByte_chg_only]
  rfl

theorem exec_tmGet (imm : BitVec 16) (s : State) :
    exec (.tmGet imm) s = .next { s with
      y0 := (s.slot (slotIndex imm)).v, y1 := (s.slot (slotIndex imm)).sr.setWidth 32, fl := 0 } := by
  simp only [exec, execTmGet, State.finish, u32_toInt_word, u32_register, flByte_none]

/-! ## The lock (R175) -/

/-- The register's bits from bit 0 on are those of the bit stream `σ` from place `m` on. -/
def Shows (σ : Nat → Bool) (m : Nat) (sr : BitVec 16) : Prop := ∀ j, j < 16 → sr.getLsbD j = σ (j + m)

/-- From place 16 on each bit of the stream is the one `steps` places before it, complemented if `flip`. -/
def LoopsBack (σ : Nat → Bool) (steps : Nat) (flip : Bool) : Prop := ∀ k, 16 ≤ k + steps → σ (k + steps) = (σ k ^^ flip)

/-- An advance of a register that shows a stream shows it one place further on, if the bit it injects is
the stream's next. -/
theorem Shows.shift {σ : Nat → Bool} {m steps : Nat} {flip : Bool} {sr : BitVec 16} (h : Shows σ m sr)
    (hσ : LoopsBack σ steps flip) (h1 : 1 ≤ steps) (h16 : steps ≤ 16) : Shows σ (m + 1) (tmShift sr steps flip) := by
  intro j hj
  by_cases htop : j = 15
  · have htap : (16 - (steps : Int)).toNat = 16 - steps := by omega
    have hnext : σ (16 - steps + m + steps) = (σ (16 - steps + m) ^^ flip) := hσ _ (by omega)
    rw [htop, tmShift_top, htap, h _ (by omega), ← hnext]
    congr 1
    omega
  · rw [tmShift_low sr steps flip j (by omega), h _ (by omega)]
    congr 1
    omega

theorem Shows.unique {σ : Nat → Bool} {m m' : Nat} {sr sr' : BitVec 16} (h : Shows σ m sr) (h' : Shows σ m' sr')
    (hσ : ∀ j, j < 16 → σ (j + m) = σ (j + m')) : sr = sr' :=
  BitVec.eq_of_getLsbD_eq fun j hj => by rw [h j hj, h' j hj, hσ j hj]

/-- A stream that loops back unchanged has period `steps`, one that loops back complemented twice that. -/
theorem LoopsBack.period {σ : Nat → Bool} {steps : Nat} {flip : Bool} (hσ : LoopsBack σ steps flip) {k : Nat}
    (hk : 16 ≤ k) : σ (k + if flip then 2 * steps else steps) = σ k := by
  have honce := hσ k (by omega)
  cases flip with
  | false => simpa using honce
  | true =>
    have htwice := hσ (k + steps) (by omega)
    simp [two_mul, ← Nat.add_assoc, htwice, honce]

/-- The stream of the lock: the bits of the first register, then its top `steps` bits over and over, each
time round complemented if `flip`. -/
def lockedStream (first : BitVec 16) (steps : Nat) (flip : Bool) (k : Nat) : Bool :=
  if k < 16 then first.getLsbD k
  else first.getLsbD (16 - steps + (k - 16) % steps) ^^ (flip && decide ((k - 16) / steps % 2 = 0))

theorem shows_lockedStream (first : BitVec 16) (steps : Nat) (flip : Bool) :
    Shows (lockedStream first steps flip) 0 first := by
  intro j hj
  rw [lockedStream, if_pos (by omega), Nat.add_zero]

theorem lockedStream_loopsBack (first : BitVec 16) {steps : Nat} (flip : Bool) (h1 : 1 ≤ steps) (h16 : steps ≤ 16) :
    LoopsBack (lockedStream first steps flip) steps flip := by
  intro k hk
  rw [lockedStream, if_neg (by omega), lockedStream]
  split
  case isTrue hfirst =>
    have hlt : k + steps - 16 < steps := by omega
    rw [Nat.mod_eq_of_lt hlt, Nat.div_eq_of_lt hlt, show 16 - steps + (k + steps - 16) = k by omega]
    simp
  case isFalse hlater =>
    have hback : k + steps - 16 = k - 16 + steps := by omega
    have hparity : (decide (((k - 16) / steps + 1) % 2 = 0)) = !decide ((k - 16) / steps % 2 = 0) := by
      rw [← decide_not, decide_eq_decide]
      omega
    rw [hback, Nat.add_mod_right, Nat.add_div_right _ h1, hparity]
    cases flip <;> simp

/-- A run of `TM.ADV` whose draws all flip or all do not: each advance shows the next place of the stream,
takes one draw and leaves the other slots. -/
theorem execAll_replicate_tmAdv {σ : Nat → Bool} {flip : Bool} {a b : Word} (bip : Bool) (imm : BitVec 16)
    (hflip : ∀ r, tmFlip a r = flip) (hσ : LoopsBack σ (tmSteps b).toNat flip) (n m : Nat) (s : State)
    (h : Shows σ m (s.slot (slotIndex imm)).sr) :
    ∃ t, execAll (List.replicate n (.tmAdv bip imm a b)) s = .next t ∧
      Shows σ (m + n) (t.slot (slotIndex imm)).sr ∧ t.rs = draw^[n] s.rs ∧
      ∀ j, j ≠ slotIndex imm → t.slot j = s.slot j := by
  induction n generalizing m s with
  | zero => exact ⟨s, rfl, h, rfl, fun _ _ => rfl⟩
  | succ n ih =>
    have hsteps := tmSteps_bounds b
    have hcast : ((tmSteps b).toNat : Int) = tmSteps b := Int.toNat_of_nonneg (by omega)
    have hadv := exec_tmAdv bip imm a b s
    have hshift := h.shift hσ (by omega) (by omega)
    rw [hcast, ← hflip (draw s.rs)] at hshift
    generalize hu : State.setSlot _ (slotIndex imm) (s.advanced bip imm a b) = u at hadv
    have hslot : u.slot (slotIndex imm) = s.advanced bip imm a b := by rw [← hu, State.setSlot_slot_same]
    obtain ⟨t, ht, hsr, hrs, hother⟩ := ih (m + 1) u (by rwa [hslot])
    refine ⟨t, ?run, ?shows, ?draws, fun j hj => ?others⟩
    case run => rw [List.replicate_succ, execAll_cons_of_next _ hadv, ht]
    case shows => rwa [Nat.add_assoc, Nat.add_comm 1] at hsr
    case draws => rw [hrs, Function.iterate_succ_apply, ← hu, State.setSlot_rs]
    case others =>
      rw [hother j hj, ← hu, State.setSlot_slot_other _ _ _ _ hj]
      rfl

/-! ## The obligations -/

/-- Settles O30: the next state is that of `exec_tmLoad`, with the value written out (`tmVal_def`). -/
theorem tmLoadWritesRegisterAndValue : Obligations.TmLoadWritesRegisterAndValue := by
  refine ⟨decode_tmLoad_word, fun bip imm sr s => ?_⟩
  intro slot u v
  have hv : tmVal sr bip = v := tmVal_def sr bip
  refine ⟨_, exec_tmLoad bip imm sr s, ?_⟩
  rw [hv]
  exact ⟨rfl, State.setSlot_slot_same _ _ _, fun j hj => State.setSlot_slot_other _ _ _ _ hj⟩

/-- Settles O31: the next state is that of `exec_tmAdv`, with the shift and the value written out. -/
theorem tmAdvShiftsAndInjectsOneBit : Obligations.TmAdvShiftsAndInjectsOneBit := by
  refine ⟨decode_tmAdv_word, fun bip imm a b s => ?_⟩
  intro slot len steps p p' r flip sr new sr2 u v
  have hflip : tmFlip a r = flip := by
    simp only [tmFlip, top16_def]
    rfl
  have hsr2 : tmShift sr (tmSteps b) (tmFlip a r) = sr2 := by
    rw [hflip]
    exact tmShift_eq_or sr steps flip
  have hv : tmVal sr2 bip = v := tmVal_def sr2 bip
  have hx : s.advanced bip imm a b = { sr := sr2, v := u32 v, n := BitVec.ofInt 5 steps } := by
    rw [← hv, ← hsr2]
    rfl
  refine ⟨_, exec_tmAdv bip imm a b s, ?_⟩
  rw [hx]
  exact ⟨rfl, State.setSlot_slot_same _ _ _, fun j hj => State.setSlot_slot_other _ _ _ _ hj⟩

/-- Settles O32: the value and the register of the slot are the two results. -/
theorem tmGetReturnsValueAndRegister : Obligations.TmGetReturnsValueAndRegister :=
  ⟨decode_tmGet_word, exec_tmGet⟩

/-- Settles O33: the length map is a floor of a linear map; the locks are where the rescaled probability
lies outside what a draw can give. -/
theorem lengthAndProbabilityMapsAreTheTables : Obligations.LengthAndProbabilityMapsAreTheTables := by
  refine ⟨?low, ?step, ?high, forall_tmFlip_eq_false_iff, forall_tmFlip_eq_true_iff, ?draw, by decide⟩
  case low =>
    intro b hb
    rw [tmSteps_def]
    omega
  case step =>
    intro b k h0 h15 hlo hhi
    rw [tmSteps_def]
    omega
  case high =>
    intro b hb
    rw [tmSteps_def]
    omega
  case draw =>
    intro a r
    rw [tmFlip_iff, top16_def]

/-- Settles O34: the registers of the run show one bit stream, each a place further on than the one before. -/
theorem lockedRegisterRepeatsItsFirstBits : Obligations.LockedRegisterRepeatsItsFirstBits := by
  intro bip imm a b s n p steps slot one first hlock
  have hflip : ∀ r, tmFlip a r = one := by
    rcases hlock with hp | hp
    · rw [show one = false from decide_eq_false (by omega)]
      exact (forall_tmFlip_eq_false_iff a).mpr hp
    · rw [show one = true from decide_eq_true hp]
      exact (forall_tmFlip_eq_true_iff a).mpr hp
  have hbounds : 1 ≤ steps ∧ steps ≤ 16 := by
    have := tmSteps_bounds b
    change 1 ≤ (tmSteps b).toNat ∧ (tmSteps b).toNat ≤ 16
    omega
  have hσ : LoopsBack (lockedStream first steps one) steps one := lockedStream_loopsBack first one hbounds.1 hbounds.2
  have hrun := fun k => execAll_replicate_tmAdv bip imm hflip hσ k 0 s (shows_lockedStream first steps one)
  obtain ⟨t, ht, hsr, hrs, hother⟩ := hrun n
  obtain ⟨t', ht', hsr', -⟩ := hrun (n + if one then 2 * steps else steps)
  refine ⟨t, ht, ?bits, ⟨t', ht', fun hn => ?period⟩, hrs, hother⟩
  case bits =>
    intro j hj
    have hbit := hsr j hj
    rwa [Nat.zero_add, lockedStream] at hbit
  case period =>
    refine hsr'.unique hsr fun j hj => ?_
    rw [Nat.zero_add, Nat.zero_add, ← Nat.add_assoc]
    exact hσ.period (by omega)

end Sys2Proof.Machine

/-! # Units PHA and RX (`44_phase_ramp.md`) -/

namespace Sys2Proof.Machine

/-! ## The words of the two units (`30_encoding.md` R98) -/

theorem decode_phaRst_word (x : BitVec 24) (a b : Word) : decode ⟨(0x40 : BitVec 8) ++ x, a, b⟩ = .phaRst := by
  simp [decode, decodeListed, append_opcode]

theorem decode_phaStep_word (x : BitVec 24) (a b : Word) : decode ⟨(0x41 : BitVec 8) ++ x, a, b⟩ =
    .phaStep (x.extractLsb' 20 4) (x.getLsbD 16) (x.getLsbD 17) (x.getLsbD 18) a := by
  simp [decode, decodeListed, append_opcode, append_gf, append_modBit]

/-- `mod[1:0]` are bits 17:16 of the word (R95). -/
theorem decode_phaRate_word (x : BitVec 24) (a b : Word) :
    decode ⟨(0x42 : BitVec 8) ++ x, a, b⟩ = .phaRate (.ofBits (x.extractLsb' 16 2)) a := by
  have hmod : (x.extractLsb' 16 4).extractLsb' 0 2 = x.extractLsb' 16 2 := by
    apply BitVec.eq_of_getLsbD_eq
    intro i hi
    simp [hi, show i < 4 by omega]
  simp [decode, decodeListed, append_opcode, append_mod, hmod]

theorem decode_phaSet_word (x : BitVec 24) (a b : Word) : decode ⟨(0x43 : BitVec 8) ++ x, a, b⟩ = .phaSet a := by
  simp [decode, decodeListed, append_opcode]

theorem decode_phaGet_word (x : BitVec 24) (a b : Word) : decode ⟨(0x44 : BitVec 8) ++ x, a, b⟩ = .phaGet := by
  simp [decode, decodeListed, append_opcode]

theorem decode_rxRst_word (x : BitVec 24) (a b : Word) : decode ⟨(0x50 : BitVec 8) ++ x, a, b⟩ = .rxRst := by
  simp [decode, decodeListed, append_opcode]

theorem decode_rxStep_word (x : BitVec 24) (a b : Word) :
    decode ⟨(0x51 : BitVec 8) ++ x, a, b⟩ = .rxStep (x.extractLsb' 20 4) a := by
  simp [decode, decodeListed, append_opcode, append_gf]

/-! ## The results that report a phase (R191, R202) -/

theorem u32_phaseWord (ph : Nat) : u32 (phaseWord ph) = BitVec.ofNat 32 ph :=
  BitVec.eq_of_toNat_eq (by rw [phaseWord_u32, BitVec.toNat_ofNat])

theorem finishPhase_words (s : State) (ph : Nat) (f : Flags) : s.finishPhase ph f =
    { s with y0 := BitVec.ofNat 32 ph, y1 := BitVec.ofNat 32 (ph / 65536), fl := flByte f } := by
  rw [finishPhase_eq, State.finish, u32_phaseWord, phaseQ16_eq, u32_natCast]

theorem flByte_done_only (p : Prop) [Decidable p] : flByte { done := decide p } = if p then 0x02 else 0x00 := by
  split
  next hp => rw [decide_eq_true hp]; rfl
  next hp => rw [decide_eq_false hp]; rfl

theorem flByte_wrap_only (p : Prop) [Decidable p] : flByte { wrap := decide p } = if p then 0x04 else 0x00 := by
  split
  next hp => rw [decide_eq_true hp]; rfl
  next hp => rw [decide_eq_false hp]; rfl

/-- `s` with the phase at `ph` and the results reporting it, `DONE` exactly at 1.0: what `PHA.SET`
and a step of a ramp without a restart leave. -/
def State.atPhase (s : State) (ph : Nat) : State :=
  { s with
    ph := BitVec.ofNat 33 ph, y0 := BitVec.ofNat 32 ph, y1 := BitVec.ofNat 32 (ph / 65536)
    fl := if ph = 2 ^ 32 then 0x02 else 0x00 }

theorem finishPhase_eq_atPhase (s : State) (ph : Nat) :
    { s with ph := BitVec.ofNat 33 ph }.finishPhase ph { done := decide (ph = 2 ^ 32) } = s.atPhase ph := by
  rw [finishPhase_words, flByte_done_only]
  rfl

theorem State.atPhase_atPhase (s : State) (p q : Nat) : (s.atPhase p).atPhase q = s.atPhase q := rfl

theorem State.atPhase_ph_toNat (s : State) {p : Nat} (h : p ≤ 2 ^ 32) : (s.atPhase p).ph.toNat = p :=
  ofNat33_toNat_of_le h

/-! ## The commands of PHA -/

/-- Settles O35: the next state of `PHA.RST` is that of the rule. -/
theorem phaRstClearsThePhase : Obligations.PhaRstClearsThePhase :=
  ⟨decode_phaRst_word, fun _ => rfl⟩

/-- The integrator's two answers as R191 writes them: the new phase and whether the sum passed 1.0. -/
theorem integrate_eq (ph0 inc : Nat) (loop hold : Bool) : integrate ph0 inc loop hold =
    (if hold then ph0 else if loop then (ph0 + inc) % 2 ^ 32 else min (ph0 + inc) (2 ^ 32),
      !hold && loop && decide (2 ^ 32 ≤ ph0 + inc)) := by
  cases hold with
  | true => rfl
  | false => cases loop <;> rfl

/-- Settles O36: the phase and `WRAP` are those of the integrator (`integrate_eq`). -/
theorem phaStepRestartsThenIntegrates : Obligations.PhaStepRestartsThenIntegrates := by
  refine ⟨decode_phaStep_word, fun gf loop retrig hold a s => ?_⟩
  intro chg ph0 y wrap ph done
  have hint : integrate ph0 a.toNat loop hold = (ph, wrap) := integrate_eq ph0 a.toNat loop hold
  have hexec : exec (.phaStep gf loop retrig hold a) s = .next
      ({ s with ph := BitVec.ofNat 33 (integrate ph0 a.toNat loop hold).1 }.finishPhase
        (integrate ph0 a.toNat loop hold).1
        { chg := chg, done := !hold && decide ((integrate ph0 a.toNat loop hold).1 = 2 ^ 32)
          wrap := (integrate ph0 a.toNat loop hold).2 }) := rfl
  rw [hexec, hint, finishPhase_words]
  rfl

theorem rangeShift_eq (range : RangeSel) (f : Int) : rangeShift range f =
    match range with
    | .slow => f / 8 | .default => f | .fast => f * 8 | .audio => f * 64 := by
  cases range with
  | default => exact mul_one f
  | slow | fast | audio => rfl

/-- Settles O37: the curve and the clamps are the rule's, the range is `rangeShift_eq`. -/
theorem phaRateInterpolatesScalesAndClamps : Obligations.PhaRateInterpolatesScalesAndClamps := by
  refine ⟨decode_phaRate_word, fun range a s => ?_⟩
  intro t idx fr lo hi f g
  have hcurve : rateCurve Config.roms (unitParam a) = f := rfl
  have hrate : rateWith Config.roms range a = max 1 (min 2147483648 g) := by
    rw [rateWith, hcurve, rangeShift_eq]
    rfl
  rw [← hrate]
  rfl

/-- Settles O39: the phase is the clamped parameter, 16 bits up. -/
theorem phaSetLoadsTheClampedPhase : Obligations.PhaSetLoadsTheClampedPhase :=
  ⟨decode_phaSet_word, fun _ s => congrArg _ (finishPhase_eq_atPhase s _)⟩

/-- Settles O40: the phase reported is the one that stands. -/
theorem phaGetReportsThePhase : Obligations.PhaGetReportsThePhase := by
  refine ⟨decode_phaGet_word, fun s => ?_⟩
  have hexec : exec .phaGet s = .next (s.finishPhase s.ph.toNat { done := decide (s.ph.toNat = 2 ^ 32) }) := rfl
  rw [hexec, finishPhase_words, flByte_done_only]

/-! ## The commands of RX -/

/-- Settles O42: the next state of `RX.RST` is that of the rule. -/
theorem rxRstClearsTheExtractor : Obligations.RxRstClearsTheExtractor :=
  ⟨decode_rxRst_word, fun _ => rfl⟩

theorem exec_rxStep (gf : GateFlags) (a : Word) (s : State) : exec (.rxStep gf a) s = .next
    (if gf.getLsbD 3 then rxFree a s else if !gf.getLsbD 3 && gf.getLsbD 1 then rxTap s else rxBetween s) := rfl

section RxStep

variable {gf : GateFlags} (a : Word) (s : State)

theorem exec_rxStep_free (habsent : gf.getLsbD 3 = true) : exec (.rxStep gf a) s = .next (rxFree a s) := by
  rw [exec_rxStep, if_pos habsent]

theorem exec_rxStep_tap (habsent : gf.getLsbD 3 = false) (hrising : gf.getLsbD 1 = true) :
    exec (.rxStep gf a) s = .next (rxTap s) := by
  rw [exec_rxStep, habsent, hrising]
  rfl

theorem exec_rxStep_between (habsent : gf.getLsbD 3 = false) (hrising : gf.getLsbD 1 = false) :
    exec (.rxStep gf a) s = .next (rxBetween s) := by
  rw [exec_rxStep, habsent, hrising]
  rfl

theorem rxFree_eq : rxFree a s = { s with
    rxp := BitVec.ofNat 33 ((s.rxp.toNat + a.toNat) % 2 ^ 32), y0 := BitVec.ofNat 32 (s.rxp.toNat + a.toNat)
    y1 := BitVec.ofNat 32 ((s.rxp.toNat + a.toNat) % 2 ^ 32 / 65536)
    fl := if 2 ^ 32 ≤ s.rxp.toNat + a.toNat then 0x04 else 0x00 } := by
  have hword : BitVec.ofNat 32 ((s.rxp.toNat + a.toNat) % 2 ^ 32) = BitVec.ofNat 32 (s.rxp.toNat + a.toNat) :=
    BitVec.eq_of_toNat_eq (by simp)
  simp only [rxFree, finishPhase_words, flByte_wrap_only, hword]

theorem rxTap_eq : rxTap s = { s with
    rxf := if s.rxv then BitVec.ofNat 32 (tapIncrement (s.rxc.toNat + 1)) else s.rxf, rxv := true, rxc := 0, rxp := 0
    y0 := 0, y1 := 0, fl := 0x01 } := rfl

theorem rxBetween_eq : rxBetween s = { s with
    rxc := BitVec.ofNat 32 (min (s.rxc.toNat + 1) (2 ^ 32 - 1))
    rxp := BitVec.ofNat 33 (min (s.rxp.toNat + s.rxf.toNat) (2 ^ 32))
    y0 := BitVec.ofNat 32 (min (s.rxp.toNat + s.rxf.toNat) (2 ^ 32))
    y1 := BitVec.ofNat 32 (min (s.rxp.toNat + s.rxf.toNat) (2 ^ 32) / 65536)
    fl := if min (s.rxp.toNat + s.rxf.toNat) (2 ^ 32) = 2 ^ 32 then 0x02 else 0x00 } := by
  simp only [rxBetween, finishPhase_words, flByte_done_only]

end RxStep

/-- Settles O43: one rule per branch. -/
theorem rxStepRunsFreeTapsOrAdvances : Obligations.RxStepRunsFreeTapsOrAdvances := by
  refine ⟨decode_rxStep_word, fun gf a s => ?_⟩
  intro y tapped p
  cases habsent : gf.getLsbD 3 with
  | true => exact (exec_rxStep_free a s habsent).trans (congrArg _ (rxFree_eq a s))
  | false =>
    cases hrising : gf.getLsbD 1 with
    | true => exact exec_rxStep_tap a s habsent hrising
    | false => exact (exec_rxStep_between a s habsent hrising).trans (congrArg _ (rxBetween_eq s))

/-! ## Runs of one kind of step -/

theorem execAll_append_of_next {is : List Instr} {s t : State} (js : List Instr) (h : execAll is s = .next t) :
    execAll (is ++ js) s = execAll js t := by
  induction is generalizing s with
  | nil =>
    cases h
    rfl
  | cons i is ih =>
    obtain ⟨u, hu, -⟩ := exec_keeps_port i s
    rw [execAll_cons_of_next is hu] at h
    rw [List.cons_append, execAll_cons_of_next _ hu, ih h]

/-- Commands that all apply `F` to the state apply it as often as there are commands. -/
theorem execAll_eq_iterate {F : State → State} {is : List Instr} (h : ∀ i ∈ is, ∀ s, exec i s = .next (F s))
    (s : State) : execAll is s = .next (F^[is.length] s) := by
  induction is generalizing s with
  | nil => rfl
  | cons i is ih =>
    obtain ⟨hi, his⟩ := List.forall_mem_cons.mp h
    rw [execAll_cons_of_next is (hi s), ih his]
    rfl

theorem execAll_map_eq_iterate {α : Type} {F : State → State} {c : α → Instr} {xs : List α}
    (h : ∀ x ∈ xs, ∀ s, exec (c x) s = .next (F s)) (s : State) :
    execAll (xs.map c) s = .next (F^[xs.length] s) := by
  rw [execAll_eq_iterate (List.forall_mem_map.mpr h), List.length_map]

/-! ## The ramp that ends (R195) -/

/-- A step of a ramp that neither loops nor restarts: the phase rises by `f` and stops at 1.0. -/
def State.rampBy (f : Word) (s : State) : State := s.atPhase (min (s.ph.toNat + f.toNat) (2 ^ 32))

theorem exec_phaStep_ramp {g : GateFlags} (f : Word) (s : State) (hg : g.getLsbD 3 = true ∨ g.getLsbD 1 = false) :
    exec (.phaStep g false true false f) s = .next (s.rampBy f) := by
  have hrising : gfRising g = false := by
    rcases hg with h | h
    · rw [gfRising, h, Bool.not_true, Bool.false_and]
    · rw [gfRising, h, Bool.and_false]
  rw [State.rampBy, ← finishPhase_eq_atPhase]
  simp only [exec, execPhaStep, hrising]
  rfl

/-- From the first step on the run is known by its length: the phase saturates, and every step reports it. -/
theorem rampBy_iterate (f : Word) (s : State) {k : Nat} (hk : 1 ≤ k) :
    (State.rampBy f)^[k] s = s.atPhase (min (s.ph.toNat + k * f.toNat) (2 ^ 32)) := by
  induction k, hk using Nat.le_induction with
  | base => rw [Function.iterate_one, State.rampBy, Nat.one_mul]
  | succ k hk ih =>
    rw [Function.iterate_succ_apply', ih, State.rampBy, State.atPhase_ph_toNat s (Nat.min_le_right _ _),
      State.atPhase_atPhase, Nat.succ_mul]
    congr 1
    omega

/-- The step at which a ramp by `f` reaches `n` is `n / f` rounded up. -/
theorem min_mul_eq_iff_ceil_le {n f : Nat} (k : Nat) (hf : 1 ≤ f) : min (k * f) n = n ↔ (n + f - 1) / f ≤ k := by
  rw [min_eq_right_iff, ← Nat.ceilDiv_eq_add_pred_div, ceilDiv_le_iff_le_mul hf, mul_comm]

/-- The restart leaves one increment, which is less than 1.0. -/
theorem exec_phaStep_restart {g : GateFlags} (f : Word) (s : State) (habsent : g.getLsbD 3 = false)
    (hrising : g.getLsbD 1 = true) :
    exec (.phaStep g false true false f) s = .next { s with
      ph := f.setWidth 33, y0 := f, y1 := BitVec.ofNat 32 (f.toNat / 65536), fl := 0x01 } := by
  have hlt := f.isLt
  have hmin : min f.toNat (2 ^ 32) = f.toNat := by omega
  have hne : f.toNat ≠ 2 ^ 32 := by omega
  have hph : BitVec.ofNat 33 f.toNat = f.setWidth 33 := BitVec.ofNat_toNat 33 f
  have hy0 : BitVec.ofNat 32 f.toNat = f := by simp
  rw [phaStepRestartsThenIntegrates.2 g false true false f s]
  simp only [habsent, hrising, Bool.not_false, Bool.and_self, Bool.and_false, if_true, Nat.zero_add, Bool.false_eq_true,
    if_false, hmin, hne, hph, hy0]
  rfl

theorem one_le_phaRate_toNat (range : RangeSel) (a : Word) (s : State) :
    ∃ t, exec (.phaRate range a) s = .next t ∧ 1 ≤ t.y0.toNat := by
  obtain ⟨h1, h2⟩ := rateWith_bounds Config.roms range a
  have hnat := u32_toNat (rateWith Config.roms range a) (by omega) (by omega)
  refine ⟨_, rfl, ?_⟩
  change 1 ≤ (u32 (rateWith Config.roms range a)).toNat
  omega

/-- Settles O41: the run is `rampBy` iterated, whose phase is known from the first step on (`rampBy_iterate`). -/
theorem rampEndsAtItsStepAndHoldsThere : Obligations.RampEndsAtItsStepAndHoldsThere := by
  refine ⟨fun gfs f s hph hf hgfs => ?ramp, fun _ => exec_phaStep_restart, one_le_phaRate_toNat⟩
  intro k ph done
  have hrun := execAll_map_eq_iterate (fun g hg s => exec_phaStep_ramp f s (hgfs g hg)) s
  have hdone : ph = 2 ^ 32 ↔ done := min_mul_eq_iff_ceil_le k hf
  have hend : 2 ^ 32 ≤ k → done := fun hk => hdone.mp (Nat.min_eq_right (le_mul_of_le_of_one_le hk hf))
  rcases Nat.eq_zero_or_pos k with hk | hk
  · have hstart : BitVec.ofNat 33 ph = s.ph := by
      have hzero : ph = 0 := by simp only [ph, hk, Nat.zero_mul, Nat.zero_min]
      rw [hzero, hph]
      rfl
    refine ⟨s, ?_, ?_, hdone, fun h => absurd h (by omega), hend⟩
    · rw [hrun, show gfs.length = 0 from hk, Function.iterate_zero_apply]
    · rw [hstart]
  · have hlast : (State.rampBy f)^[k] s = s.atPhase ph := by
      have hzero : s.ph.toNat = 0 := congrArg BitVec.toNat hph
      rw [rampBy_iterate f s hk, hzero, Nat.zero_add]
    refine ⟨s.atPhase ph, hrun.trans (congrArg _ hlast), rfl, hdone, fun _ => ⟨rfl, rfl, ?ended, ?running⟩, hend⟩
    case ended => exact fun h => if_pos (hdone.mpr h)
    case running => exact fun h => if_neg (mt hdone.mp h)

/-! ## The free-running ramp (R203 (d)) -/

/-- Any number of free steps: the ramp turns modulo 1.0 and the tap registers stay. -/
theorem rxFree_iterate (f : Word) {s : State} (h : s.rxp.toNat < 2 ^ 32) (k : Nat) :
    (rxFree f)^[k] s = { s with
      rxp := BitVec.ofNat 33 ((s.rxp.toNat + k * f.toNat) % 2 ^ 32)
      y0 := ((rxFree f)^[k] s).y0, y1 := ((rxFree f)^[k] s).y1, fl := ((rxFree f)^[k] s).fl } := by
  induction k with
  | zero =>
    have hmod : (s.rxp.toNat + 0 * f.toNat) % 2 ^ 32 = s.rxp.toNat := by omega
    rw [hmod, BitVec.ofNat_toNat, BitVec.setWidth_eq]
    rfl
  | succ k ih =>
    have hlt : (s.rxp.toNat + k * f.toNat) % 2 ^ 32 < 2 ^ 32 := Nat.mod_lt _ (by decide)
    rw [Function.iterate_succ_apply', rxFree_eq, ih]
    simp only [ofNat33_toNat_of_le hlt.le, Nat.mod_add_mod, Nat.succ_mul, Nat.add_assoc]

theorem rxFree_iterate_rxp (f : Word) {s : State} (h : s.rxp.toNat < 2 ^ 32) (k : Nat) :
    ((rxFree f)^[k] s).rxp.toNat = (s.rxp.toNat + k * f.toNat) % 2 ^ 32 := by
  rw [rxFree_iterate f h k]
  exact ofNat33_toNat_of_le (Nat.mod_lt _ (by decide)).le

theorem rxFree_wrap (f : Word) (s : State) : (rxFree f s).fl.getLsbD 2 = decide (2 ^ 32 ≤ s.rxp.toNat + f.toNat) := by
  rw [rxFree, finishPhase_words]
  exact flByte_wrap _

/-- Adding `f < m` again and again modulo `m` wraps once for each multiple of `m` passed. -/
theorem countP_wraps (r k : Nat) {f m : Nat} (hr : r < m) (hf : f < m) :
    (List.range k).countP (fun j => decide (m ≤ (r + j * f) % m + f)) = (r + k * f) / m := by
  have hm : 0 < m := by omega
  induction k with
  | zero => simp [Nat.div_eq_of_lt hr]
  | succ k ih =>
    have hsum : r + (k + 1) * f = r + k * f + f := by ring
    rw [List.range_succ, List.countP_append, ih, hsum, Nat.add_div (a := r + k * f) hm, Nat.div_eq_of_lt hf,
      Nat.mod_eq_of_lt hf, List.countP_singleton]
    simp only [decide_eq_true_eq, Nat.add_zero]

/-- Settles O45: the run is the free branch iterated; command `j` wraps exactly if the sum it forms does. -/
theorem freeRunningRampAdvancesModuloOne : Obligations.FreeRunningRampAdvancesModuloOne := by
  intro gf f s k habsent hrxp
  have hrun : ∀ n, execAll (List.replicate n (.rxStep gf f)) s = .next ((rxFree f)^[n] s) := by
    intro n
    have hall : ∀ i ∈ List.replicate n (Instr.rxStep gf f), ∀ s, exec i s = .next (rxFree f s) := by
      intro i hi s
      rw [List.eq_of_mem_replicate hi, exec_rxStep_free f s habsent]
    rw [execAll_eq_iterate hall, List.length_replicate]
  refine ⟨⟨_, hrun k, rxFree_iterate f hrxp k⟩, ?_⟩
  rw [← countP_wraps s.rxp.toNat k hrxp f.isLt]
  refine List.countP_congr fun j _ => ?_
  simp only [hrun, Function.iterate_succ_apply', rxFree_wrap, rxFree_iterate_rxp f hrxp]

/-! ## The ramp between taps (R203 (a) to (c)) -/

/-- Samples between taps counted from a restart of the ramp. -/
theorem rxBetween_iterate {s : State} (hrxp : s.rxp = 0) (hrxc : s.rxc = 0) (n : Nat) :
    (rxBetween^[n] s).rxp.toNat = min (n * s.rxf.toNat) (2 ^ 32) ∧
    (rxBetween^[n] s).rxc.toNat = min n (2 ^ 32 - 1) ∧
    (rxBetween^[n] s).rxf = s.rxf ∧ (rxBetween^[n] s).rxv = s.rxv := by
  induction n with
  | zero => simp [hrxp, hrxc]
  | succ n ih =>
    obtain ⟨hp, hc, hf, hv⟩ := ih
    rw [Function.iterate_succ_apply', rxBetween_eq]
    refine ⟨?_, ?_, hf, hv⟩
    · change (BitVec.ofNat 33 _).toNat = _
      rw [ofNat33_toNat_of_le (Nat.min_le_right _ _), hp, hf, Nat.succ_mul]
      omega
    · change (BitVec.ofNat 32 _).toNat = _
      rw [BitVec.toNat_ofNat, hc]
      omega

/-- A sample between taps reports the ramp it leaves. -/
theorem rxBetween_reports (s : State) :
    (rxBetween s).y0 = BitVec.ofNat 32 (rxBetween s).rxp.toNat ∧
    (rxBetween s).y1 = BitVec.ofNat 32 ((rxBetween s).rxp.toNat / 65536) ∧
    (rxBetween s).fl = if (rxBetween s).rxp.toNat = 2 ^ 32 then 0x02 else 0x00 := by
  have hp : (rxBetween s).rxp.toNat = min (s.rxp.toNat + s.rxf.toNat) (2 ^ 32) :=
    ofNat33_toNat_of_le (Nat.min_le_right _ _)
  rw [hp, rxBetween_eq]
  exact ⟨rfl, rfl, rfl⟩

/-- After a tap every sample reports the ramp, the tap itself a ramp at 0. -/
theorem rxBetween_iterate_rxTap_reports (s : State) (j : Nat) :
    (rxBetween^[j] (rxTap s)).y0 = BitVec.ofNat 32 (rxBetween^[j] (rxTap s)).rxp.toNat ∧
    (rxBetween^[j] (rxTap s)).y1 = BitVec.ofNat 32 ((rxBetween^[j] (rxTap s)).rxp.toNat / 65536) ∧
    (rxBetween^[j] (rxTap s)).fl =
      if j = 0 then 0x01 else if (rxBetween^[j] (rxTap s)).rxp.toNat = 2 ^ 32 then 0x02 else 0x00 := by
  cases j with
  | zero => exact ⟨rfl, rfl, rfl⟩
  | succ j =>
    rw [if_neg (Nat.succ_ne_zero j), Function.iterate_succ_apply']
    exact rxBetween_reports _

/-- Without a tap since `RX.RST` there is no increment, and the ramp stays at 0. -/
theorem rxBetween_iterate_of_rxf_zero {s : State} (hrxp : s.rxp = 0) (hrxc : s.rxc = 0) (hrxf : s.rxf = 0)
    (hfl : s.fl = 0) (n : Nat) :
    (rxBetween^[n] s).rxp = 0 ∧ (rxBetween^[n] s).rxf = 0 ∧ (rxBetween^[n] s).fl = 0 := by
  obtain ⟨hp, -, hf, -⟩ := rxBetween_iterate hrxp hrxc n
  have hzero : (rxBetween^[n] s).rxp.toNat = 0 := by
    rw [hp, hrxf, BitVec.ofNat_eq_ofNat, BitVec.toNat_zero, Nat.mul_zero, Nat.zero_min]
  refine ⟨BitVec.eq_of_toNat_eq hzero, hf.trans hrxf, ?_⟩
  cases n with
  | zero => exact hfl
  | succ n =>
    rw [Function.iterate_succ_apply'] at hzero ⊢
    obtain ⟨-, -, hreport⟩ := rxBetween_reports (rxBetween^[n] s)
    rw [hreport, hzero]
    rfl

/-- The samples between taps, whatever their operand words. -/
theorem execAll_between {gap : List (GateFlags × Word)}
    (h : ∀ g ∈ gap, g.1.getLsbD 3 = false ∧ g.1.getLsbD 1 = false) (s : State) :
    execAll (gap.map fun g => .rxStep g.1 g.2) s = .next (rxBetween^[gap.length] s) := by
  refine execAll_map_eq_iterate (fun g hg s => ?_) s
  obtain ⟨habsent, hrising⟩ := h g hg
  exact exec_rxStep_between g.2 s habsent hrising

/-- A tap, samples, and the next tap leave the increment of the period they measured, at most 2^32 samples. -/
theorem rxTap_rxf_after_gap (s : State) (n : Nat) :
    (rxTap (rxBetween^[n] (rxTap s))).rxf.toNat = tapIncrement (min (n + 1) (2 ^ 32)) := by
  obtain ⟨-, hc, -, hv⟩ := rxBetween_iterate (s := rxTap s) rfl rfl n
  have hperiod : min n (2 ^ 32 - 1) + 1 = min (n + 1) (2 ^ 32) := by omega
  rw [rxTap_eq, hv, hc, hperiod]
  exact Nat.mod_eq_of_lt (tapIncrement_lt _)

/-- A ramp that rises by one `n`th of 1.0, rounded down, has not ended after fewer than `n` steps. -/
theorem mul_tapIncrement_lt {j n : Nat} (hn : n ≤ 2 ^ 32) (hj : j < n) : j * tapIncrement n < 2 ^ 32 :=
  calc j * tapIncrement n ≤ j * (2 ^ 32 / n) := Nat.mul_le_mul_left j (Nat.min_le_left _ _)
    _ < n * (2 ^ 32 / n) := Nat.mul_lt_mul_of_pos_right hj (Nat.div_pos hn (by omega))
    _ ≤ 2 ^ 32 := Nat.mul_div_le _ _

/-- Settles O44: two taps and the iterated samples after each. -/
theorem tapRampFollowsTheTapPeriod : Obligations.TapRampFollowsTheTapPeriod := by
  refine ⟨fun tap1 tap2 a1 a2 gap rest s habsent1 hrising1 habsent2 hrising2 hbetween => ?taps,
    fun between s hbetween => ?untapped⟩
  case taps =>
    intro N j f
    obtain ⟨hgap, hrest⟩ := List.forall_mem_append.mp hbetween
    have hf : (rxTap (rxBetween^[gap.length] (rxTap s))).rxf.toNat = f := rxTap_rxf_after_gap s gap.length
    have hrun : execAll (.rxStep tap1 a1 :: gap.map (fun g => .rxStep g.1 g.2) ++
        .rxStep tap2 a2 :: rest.map (fun g => .rxStep g.1 g.2)) s =
        .next (rxBetween^[j] (rxTap (rxBetween^[gap.length] (rxTap s)))) := by
      rw [List.cons_append, execAll_cons_of_next _ (exec_rxStep_tap a1 s habsent1 hrising1),
        execAll_append_of_next _ (execAll_between hgap _),
        execAll_cons_of_next _ (exec_rxStep_tap a2 _ habsent2 hrising2), execAll_between hrest]
    obtain ⟨hp, hc, hrxf, hrxv⟩ := rxBetween_iterate (s := rxTap (rxBetween^[gap.length] (rxTap s))) rfl rfl j
    obtain ⟨hy0, hy1, hfl⟩ := rxBetween_iterate_rxTap_reports (rxBetween^[gap.length] (rxTap s)) j
    rw [hf] at hp
    refine ⟨_, hrun, by rw [hrxf, hf], hp, hc, hrxv, hy0, hy1, ?fl, fun hN hj => ?unended⟩
    case fl =>
      simp only [hfl, hp, min_eq_right_iff]
    case unended =>
      have hlt := mul_tapIncrement_lt hN hj
      rwa [← Nat.min_eq_left hN] at hlt
  case untapped =>
    have hrun := execAll_cons_of_next (between.map fun g => .rxStep g.1 g.2) (rxRstClearsTheExtractor.2 s)
    rw [execAll_between hbetween] at hrun
    exact ⟨_, hrun, rxBetween_iterate_of_rxf_zero rfl rfl rfl rfl _⟩

end Sys2Proof.Machine

/-! # Unit OSC (`45_oscillator.md`) -/

namespace Sys2Proof.Machine

/-! ## The words of the unit (`30_encoding.md` R98) -/

theorem decode_oscSin_word (x : BitVec 24) (a b : Word) :
    decode ⟨(0x60 : BitVec 8) ++ x, a, b⟩ = .oscSin (x.getLsbD 16) a := by
  simp [decode, decodeListed, append_opcode, append_modBit]

theorem decode_oscSaw_word (x : BitVec 24) (a b : Word) :
    decode ⟨(0x61 : BitVec 8) ++ x, a, b⟩ = .oscSaw (x.getLsbD 16) a := by
  simp [decode, decodeListed, append_opcode, append_modBit]

theorem decode_oscTri_word (x : BitVec 24) (a b : Word) :
    decode ⟨(0x62 : BitVec 8) ++ x, a, b⟩ = .oscTri (x.getLsbD 16) a := by
  simp [decode, decodeListed, append_opcode, append_modBit]

/-! ## The sine table around the cycle (`20_memory.md` R63) -/

theorem sineRom_add_half {i : Nat} (hi : i ≤ 128) : sineRom (i + 128) = -sineRom i := by
  have hodd := sineRom_odd (128 - i) (by omega)
  rwa [sineRom_mirror i (by omega), show 256 - (128 - i) = i + 128 by omega] at hodd

/-- Half a cycle from any index, wrapped to the cycle. -/
theorem sineRom_half_cycle {i : Nat} (hi : i < 256) : sineRom ((i + 128) % 256) = -sineRom i := by
  rcases lt_or_ge i 128 with h | h
  · rw [Nat.mod_eq_of_lt (by omega), sineRom_add_half h.le]
  · have hback := sineRom_add_half (i := i - 128) (by omega)
    rw [Nat.sub_add_cancel h] at hback
    rw [show (i + 128) % 256 = i - 128 by omega, hback, neg_neg]

/-- The mirror about a quarter of the cycle, from any index. -/
theorem sineRom_mirror_cycle {i : Nat} (hi : i < 256) : sineRom ((384 - i) % 256) = sineRom i := by
  rcases le_or_gt i 128 with h | h
  · rw [show (384 - i) % 256 = 128 - i by omega, sineRom_mirror i (by omega)]
  · rw [Nat.mod_eq_of_lt (by omega), show 384 - i = 256 - i + 128 by omega, sineRom_add_half (by omega),
      sineRom_odd i (by omega), neg_neg]

/-! ## The sine of a phase (R220) -/

theorem sineOf_eq (a : Word) : sineOf a = sineRom (a.toNat / 2 ^ 24) +
    (sineRom (a.toNat / 2 ^ 24 + 1) - sineRom (a.toNat / 2 ^ 24)) * ((a.toNat / 2 ^ 8 % 2 ^ 16 : Nat) : Int) / 65536 := by
  have hlt := a.isLt
  have hindex : (a.extractLsb' 24 8).toNat = a.toNat / 2 ^ 24 := by
    simp only [BitVec.extractLsb'_toNat, Nat.shiftRight_eq_div_pow]
    omega
  have hfraction : (a.extractLsb' 8 16).toNat = a.toNat / 2 ^ 8 % 2 ^ 16 := by
    simp only [BitVec.extractLsb'_toNat, Nat.shiftRight_eq_div_pow]
  rw [sineOf, hindex, hfraction]
  rfl

/-- At a table point nothing is interpolated. -/
theorem sineOf_of_table_point {a : Word} (h : a.toNat / 2 ^ 8 % 2 ^ 16 = 0) :
    sineOf a = sineRom (a.toNat / 2 ^ 24) := by
  rw [sineOf_eq, h, Nat.cast_zero, mul_zero, Int.zero_ediv, add_zero]

theorem sineOf_half_cycle {a : Word} (h : a.toNat / 2 ^ 8 % 2 ^ 16 = 0) : sineOf (a + 0x80000000) = -sineOf a := by
  have hlt := a.isLt
  have hphase : (a + 0x80000000).toNat = (a.toNat + 2 ^ 31) % 2 ^ 32 := BitVec.toNat_add a 0x80000000
  have hindex : (a + 0x80000000).toNat / 2 ^ 24 = (a.toNat / 2 ^ 24 + 128) % 256 := by omega
  rw [sineOf_of_table_point (by omega), hindex, sineRom_half_cycle (by omega), sineOf_of_table_point h]

/-- The mirrored phase of a table point is one only if the bits below the fraction are 0 as well (log 16). -/
theorem sineOf_mirror {a : Word} (h : a.toNat / 2 ^ 8 % 2 ^ 16 = 0) (hlow : a.toNat % 2 ^ 8 = 0) :
    sineOf (0x80000000 - a) = sineOf a := by
  have hlt := a.isLt
  have hphase : (0x80000000 - a).toNat = (2 ^ 32 - a.toNat + 2 ^ 31) % 2 ^ 32 := BitVec.toNat_sub 0x80000000 a
  have hindex : (0x80000000 - a).toNat / 2 ^ 24 = (384 - a.toNat / 2 ^ 24) % 256 := by omega
  rw [sineOf_of_table_point (by omega), hindex, sineRom_mirror_cycle (by omega), sineOf_of_table_point h]

/-! ## The 17-bit phase and its fold (R221, R222) -/

theorem phase17_eq (a : Word) : phase17 a = ((a.toNat / 32768 : Nat) : Int) := rfl

theorem phase17_mono {a a' : Word} (h : a.toNat ≤ a'.toNat) : phase17 a ≤ phase17 a' := by
  rw [phase17_eq, phase17_eq]
  exact_mod_cast Nat.div_le_div_right h

/-- The phase counted from the end of the cycle, where the cut to 17 bits loses nothing. -/
theorem phase17_neg {a : Word} (ha : a ≠ 0) (h : a.toNat % 2 ^ 15 = 0) : phase17 (-a) = 131072 - phase17 a := by
  have hlt := a.isLt
  have hpos : a.toNat ≠ 0 := fun h0 => ha (BitVec.eq_of_toNat_eq h0)
  rw [phase17_eq, phase17_eq, BitVec.toNat_neg]
  omega

theorem triangleOf_rising {a : Word} (h : phase17 a ≤ 65536) : triangleOf a = phase17 a := if_pos h

/-- At the fold itself both halves agree. -/
theorem triangleOf_falling {a : Word} (h : 65536 ≤ phase17 a) : triangleOf a = 131072 - phase17 a := by
  rcases h.eq_or_lt with h | h
  · rw [triangleOf_rising h.ge, ← h]
    rfl
  · exact if_neg h.not_ge

theorem triangleOf_neg {a : Word} (ha : a ≠ 0) (h : a.toNat % 2 ^ 15 = 0) : triangleOf (-a) = triangleOf a := by
  have hneg := phase17_neg ha h
  rcases le_total (phase17 a) 65536 with hfold | hfold
  · rw [triangleOf_rising hfold, triangleOf_falling (by omega), hneg, sub_sub_cancel]
  · rw [triangleOf_falling hfold, triangleOf_rising (by omega), hneg]

theorem triangleOf_mono {a a' : Word} (h : a.toNat ≤ a'.toNat) (hfold : a'.toNat ≤ 2 ^ 31) :
    triangleOf a ≤ triangleOf a' := by
  have hphase := phase17_mono h
  have hrising : phase17 a' ≤ 65536 := by
    rw [phase17_eq]
    omega
  rwa [triangleOf_rising (hphase.trans hrising), triangleOf_rising hrising]

theorem triangleOf_anti {a a' : Word} (h : a.toNat ≤ a'.toNat) (hfold : 2 ^ 31 ≤ a.toNat) :
    triangleOf a' ≤ triangleOf a := by
  have hphase := phase17_mono h
  have hfalling : 65536 ≤ phase17 a := by
    rw [phase17_eq]
    omega
  rw [triangleOf_falling hfalling, triangleOf_falling (hfalling.trans hphase)]
  exact sub_le_sub_left hphase 131072

/-! ## The levels the commands return -/

/-- The level of `OSC.SIN` (R220), an integer not yet cut to the word of `Y0`. -/
def sinLevel (bip : Bool) (a : Word) : Int := if bip then sineOf a else (sineOf a + 65536) / 2

theorem sinLevel_bip (a : Word) : sinLevel true a = sineOf a := if_pos rfl

/-- The level of `OSC.SAW` (R221). -/
def sawLevel (bip : Bool) (a : Word) : Int := if bip then phase17 a - 65536 else phase17 a / 2

/-- The level of `OSC.TRI` (R222). -/
def triLevel (bip : Bool) (a : Word) : Int := if bip then 2 * triangleOf a - 65536 else triangleOf a

/-- The range of a shape: -1.0 to 1.0 bipolar, 0 to 1.0 unipolar (R223). -/
def InOscRange (bip : Bool) (y : Int) : Prop := (if bip then -65536 else 0) ≤ y ∧ y ≤ 65536

section Levels

variable (bip : Bool) (a : Word) (s : State)

theorem exec_oscSin : exec (.oscSin bip a) s = .next (s.finish (sinLevel bip a) 0 0) := rfl

theorem exec_oscSaw : exec (.oscSaw bip a) s = .next (s.finish (sawLevel bip a) 0 0) := rfl

theorem exec_oscTri : exec (.oscTri bip a) s = .next (s.finish (triLevel bip a) 0 0) := rfl

theorem sinLevel_range : InOscRange bip (sinLevel bip a) := by
  have h := sineOf_bounds a
  cases bip with
  | true => exact h
  | false =>
    simp only [InOscRange, sinLevel, Bool.false_eq_true, if_false]
    omega

theorem sawLevel_range : InOscRange bip (sawLevel bip a) := by
  have h := phase17_bounds a
  cases bip with
  | true =>
    simp only [InOscRange, sawLevel, if_true]
    omega
  | false =>
    simp only [InOscRange, sawLevel, Bool.false_eq_true, if_false]
    omega

theorem triLevel_range : InOscRange bip (triLevel bip a) := by
  have h := triangleOf_bounds a
  cases bip with
  | true =>
    simp only [InOscRange, triLevel, if_true]
    omega
  | false => exact h

variable {bip a} {a' : Word} {y : Int}

/-- A level in the range is the signed value of the word written to `Y0`. -/
theorem InOscRange.toInt_finish_y0 (h : InOscRange bip y) : (s.finish y 0 0).y0.toInt = y := by
  obtain ⟨hlo, hhi⟩ := h
  refine u32_toInt y ?_ (by omega)
  split_ifs at hlo <;> omega

theorem sawLevel_mono (h : a.toNat ≤ a'.toNat) : sawLevel bip a ≤ sawLevel bip a' := by
  have hphase := phase17_mono h
  cases bip with
  | true => exact sub_le_sub_right hphase 65536
  | false => exact Int.ediv_le_ediv (by decide) hphase

/-- The level of the triangle rises with the folded phase. -/
theorem triLevel_le (h : triangleOf a ≤ triangleOf a') : triLevel bip a ≤ triLevel bip a' := by
  cases bip with
  | true => exact sub_le_sub_right (mul_le_mul_of_nonneg_left h (by decide)) 65536
  | false => exact h

/-- A command that returns a level in the range keeps it there from every state (R223). -/
theorem InOscRange.of_exec {i : Instr} (hexec : ∀ s, exec i s = .next (s.finish y 0 0)) (h : InOscRange bip y) :
    ∃ t, exec i s = .next t ∧ (if bip then (-65536 : Int) else 0) ≤ t.y0.toInt ∧ t.y0.toInt ≤ 65536 ∧
      ∀ s', ∃ t', exec i s' = .next t' ∧ t'.y0 = t.y0 := by
  refine ⟨_, hexec s, ?_⟩
  rw [h.toInt_finish_y0]
  exact ⟨h.1, h.2, fun s' => ⟨_, hexec s', rfl⟩⟩

end Levels

/-! ## The commands of OSC -/

/-- Settles O46: the level is `sineOf_eq`; the table's list is cut at entry 64 and mirrored from there. -/
theorem oscSinInterpolatesTheTable : Obligations.OscSinInterpolatesTheTable := by
  refine ⟨decode_oscSin_word, fun bip a s => ?_, sineTable_length, sineTable_range, rfl,
    fun i hi => sineRom_mirror i (by omega), fun i hi => sineRom_odd i (by omega), rfl, rfl, rfl, rfl, rfl⟩
  intro i fr y
  have hy : sineOf a = y := sineOf_eq a
  rw [exec_oscSin, sinLevel, hy]
  rfl

/-- Settles O47: the level is that of the rule. -/
theorem oscSawIsTheRisingPhase : Obligations.OscSawIsTheRisingPhase :=
  ⟨decode_oscSaw_word, exec_oscSaw⟩

/-- Settles O48: the level is that of the rule, and the mirrored phase has the same fold. -/
theorem oscTriFoldsAtHalfACycle : Obligations.OscTriFoldsAtHalfACycle := by
  refine ⟨decode_oscTri_word, exec_oscTri, fun bip a s ha h => ?_⟩
  rw [exec_oscTri, exec_oscTri, triLevel, triangleOf_neg ha h]
  rfl

/-- Settles O49: every level stands in `Y0` as it is, so the clauses are those of the levels. -/
theorem oscillatorShapesKeepRangeOrderAndSymmetry : Obligations.OscillatorShapesKeepRangeOrderAndSymmetry := by
  refine ⟨fun bip a s i hi => ?range, fun a s h => ?symmetry, fun bip a a' s h => ?saw, fun bip a a' s h => ?triangle⟩
  case range =>
    obtain rfl | rfl | rfl := hi
    · exact (sinLevel_range bip a).of_exec s (exec_oscSin bip a)
    · exact (sawLevel_range bip a).of_exec s (exec_oscSaw bip a)
    · exact (triLevel_range bip a).of_exec s (exec_oscTri bip a)
  case symmetry =>
    refine ⟨_, _, _, exec_oscSin true a s, exec_oscSin true _ s, exec_oscSin true _ s, ?_, ?_, fun hlow => ?_⟩
    · rw [(sinLevel_range true a).toInt_finish_y0, sinLevel_bip]
      exact sineOf_of_table_point h
    · rw [(sinLevel_range true _).toInt_finish_y0, (sinLevel_range true a).toInt_finish_y0, sinLevel_bip, sinLevel_bip]
      exact sineOf_half_cycle h
    · rw [State.finish_y0, State.finish_y0, sinLevel_bip, sinLevel_bip, sineOf_mirror h hlow]
  case saw =>
    refine ⟨_, _, exec_oscSaw bip a s, exec_oscSaw bip a' s, ?_⟩
    rw [(sawLevel_range bip a).toInt_finish_y0, (sawLevel_range bip a').toInt_finish_y0]
    exact sawLevel_mono h
  case triangle =>
    refine ⟨_, _, exec_oscTri bip a s, exec_oscTri bip a' s, ?_⟩
    rw [(triLevel_range bip a).toInt_finish_y0, (triLevel_range bip a').toInt_finish_y0]
    exact ⟨fun hfold => triLevel_le (triangleOf_mono h hfold), fun hfold => triLevel_le (triangleOf_anti h hfold)⟩

end Sys2Proof.Machine

/-! # Unit SNH (`46_sample_hold.md`) -/

namespace Sys2Proof.Machine

/-! ## The words of the unit (`30_encoding.md` R98) -/

theorem decode_snhRst_word (x : BitVec 24) (a b : Word) : decode ⟨(0x70 : BitVec 8) ++ x, a, b⟩ = .snhRst := by
  simp [decode, decodeListed, append_opcode]

theorem decode_snhStep_word (x : BitVec 24) (a b : Word) : decode ⟨(0x71 : BitVec 8) ++ x, a, b⟩ =
    .snhStep (x.extractLsb' 20 4) (x.getLsbD 16) a := by
  simp [decode, decodeListed, append_opcode, append_gf, append_modBit]

/-! ## The gate of a sample (`00_scope.md` R16) -/

section Gate

variable {gf : GateFlags} (a sh : Word)

/-- With the gate present each predicate is its own bit of `gf`, but a rising edge wins over a falling one. -/
theorem gate_bits_of_present (h : gf.getLsbD 3 = false) : gfHigh gf = gf.getLsbD 0 ∧ gfRising gf = gf.getLsbD 1 ∧
    gfFalling gf = (gf.getLsbD 2 && !gf.getLsbD 1) := by
  simp only [gfHigh, gfRising, gfFalling, h, Bool.not_false, Bool.true_and, true_and]
  exact Bool.and_comm _ _

theorem snhNext_sample_of_present (h : gf.getLsbD 3 = false) :
    snhNext gf false a sh = (if gf.getLsbD 1 then a else sh, gf.getLsbD 1) := by
  obtain ⟨-, hrising, -⟩ := gate_bits_of_present h
  rw [snhNext_sample, hrising]
  cases gf.getLsbD 1 <;> rfl

theorem snhNext_track_of_present (h : gf.getLsbD 3 = false) : snhNext gf true a sh =
    (if gf.getLsbD 0 || gf.getLsbD 1 then a else sh, gf.getLsbD 2 && !gf.getLsbD 1) := by
  obtain ⟨hhigh, hrising, hfalling⟩ := gate_bits_of_present h
  rw [snhNext_track gf a sh h, hhigh, hrising, hfalling]

end Gate

/-! ## The commands of SNH -/

/-- The next state of `SNH.STEP` from what the sample captures and reports. -/
theorem exec_snhStep {gf : GateFlags} {track chg : Bool} {a sh : Word} {s : State}
    (h : snhNext gf track a s.sh = (sh, chg)) : exec (.snhStep gf track a) s =
      .next { s with sh := sh, y0 := sh, y1 := 0, fl := if chg then 0x01 else 0x00 } := by
  have hfl : flByte { chg := chg } = if chg then 0x01 else 0x00 := by
    simpa only [Bool.decide_eq_true] using flByte_chg_only (chg = true)
  simp only [exec, execSnhStep, h, State.finish, u32_uview, u32_zero, hfl]

/-- Settles O50: the hold register, both results and the flag byte are written with 0. -/
theorem snhRstClearsTheHeldSample : Obligations.SnhRstClearsTheHeldSample :=
  ⟨decode_snhRst_word, fun _ => rfl⟩

/-- Settles O51: the gate is absent, or the variant chooses which of its bits count. -/
theorem snhStepCapturesOrTracks : Obligations.SnhStepCapturesOrTracks := by
  refine ⟨decode_snhStep_word, fun gf track a s => ?_⟩
  intro sh chg
  have hnext : snhNext gf track a s.sh = (sh, chg) := by
    cases hgate : gf.getLsbD 3 with
    | true => simp only [sh, chg, hgate, snhNext_absent gf track a s.sh hgate, if_true]
    | false =>
      cases track with
      | false => simp only [sh, chg, hgate, snhNext_sample_of_present a s.sh hgate, Bool.false_eq_true, if_false]
      | true => simp only [sh, chg, hgate, snhNext_track_of_present a s.sh hgate, Bool.false_eq_true, if_false, if_true]
  exact exec_snhStep hnext

end Sys2Proof.Machine

/-! # Unit DLY (`47_delay.md`) -/

namespace Sys2Proof.Machine

/-! ## The words of the unit (`30_encoding.md` R98) -/

theorem decode_dlyRst_word (x : BitVec 24) (a b : Word) : decode ⟨(0x80 : BitVec 8) ++ x, a, b⟩ = .dlyRst := by
  simp [decode, decodeListed, append_opcode]

theorem decode_dlyStep_word (x : BitVec 24) (a b : Word) :
    decode ⟨(0x81 : BitVec 8) ++ x, a, b⟩ = .dlyStep (x.extractLsb' 0 16) a := by
  simp [decode, decodeListed, append_opcode, append_imm]

theorem decode_dlyRd_word (x : BitVec 24) (a b : Word) :
    decode ⟨(0x82 : BitVec 8) ++ x, a, b⟩ = .dlyRd (x.extractLsb' 0 16) := by
  simp [decode, decodeListed, append_opcode, append_imm]

/-! ## The samples behind the write pointer (R250) -/

theorem dlyIndex_natCast (n : Nat) : dlyIndex (n : Int) = n % 1024 := by
  change ((n : Int) % 1024).toNat = n % 1024
  omega

theorem dlyIndex_behind {w j : Nat} (h : j ≤ w + 1023) : dlyIndex ((w : Int) - 1 - j) = (w + 1023 - j) % 1024 := by
  change (((w : Int) - 1 - j) % 1024).toNat = (w + 1023 - j) % 1024
  omega

/-- The sample `d` back from the newest one, 0 where the fill count says there is none: what a delay `d` reads. -/
def State.sampleBack (s : State) (d : Nat) : Word :=
  if d < s.dfc.toNat then Memory.read s.ram ((s.dwp.toNat + 1023 - d) % 1024) else 0

theorem State.sampleBack_of_lt {s : State} {d : Nat} (h : d < s.dfc.toNat) :
    s.sampleBack d = Memory.read s.ram ((s.dwp.toNat + 1023 - d) % 1024) := if_pos h

theorem State.sampleBack_of_ge {s : State} {d : Nat} (h : s.dfc.toNat ≤ d) : s.sampleBack d = 0 :=
  if_neg (Nat.not_lt.mpr h)

theorem State.sampleBack_eq_delayed (s : State) {d : Nat} (hd : d ≤ 1023) :
    s.sampleBack d = delayed s.ram ((s.dwp.toNat : Int) - 1) d s.dfc.toNat := by
  rw [delayed, dlyIndex_behind (by omega)]
  rfl

section PushSample

variable (s : State) (a : Word)

@[simp] theorem State.pushSample_ram : (s.pushSample a).ram = Memory.write s.ram s.dwp.toNat a := rfl

theorem State.pushSample_dwp_behind {d : Nat} (hd : d ≤ 1023) :
    ((s.pushSample a).dwp.toNat + 1023 - d) % 1024 = (s.dwp.toNat + 1024 - d) % 1024 := by
  have hnext := dlyIndex_natCast (s.dwp.toNat + 1)
  push_cast at hnext
  rw [s.pushSample_dwp, hnext]
  omega

theorem State.pushSample_sampleBack {d : Nat} (hd : d ≤ 1023) : (s.pushSample a).sampleBack d =
    if d < min (s.dfc.toNat + 1) 1024 then
      Memory.read (s.pushSample a).ram ((s.dwp.toNat + 1024 - d) % 1024) else 0 := by
  rw [State.sampleBack, s.pushSample_dwp_behind a hd, s.pushSample_dfc]

/-- The sample just written is the newest. -/
theorem State.pushSample_sampleBack_zero : (s.pushSample a).sampleBack 0 = a := by
  have hdwp := s.dwp.isLt
  have hpointer : (s.dwp.toNat + 1024 - 0) % 1024 = s.dwp.toNat := by omega
  rw [s.pushSample_sampleBack a (by omega), if_pos (by omega), hpointer]
  exact Memory.read_write_same _ _ _

/-- Each older sample moves one further back: the write is at none of the indices it stands at. -/
theorem State.pushSample_sampleBack_succ {d : Nat} (hd : d + 1 ≤ 1023) :
    (s.pushSample a).sampleBack (d + 1) = s.sampleBack d := by
  have hdwp := s.dwp.isLt
  have hother : (s.dwp.toNat + 1024 - (d + 1)) % 1024 ≠ s.dwp.toNat := by omega
  have hindex : s.dwp.toNat + 1024 - (d + 1) = s.dwp.toNat + 1023 - d := by omega
  rw [s.pushSample_sampleBack a hd, s.pushSample_ram, Memory.read_write_other _ _ _ _ hother, hindex]
  exact if_congr (by omega) rfl rfl

/-- A line of full length loses its oldest sample, a shorter one has none there. -/
theorem State.pushSample_sampleBack_beyond {d : Nat} (hd : 1023 < d) : (s.pushSample a).sampleBack d = 0 :=
  State.sampleBack_of_ge (by rw [s.pushSample_dfc]; omega)

end PushSample

/-! ## The commands of DLY -/

theorem flByte_dfull_only (p : Prop) [Decidable p] : flByte { dfull := decide p } = if p then 0x10 else 0x00 := by
  split
  next hp => rw [decide_eq_true hp]; rfl
  next hp => rw [decide_eq_false hp]; rfl

theorem finishDelay_words (s : State) (y : Word) (n : Nat) : s.finishDelay y n =
    { s with y0 := y, y1 := BitVec.ofNat 32 n, fl := if n = 1024 then 0x10 else 0x00 } := by
  rw [finishDelay_eq, State.finish, u32_uview, u32_natCast, flByte_dfull_only]

/-- `s` with the results that report its delay line at the delay `d` (R252, R253). -/
def State.reportDelay (s : State) (d : Nat) : State :=
  { s with
    y0 := s.sampleBack d, y1 := BitVec.ofNat 32 s.dfc.toNat
    fl := if s.dfc.toNat = 1024 then 0x10 else 0x00 }

@[simp] theorem State.reportDelay_dfc (s : State) (d : Nat) : (s.reportDelay d).dfc = s.dfc := rfl
@[simp] theorem State.reportDelay_sampleBack (s : State) (d j : Nat) :
    (s.reportDelay d).sampleBack j = s.sampleBack j := rfl

/-- A report does not depend on the one before it. -/
theorem State.reportDelay_reportDelay (s : State) (d d' : Nat) :
    (s.reportDelay d).reportDelay d' = s.reportDelay d' := rfl

theorem exec_dlyRd (imm : BitVec 16) (s : State) :
    exec (.dlyRd imm) s = .next (s.reportDelay (min imm.toNat 1023)) := by
  rw [State.reportDelay, s.sampleBack_eq_delayed (Nat.min_le_right _ _), ← finishDelay_words]
  rfl

/-- `DLY.STEP` writes the sample and then reports as a `DLY.RD` of its delay would (R252, R253). -/
theorem exec_dlyStep (imm : BitVec 16) (a : Word) (s : State) :
    exec (.dlyStep imm a) s = .next ((s.pushSample a).reportDelay (min imm.toNat 1023)) := by
  have hback : dlyIndex (((s.pushSample a).dwp.toNat : Int) - 1 - (min imm.toNat 1023 : Nat)) =
      dlyIndex ((s.dwp.toNat : Int) - (min imm.toNat 1023 : Nat)) := by
    rw [s.pushSample_dwp, dlyIndex_succ_back]
  rw [State.reportDelay, State.sampleBack_eq_delayed _ (Nat.min_le_right _ _), delayed, hback,
    ← finishDelay_words, s.pushSample_dfc]
  rfl

/-- Settles O52: the pointer, the fill count, both results and the flag byte are written with 0. -/
theorem dlyRstEmptiesTheLine : Obligations.DlyRstEmptiesTheLine :=
  ⟨decode_dlyRst_word, fun _ => rfl⟩

/-- Settles O53: the state is that of `exec_dlyStep`, its RAM that of one write at `DWP`. -/
theorem dlyStepWritesCountsThenReads : Obligations.DlyStepWritesCountsThenReads := by
  refine ⟨decode_dlyStep_word, fun imm a s => ?_⟩
  intro d dfc
  refine ⟨_, exec_dlyStep imm a s, ?_, fun i => ?_, fun i hi => ?_, fun hd => ?_⟩
  · have hnext : dlyIndex ((s.dwp.toNat : Int) + 1) = (s.dwp.toNat + 1) % 1024 := by
      exact_mod_cast dlyIndex_natCast (s.dwp.toNat + 1)
    rw [State.reportDelay, s.pushSample_sampleBack a (Nat.min_le_right _ _), s.pushSample_dfc, ← hnext]
    rfl
  · change Memory.read? (Memory.write s.ram s.dwp.toNat a) i = _
    split
    next hi => rw [hi, Memory.read?_write_same]
    next hi => exact Memory.read?_write_other _ _ _ _ hi
  · exact Memory.read_write_other _ _ _ _ hi
  · change (s.pushSample a).sampleBack d = a
    rw [hd, s.pushSample_sampleBack_zero]

/-- Settles O54: both commands report the line as it stands, `DLY.STEP` after its write. -/
theorem dlyRdReadsWithoutWriting : Obligations.DlyRdReadsWithoutWriting := by
  refine ⟨decode_dlyRd_word, exec_dlyRd, fun imm imm' a s => ?_⟩
  have hread := exec_dlyRd imm' ((s.pushSample a).reportDelay (min imm.toNat 1023))
  rw [State.reportDelay_reportDelay] at hread
  exact ⟨_, _, _, exec_dlyStep imm a s, hread, exec_dlyStep imm' a s, rfl, rfl, rfl⟩

/-! ## Runs of `DLY.STEP` -/

/-- After a run of samples the line holds them, newest first, and behind them what it held before. -/
theorem execAll_dlyStep (xs : List (BitVec 16 × Word)) (s : State) :
    ∃ t, execAll (xs.map fun x => .dlyStep x.1 x.2) s = .next t ∧
      (s.dfc.toNat ≤ 1024 → t.dfc.toNat = min (s.dfc.toNat + xs.length) 1024) ∧
      ∀ d, d ≤ 1023 → t.sampleBack d = (xs.reverse[d]?.map Prod.snd).getD (s.sampleBack (d - xs.length)) := by
  induction xs using List.reverseRecOn with
  | nil => exact ⟨s, rfl, fun h => (min_eq_left h).symm, fun d _ => rfl⟩
  | append_singleton xs x ih =>
    obtain ⟨t, hrun, hfill, hback⟩ := ih
    refine ⟨(t.pushSample x.2).reportDelay (min x.1.toNat 1023), ?_, fun hs => ?_, fun d hd => ?_⟩
    · rw [List.map_append, execAll_append_of_next _ hrun]
      exact execAll_cons_of_next [] (exec_dlyStep x.1 x.2 t)
    · rw [State.reportDelay_dfc, t.pushSample_dfc, hfill hs, List.length_append, List.length_singleton]
      omega
    · rw [State.reportDelay_sampleBack, List.reverse_append, List.length_append]
      cases d with
      | zero => exact t.pushSample_sampleBack_zero x.2
      | succ d =>
        rw [t.pushSample_sampleBack_succ x.2 hd, hback d (by omega), List.length_singleton, Nat.add_sub_add_right]
        rfl

/-- After `DLY.RST` and a run of samples the line holds these only. -/
theorem execAll_dlyRst_dlyStep (xs : List (BitVec 16 × Word)) (s : State) :
    ∃ t, execAll (.dlyRst :: xs.map fun x => .dlyStep x.1 x.2) s = .next t ∧
      t.dfc.toNat = min xs.length 1024 ∧ ∀ d, d ≤ 1023 → xs.length ≤ d → t.sampleBack d = 0 := by
  obtain ⟨t, hrun, hfill, hback⟩ := execAll_dlyStep xs { s with dwp := 0, dfc := 0, y0 := 0, y1 := 0, fl := 0 }
  refine ⟨t, hrun, ?_, fun d hd hlen => ?_⟩
  · simpa using hfill (Nat.zero_le _)
  · rw [hback d hd, List.getElem?_eq_none (by simpa using hlen)]
    exact State.sampleBack_of_ge (Nat.zero_le _)

/-- The delay written out as an immediate is the delay. -/
theorem exec_dlyRd_ofNat {d : Nat} (hd : d ≤ 1023) (s : State) :
    exec (.dlyRd (BitVec.ofNat 16 d)) s = .next (s.reportDelay d) := by
  rw [exec_dlyRd, BitVec.toNat_ofNat, Nat.mod_eq_of_lt (by omega), min_eq_left hd]

/-- Settles O55: what the line holds after a run, read with `DLY.RD`. -/
theorem delayLineReturnsTheSampleDStepsBack : Obligations.DelayLineReturnsTheSampleDStepsBack := by
  refine ⟨fun xs s d h hd => ?_, fun xs s d hd hlen => ?_, fun xs s => ?_⟩
  · obtain ⟨t, hrun, -, hback⟩ := execAll_dlyStep xs s
    refine ⟨t, _, hrun, exec_dlyRd_ofNat hd t, (hback d hd).trans ?_⟩
    rw [List.getElem?_reverse h, List.getElem?_eq_getElem (by omega)]
    rfl
  · obtain ⟨t, hrun, -, hempty⟩ := execAll_dlyRst_dlyStep xs s
    exact ⟨t, _, hrun, exec_dlyRd_ofNat hd t, hempty d hd hlen⟩
  · obtain ⟨t, hrun, hfill, -⟩ := execAll_dlyRst_dlyStep xs s
    exact ⟨t, hrun, hfill⟩

/-! ## What every command leaves of the delay line (R255) -/

/-- A property that every command keeps, each answering a next state, holds after every run. -/
theorem execAll_keeps {P : State → Prop} (h : ∀ i s, P s → ∃ t, exec i s = .next t ∧ P t) (is : List Instr)
    {s : State} (hs : P s) : ∃ t, execAll is s = .next t ∧ P t := by
  induction is generalizing s with
  | nil => exact ⟨s, rfl, hs⟩
  | cons i is ih =>
    obtain ⟨t, hexec, ht⟩ := h i s hs
    rw [execAll_cons_of_next is hexec]
    exact ih ht

/-- A command other than `DLY.STEP` keeps the delay line or empties it; its RAM it never writes. -/
theorem exec_keeps_or_empties_delay (i : Instr) (s : State) (hstep : ∀ imm a, i ≠ .dlyStep imm a) :
    ∃ t, exec i s = .next t ∧ t.ram = s.ram ∧ ((t.dwp = s.dwp ∧ t.dfc = s.dfc) ∨ (t.dwp = 0 ∧ t.dfc = 0)) := by
  by_cases hrst : i = .sysRst
  · subst hrst
    exact ⟨_, rfl, rfl, .inr ⟨rfl, rfl⟩⟩
  · by_cases hu : unitOf i = .dly
    · cases i with
      | dlyRst => exact ⟨_, rfl, rfl, .inr ⟨rfl, rfl⟩⟩
      | dlyStep imm a => exact absurd rfl (hstep imm a)
      | dlyRd imm => exact ⟨_, rfl, rfl, .inl ⟨rfl, rfl⟩⟩
      | _ => cases hu
    · obtain ⟨t, hexec, -, -, -, -, -, -, -, hdly⟩ := unitsKeepToTheirOwnState.2 i s hrst
      obtain ⟨hdwp, hdfc, hram⟩ := hdly hu
      exact ⟨t, hexec, hram, .inl ⟨hdwp, hdfc⟩⟩

/-- No command counts a word that nothing has written: `DLY.STEP` writes the one it counts. -/
theorem exec_keeps_delayFilled (i : Instr) (s : State) (h : s.DelayFilled) :
    ∃ t, exec i s = .next t ∧ t.DelayFilled := by
  by_cases hstep : ∃ imm a, i = .dlyStep imm a
  · obtain ⟨imm, a, rfl⟩ := hstep
    exact ⟨_, exec_dlyStep imm a s, (h.pushSample a).congr rfl rfl rfl⟩
  · obtain ⟨t, hexec, hram, hline⟩ := exec_keeps_or_empties_delay i s fun imm a hi => hstep ⟨imm, a, hi⟩
    refine ⟨t, hexec, ?_⟩
    rcases hline with ⟨hdwp, hdfc⟩ | ⟨hdwp, hdfc⟩
    · exact h.congr hdwp hdfc hram
    · exact .of_empty hdwp hdfc

/-- With the RAM `m` in place of its own the state has the same samples behind `DWP`, at most 1024 of them. -/
structure State.LineAgrees (s : State) (m : Memory) : Prop where
  count : s.dfc.toNat ≤ 1024
  samples : ∀ d, State.sampleBack { s with ram := m } d = s.sampleBack d

theorem State.lineAgrees_iff (s : State) (m : Memory) : s.LineAgrees m ↔ s.dfc.toNat ≤ 1024 ∧
    ∀ j, j < s.dfc.toNat → Memory.read s.ram ((s.dwp.toNat + 1023 - j) % 1024) =
      Memory.read m ((s.dwp.toNat + 1023 - j) % 1024) := by
  constructor
  · rintro ⟨hcount, hsamples⟩
    refine ⟨hcount, fun j hj => ?_⟩
    rw [← State.sampleBack_of_lt hj, ← hsamples j]
    exact State.sampleBack_of_lt (s := { s with ram := m }) hj
  · rintro ⟨hcount, hwords⟩
    refine ⟨hcount, fun d => ?_⟩
    by_cases hd : d < s.dfc.toNat
    · rw [State.sampleBack_of_lt hd, hwords d hd]
      exact State.sampleBack_of_lt (s := { s with ram := m }) hd
    · rw [State.sampleBack_of_ge (Nat.not_lt.mp hd)]
      exact State.sampleBack_of_ge (s := { s with ram := m }) (Nat.not_lt.mp hd)

section LineAgrees

variable {s t : State} {m : Memory}

theorem State.LineAgrees.congr (h : s.LineAgrees m) (hdwp : t.dwp = s.dwp) (hdfc : t.dfc = s.dfc)
    (hram : t.ram = s.ram) : t.LineAgrees m where
  count := hdfc ▸ h.count
  samples d := by simpa only [State.sampleBack, hdwp, hdfc, hram] using h.samples d

/-- An empty line shows no word of either RAM. -/
theorem State.LineAgrees.of_empty (hdfc : t.dfc = 0) (m : Memory) : t.LineAgrees m where
  count := by simp [hdfc]
  samples d := by simp [State.sampleBack, hdfc]

/-- The same sample written to both RAMs. -/
theorem State.LineAgrees.pushSample (h : s.LineAgrees m) (a : Word) :
    (s.pushSample a).LineAgrees (Memory.write m s.dwp.toNat a) where
  count := by
    rw [s.pushSample_dfc]
    omega
  samples d := by
    change (State.pushSample { s with ram := m } a).sampleBack d = (s.pushSample a).sampleBack d
    by_cases hd : d ≤ 1023
    · cases d with
      | zero => rw [State.pushSample_sampleBack_zero, State.pushSample_sampleBack_zero]
      | succ d => rw [State.pushSample_sampleBack_succ _ a hd, State.pushSample_sampleBack_succ _ a hd, h.samples]
    · rw [State.pushSample_sampleBack_beyond _ a (by omega), State.pushSample_sampleBack_beyond _ a (by omega)]

/-- A report reads a sample behind `DWP` or none. -/
theorem State.LineAgrees.reportDelay_withRam (h : s.LineAgrees m) (d : Nat) :
    State.reportDelay { s with ram := m } d = { s.reportDelay d with ram := m } := by
  rw [State.reportDelay, h.samples]
  rfl

/-- One command from both states: the registers stay the same and the lines go on agreeing. -/
theorem State.LineAgrees.exec (h : s.LineAgrees m) (i : Instr) :
    ∃ t m', Machine.exec i s = .next t ∧ Machine.exec i { s with ram := m } = .next { t with ram := m' } ∧
      t.LineAgrees m' := by
  by_cases hstep : ∃ imm a, i = .dlyStep imm a
  · obtain ⟨imm, a, rfl⟩ := hstep
    have hpush := h.pushSample a
    refine ⟨_, _, exec_dlyStep imm a s, ?_, hpush.congr rfl rfl rfl⟩
    rw [exec_dlyStep, ← hpush.reportDelay_withRam]
    rfl
  · by_cases hrd : ∃ imm, i = .dlyRd imm
    · obtain ⟨imm, rfl⟩ := hrd
      refine ⟨_, m, exec_dlyRd imm s, ?_, h.congr rfl rfl rfl⟩
      rw [exec_dlyRd, h.reportDelay_withRam]
    · have hstep' : ∀ imm a, i ≠ .dlyStep imm a := fun imm a hi => hstep ⟨imm, a, hi⟩
      obtain ⟨t, hexec, hwith⟩ := exec_withRam i s hstep' fun imm hi => hrd ⟨imm, hi⟩
      obtain ⟨u, hexec', hram, hline⟩ := exec_keeps_or_empties_delay i s hstep'
      cases hexec.symm.trans hexec'
      refine ⟨t, m, hexec, hwith m, ?_⟩
      rcases hline with ⟨hdwp, hdfc⟩ | ⟨-, hdfc⟩
      · exact h.congr hdwp hdfc hram
      · exact .of_empty hdfc m

theorem State.LineAgrees.execAll (h : s.LineAgrees m) (is : List Instr) :
    ∃ t m', Machine.execAll is s = .next t ∧ Machine.execAll is { s with ram := m } = .next { t with ram := m' } ∧
      t.LineAgrees m' := by
  induction is generalizing s m with
  | nil => exact ⟨s, m, rfl, rfl, h⟩
  | cons i is ih =>
    obtain ⟨t, m', hexec, hexec', ht⟩ := h.exec i
    rw [execAll_cons_of_next is hexec, execAll_cons_of_next is hexec']
    exact ih ht

end LineAgrees

/-- Settles O56: agreement of the lines and the fill state are each kept by every command, so by every run. -/
theorem staleAndUnwrittenWordsAreNeverObserved : Obligations.StaleAndUnwrittenWordsAreNeverObserved := by
  refine ⟨fun is s m hcount hwords => ?_, fun is s t hfilled hrun => ?_⟩
  · obtain ⟨t, m', hrun, hrun', ht⟩ := ((s.lineAgrees_iff m).mpr ⟨hcount, hwords⟩).execAll is
    exact ⟨t, m', hrun, hrun', (t.lineAgrees_iff m').mp ht⟩
  · obtain ⟨u, hrun', hu⟩ := execAll_keeps exec_keeps_delayFilled is hfilled
    cases hrun.symm.trans hrun'
    exact hu

end Sys2Proof.Machine

/-! # No exceptions, and reset (`60_exceptions.md` R270, `70_reset_and_hazards.md` R301) -/

namespace Sys2Proof.Machine

theorem exec_answers_next (i : Instr) (s : State) : ∃ t, exec i s = .next t := by
  obtain ⟨t, hexec, -⟩ := exec_keeps_port i s
  exact ⟨t, hexec⟩

theorem step_answers_next (s : State) : ∃ t, step s = .next t := by
  cases hport : s.port with
  | nil => exact ⟨s, step_of_port_nil s hport⟩
  | cons c rest =>
    rw [step_of_port_cons s c rest hport]
    exact exec_answers_next _ _

theorem execAll_answers_next (is : List Instr) (s : State) : ∃ t, execAll is s = .next t := by
  obtain ⟨t, hrun, -⟩ := execAll_keeps (P := fun _ => True)
    (fun i s _ => (exec_answers_next i s).imp fun _ hexec => ⟨hexec, trivial⟩) is (s := s) trivial
  exact ⟨t, hrun⟩

/-- Settles O7: a command answers a next state, and so do a step and a run, which execute commands. -/
theorem everyStepAnswersANextState : Obligations.EveryStepAnswersANextState :=
  ⟨fun s c => step_answers_next { s with port := [c] }, step_answers_next, exec_answers_next, execAll_answers_next⟩

/-- The hardware reset and power-up leave the same state but for the commands still at the port. -/
theorem eq_reset_withPort {s t : State} (h : t = State.reset ∨ t = s.hardwareReset) :
    t = { State.reset with port := t.port } := by
  rcases h with rfl | rfl <;> rfl

/-- Settles O15: the listed values are those of the reset state; every TM record is the reset one. -/
theorem resetLeavesEveryRegisterAtItsListedValue : Obligations.ResetLeavesEveryRegisterAtItsListedValue := by
  intro s t h
  rw [eq_reset_withPort h]
  have hslot (i : Fin 36) : State.slot { State.reset with port := t.port } i = TmSlot.reset := State.reset_slot i
  refine ⟨rfl, rfl, rfl, rfl, rfl, rfl, rfl, rfl, rfl, rfl, rfl, rfl, rfl, rfl, fun i => ?_, rfl, rfl, rfl, rfl, rfl,
    rfl, rfl, rfl⟩
  rw [hslot i]
  exact ⟨rfl, rfl, rfl⟩

end Sys2Proof.Machine
